-- ==== Sys2Proof/Word.lean ====
section
/-! DEFINITION. The word types of the block (00_scope.md R8) and a bank of six, one entry per slot. -/

namespace Sys2Proof

/-- A controller register, a payload byte or a status byte: `u8`. -/
abbrev Byte := BitVec 8

/-- An operation or event word, and the result register: `u32` (30_encoding.md R59). -/
abbrev Word := BitVec 32

/-- A descriptor handle: `u16` (00_scope.md R4). -/
abbrev Handle := BitVec 16

/-- An identifier or a mask: `u11` (00_scope.md R4). -/
abbrev Ident := BitVec 11

/-- A legal slot number, 0-5 (00_scope.md R8: a `Slot` is legal only when its value is 0-5). -/
abbrev SlotIx := Fin 6

/-- Eight payload bytes, indexed 0-7 (00_scope.md R8). -/
abbrev Bytes8 := Vector Byte 8

/-- One entry for each of the six slots. -/
abbrev Bank (α : Type) := Vector α 6

/-- The bank with slot `k`'s entry replaced. -/
def bankSet {α : Type} (b : Bank α) (k : SlotIx) (x : α) : Bank α := b.set k.val x k.isLt

end Sys2Proof
end

