-- ==== Sys2Proof/Syntax.lean ====
section
/-! DEFINITION. The rows of spec/opcode_table.json, one constructor each (30_encoding.md R61). -/

namespace Sys2Proof

/-- A foreground operation, or a line of a listing that names a hardware event or a dispatcher invocation. -/
inductive Instr where
  /-- INIT_CAN p (41_controller_init.md R89); `p` is a preset code (30_encoding.md R68). -/
  | initCan (p : BitVec 3)
  /-- CFG_RX h (42_configurator.md R94). -/
  | cfgRx (h : Handle)
  /-- CFG_TX h (42_configurator.md R95). -/
  | cfgTx (h : Handle)
  /-- CFG_AUTO h (42_configurator.md R96). -/
  | cfgAuto (h : Handle)
  /-- RESUME h (43_transfer_engine.md R100). -/
  | resume (h : Handle)
  /-- PAUSE h (43_transfer_engine.md R102). -/
  | pause (h : Handle)
  /-- IS_PAUSED h (43_transfer_engine.md R103). -/
  | isPaused (h : Handle)
  /-- STATUS h (43_transfer_engine.md R104). -/
  | status (h : Handle)
  /-- ENC_ID v (40_codec.md R80). -/
  | encId (v : Ident)
  /-- DEC_ID hi, lo (40_codec.md R81). -/
  | decId (hi lo : Byte)
  /-- ENC_MASK v (40_codec.md R82). -/
  | encMask (v : Ident)
  /-- DEC_MASK hi, lo (40_codec.md R85). -/
  | decMask (hi lo : Byte)
  /-- ENC_FLAGS rtr, ide, idemsk, rtrmsk, rb0, rplv (40_codec.md R83). -/
  | encFlags (rtr ide idemsk rtrmsk rb0 rplv : Bool)
  /-- DEC_FLAGS t4, m4, cd (40_codec.md R84). -/
  | decFlags (t4 m4 cd : Byte)
  /-- CLASSIFY st (45_error_recovery.md R119). -/
  | classify (st : Byte)
  /-- SEI (41_controller_init.md R92). -/
  | sei
  /-- CLI (41_controller_init.md R93). -/
  | cli
  /-- The event EV_RX on slot `s` (46_bus_events.md R127). -/
  | evRx (s : BitVec 3)
  /-- The event EV_TX_DONE on slot `s` (46_bus_events.md R128). -/
  | evTxDone (s : BitVec 3)
  /-- The event EV_MOB_ERR on slot `s` (46_bus_events.md R129). -/
  | evMobErr (s : BitVec 3)
  /-- The event EV_BUS_OFF (46_bus_events.md R130). -/
  | evBusOff
  /-- The event EV_NODE_EN (46_bus_events.md R131). -/
  | evNodeEn
  /-- DISPATCH: the interrupt entry and the dispatcher invocation it starts (44_dispatcher.md R107, R108). -/
  | dispatch
  deriving DecidableEq, Repr

end Sys2Proof
end

