-- ==== Sys2Proof/WellFormed.lean ====
section
/-! DEFINITION. Which instructions have an encoding: the operand bounds the types do not carry. -/

namespace Sys2Proof

/-- The preset codes are 0-4 (30_encoding.md R63 (c), R68); only 0-5 name a slot in an event word (R64). -/
def WellFormed : Instr → Bool
  | .initCan p => p ≤ 4
  | .evRx s => s ≤ 5
  | .evTxDone s => s ≤ 5
  | .evMobErr s => s ≤ 5
  | .cfgRx _ | .cfgTx _ | .cfgAuto _ | .resume _ | .pause _ | .isPaused _ | .status _ => true
  | .encId _ | .decId _ _ | .encMask _ | .decMask _ _ => true
  | .encFlags _ _ _ _ _ _ | .decFlags _ _ _ | .classify _ => true
  | .sei | .cli | .evBusOff | .evNodeEn | .dispatch => true

/-- The instructions a foreground word can spell (30_encoding.md R61, first table). -/
def Instr.isForeground : Instr → Bool
  | .evRx _ | .evTxDone _ | .evMobErr _ | .evBusOff | .evNodeEn | .dispatch => false
  | .initCan _ | .cfgRx _ | .cfgTx _ | .cfgAuto _ | .resume _ | .pause _ | .isPaused _ | .status _ => true
  | .encId _ | .decId _ _ | .encMask _ | .decMask _ _ => true
  | .encFlags _ _ _ _ _ _ | .decFlags _ _ _ | .classify _ | .sei | .cli => true

end Sys2Proof
end

