-- ==== Sys2Proof/Decode.lean ====
section
/-! DEFINITION. Decoding of operation words (30_encoding.md R59-R63) and of event words (R64), the encoder, and the
numbering of spec/opcode_table.json. Decoding reads no state (R62). -/

namespace Sys2Proof

/-- Why a word is refused; every reason is the refusal `R_ILLEGAL_WORD` (30_encoding.md R63). -/
inductive Illegal where
  /-- `op` stands in neither table of R61 (R63 (a)). -/
  | unassignedOp
  /-- `op` is an event code, which software cannot issue (R63 (a)). -/
  | eventCode
  /-- A reserved bit of the operand form is set (R63 (b)). -/
  | reservedBit
  /-- INIT_CAN with preset code 5, 6 or 7 (R63 (c)). -/
  | badPreset
  /-- An event word whose low bits are 6 or 7, which name no slot (R64). -/
  | noSlot
  deriving DecidableEq, Repr

/-- The operand forms of the foreground words (30_encoding.md R60). -/
inductive Form where
  | p | h | v11 | b2 | f6 | b3 | s8 | n
  deriving DecidableEq, Repr

/-- The `arg` bits a form does not use, which must be 0 (30_encoding.md R60, last column). -/
def Form.reserved : Form → BitVec 24
  | .p => 0xFFFFF8
  | .h => 0xFF0000
  | .v11 => 0xFFF800
  | .b2 => 0xFF0000
  | .f6 => 0xFFFFC0
  | .b3 => 0x000000
  | .s8 => 0xFFFF00
  | .n => 0xFFFFFF

/-- The operation code of a word, bits 31:24. -/
def opOf (w : Word) : Byte := w.extractLsb' 24 8

/-- The argument of a word, bits 23:0. -/
def argOf (w : Word) : BitVec 24 := w.extractLsb' 0 24

/-- The operation code of an instruction (30_encoding.md R61, both tables). -/
def opcode : Instr → Byte
  | .initCan _ => 0x01
  | .cfgRx _ => 0x02
  | .cfgTx _ => 0x03
  | .cfgAuto _ => 0x04
  | .resume _ => 0x05
  | .pause _ => 0x06
  | .isPaused _ => 0x07
  | .status _ => 0x08
  | .encId _ => 0x10
  | .decId _ _ => 0x11
  | .encMask _ => 0x12
  | .decMask _ _ => 0x13
  | .encFlags _ _ _ _ _ _ => 0x14
  | .decFlags _ _ _ => 0x15
  | .classify _ => 0x16
  | .sei => 0x20
  | .cli => 0x21
  | .evRx _ => 0x80
  | .evTxDone _ => 0x81
  | .evMobErr _ => 0x82
  | .evBusOff => 0x83
  | .evNodeEn => 0x84
  | .dispatch => 0x90

/-- The mnemonic of an instruction (30_encoding.md R61, R66). -/
def mnemonic : Instr → String
  | .initCan _ => "INIT_CAN"
  | .cfgRx _ => "CFG_RX"
  | .cfgTx _ => "CFG_TX"
  | .cfgAuto _ => "CFG_AUTO"
  | .resume _ => "RESUME"
  | .pause _ => "PAUSE"
  | .isPaused _ => "IS_PAUSED"
  | .status _ => "STATUS"
  | .encId _ => "ENC_ID"
  | .decId _ _ => "DEC_ID"
  | .encMask _ => "ENC_MASK"
  | .decMask _ _ => "DEC_MASK"
  | .encFlags _ _ _ _ _ _ => "ENC_FLAGS"
  | .decFlags _ _ _ => "DEC_FLAGS"
  | .classify _ => "CLASSIFY"
  | .sei => "SEI"
  | .cli => "CLI"
  | .evRx _ => "EV_RX"
  | .evTxDone _ => "EV_TX_DONE"
  | .evMobErr _ => "EV_MOB_ERR"
  | .evBusOff => "EV_BUS_OFF"
  | .evNodeEn => "EV_NODE_EN"
  | .dispatch => "DISPATCH"

/-- The bit rate of a preset code in kbps, none for 5-7 (30_encoding.md R68). -/
def presetKbps (p : BitVec 3) : Option Nat :=
  if p = 0 then some 100
  else if p = 1 then some 125
  else if p = 2 then some 250
  else if p = 3 then some 500
  else if p = 4 then some 1000
  else none

/-- The form of a foreground operation code (30_encoding.md R61); none for a code that is not in the table. -/
def formOf (op : Byte) : Option Form :=
  if op = 0x01 then some .p
  else if op = 0x02 then some .h
  else if op = 0x03 then some .h
  else if op = 0x04 then some .h
  else if op = 0x05 then some .h
  else if op = 0x06 then some .h
  else if op = 0x07 then some .h
  else if op = 0x08 then some .h
  else if op = 0x10 then some .v11
  else if op = 0x11 then some .b2
  else if op = 0x12 then some .v11
  else if op = 0x13 then some .b2
  else if op = 0x14 then some .f6
  else if op = 0x15 then some .b3
  else if op = 0x16 then some .s8
  else if op = 0x20 then some .n
  else if op = 0x21 then some .n
  else none

/-- The event codes (30_encoding.md R61, second table). -/
def isEventCode (op : Byte) : Bool :=
  op = 0x80 || op = 0x81 || op = 0x82 || op = 0x83 || op = 0x84 || op = 0x90

/-- Form `P`: the preset code (30_encoding.md R60). -/
def argPreset (a : BitVec 24) : BitVec 3 := a.extractLsb' 0 3

/-- Form `H`: the descriptor handle (30_encoding.md R60). -/
def argHandle (a : BitVec 24) : Handle := a.extractLsb' 0 16

/-- Form `V11`: the 11-bit value (30_encoding.md R60). -/
def argIdent (a : BitVec 24) : Ident := a.extractLsb' 0 11

/-- Bits 7:0 of the argument: `lo` of form `B2`, `t4` of form `B3`, `st` of form `S8` (30_encoding.md R60). -/
def argByte0 (a : BitVec 24) : Byte := a.extractLsb' 0 8

/-- Bits 15:8 of the argument: `hi` of form `B2`, `m4` of form `B3` (30_encoding.md R60). -/
def argByte1 (a : BitVec 24) : Byte := a.extractLsb' 8 8

/-- Bits 23:16 of the argument: `cd` of form `B3` (30_encoding.md R60). -/
def argByte2 (a : BitVec 24) : Byte := a.extractLsb' 16 8

/-- The slot of an event word, bits 2:0 (30_encoding.md R64). -/
def argSlot (a : BitVec 24) : BitVec 3 := a.extractLsb' 0 3

/-- The operation a code and an argument spell, once the reserved bits are known to be 0 (30_encoding.md R61, R62). -/
def operation (op : Byte) (a : BitVec 24) : Except Illegal Instr :=
  if op = 0x01 then (if argPreset a ≤ 4 then .ok (.initCan (argPreset a)) else .error .badPreset)
  else if op = 0x02 then .ok (.cfgRx (argHandle a))
  else if op = 0x03 then .ok (.cfgTx (argHandle a))
  else if op = 0x04 then .ok (.cfgAuto (argHandle a))
  else if op = 0x05 then .ok (.resume (argHandle a))
  else if op = 0x06 then .ok (.pause (argHandle a))
  else if op = 0x07 then .ok (.isPaused (argHandle a))
  else if op = 0x08 then .ok (.status (argHandle a))
  else if op = 0x10 then .ok (.encId (argIdent a))
  else if op = 0x11 then .ok (.decId (argByte1 a) (argByte0 a))
  else if op = 0x12 then .ok (.encMask (argIdent a))
  else if op = 0x13 then .ok (.decMask (argByte1 a) (argByte0 a))
  else if op = 0x14 then
    .ok (.encFlags (a.getLsbD 0) (a.getLsbD 1) (a.getLsbD 2) (a.getLsbD 3) (a.getLsbD 4) (a.getLsbD 5))
  else if op = 0x15 then .ok (.decFlags (argByte0 a) (argByte1 a) (argByte2 a))
  else if op = 0x16 then .ok (.classify (argByte0 a))
  else if op = 0x20 then .ok .sei
  else if op = 0x21 then .ok .cli
  else .error .unassignedOp

/-- The foreground decoder (30_encoding.md R62): total, and a word it refuses is `R_ILLEGAL_WORD`. -/
def decodeForeground (w : Word) : Except Illegal Instr :=
  match formOf (opOf w) with
  | none => .error (if isEventCode (opOf w) then .eventCode else .unassignedOp)
  | some f => if argOf w &&& f.reserved ≠ 0 then .error .reservedBit else operation (opOf w) (argOf w)

/-- An event label with a slot: bits 23:3 are 0 and bits 2:0 name a slot 0-5 (30_encoding.md R64). -/
def slotLabel (mk : BitVec 3 → Instr) (a : BitVec 24) : Except Illegal Instr :=
  if a &&& 0xFFFFF8 ≠ 0 then .error .reservedBit
  else if argSlot a ≤ 5 then .ok (mk (argSlot a))
  else .error .noSlot

/-- An event label without a slot: bits 23:0 are 0 (30_encoding.md R64). -/
def bareLabel (i : Instr) (a : BitVec 24) : Except Illegal Instr :=
  if a ≠ 0 then .error .reservedBit else .ok i

/-- The reader of event words (30_encoding.md R64). -/
def decodeEvent (w : Word) : Except Illegal Instr :=
  if opOf w = 0x80 then slotLabel .evRx (argOf w)
  else if opOf w = 0x81 then slotLabel .evTxDone (argOf w)
  else if opOf w = 0x82 then slotLabel .evMobErr (argOf w)
  else if opOf w = 0x83 then bareLabel .evBusOff (argOf w)
  else if opOf w = 0x84 then bareLabel .evNodeEn (argOf w)
  else if opOf w = 0x90 then bareLabel .dispatch (argOf w)
  else .error .unassignedOp

/-- The reader of a listing's words, both formats (30_encoding.md R59, R64, R66). DESIGN CHOICE (entry 10), safe: the
foreground itself decodes with `decodeForeground` and never with this. -/
def decodeWord (w : Word) : Except Illegal Instr :=
  if isEventCode (opOf w) then decodeEvent w else decodeForeground w

/-- The argument bits of an instruction (30_encoding.md R60, R64). -/
def argBits : Instr → BitVec 24
  | .initCan p => 0#21 ++ p
  | .cfgRx h => 0#8 ++ h
  | .cfgTx h => 0#8 ++ h
  | .cfgAuto h => 0#8 ++ h
  | .resume h => 0#8 ++ h
  | .pause h => 0#8 ++ h
  | .isPaused h => 0#8 ++ h
  | .status h => 0#8 ++ h
  | .encId v => 0#13 ++ v
  | .decId hi lo => 0#8 ++ hi ++ lo
  | .encMask v => 0#13 ++ v
  | .decMask hi lo => 0#8 ++ hi ++ lo
  | .encFlags rtr ide idemsk rtrmsk rb0 rplv =>
      0#18 ++ BitVec.ofBool rplv ++ BitVec.ofBool rb0 ++ BitVec.ofBool rtrmsk ++ BitVec.ofBool idemsk
        ++ BitVec.ofBool ide ++ BitVec.ofBool rtr
  | .decFlags t4 m4 cd => cd ++ m4 ++ t4
  | .classify st => 0#16 ++ st
  | .sei => 0
  | .cli => 0
  | .evRx s => 0#21 ++ s
  | .evTxDone s => 0#21 ++ s
  | .evMobErr s => 0#21 ++ s
  | .evBusOff => 0
  | .evNodeEn => 0
  | .dispatch => 0

/-- The word of an instruction: `op` in bits 31:24, `arg` in bits 23:0 (30_encoding.md R59). -/
def encode (i : Instr) : Word := opcode i ++ argBits i

/-- The word whose bits are `w` in the table's numbering, every bit above `nbits` being 0. -/
def tableWord (nbits w : Nat) : Word := BitVec.ofNat 32 (w % 2 ^ nbits)

/-- The instruction the decoder reads from the bits `w` of one of the table's rows. -/
def decodeTableWord (nbits w : Nat) : Option Instr :=
  match decodeWord (tableWord nbits w) with
  | .ok i => some i
  | .error _ => none

end Sys2Proof
end

