-- ==== Sys2Proof/Config.lean ====
section
/-! DEFINITION. What lies outside the block: the parameters (00_scope.md R4), the draws (R10), the turns of the
interleaving (20_memory.md R54), and the free values. Every opaque constant here is a free value: it has no body, so a
proof that names it holds whatever it is. -/

namespace Sys2Proof

/-- The kinds of a descriptor (00_scope.md R8). -/
inductive Kind where
  | transmit | receive | autoReply
  deriving DecidableEq, Repr, Inhabited

/-- The names of the global controller registers (10_state.md R15-R20; 20_memory.md R42: named, not numbered). -/
inductive GReg where
  | gcon | gsta | git | gie | bt1 | bt2 | bt3 | page
  deriving DecidableEq, Repr

/-- The names of the per-slot controller registers (10_state.md R22-R27). -/
inductive MReg where
  | idt1 | idt2 | idt4 | idm1 | idm2 | idm4 | cdmob | stmob
  deriving DecidableEq, Repr

/-- One bit-timing triple (10_state.md R19). -/
structure Timing where
  bt1 : Byte
  bt2 : Byte
  bt3 : Byte
  deriving DecidableEq, Repr, Inhabited

/-- The parameters a launch gives (00_scope.md R4, 70_reset_and_hazards.md R162). No step changes them. -/
structure Params where
  /-- `BT_TABLE`: preset code 0-4 to three timing bytes (41_controller_init.md R91). -/
  btTable : Vector Timing 5
  /-- `BOC_WIDTH`: none is the default, a counter without bound (10_state.md R33). -/
  bocWidth : Option Nat
  /-- `swres_disengages_mobs` (20_memory.md R49). -/
  swresDisengages : Bool
  deriving DecidableEq, Repr

/-- The outcome of a bounded node-enable wait (41_controller_init.md R90). -/
inductive WaitOutcome where
  | enabled | timeout
  deriving DecidableEq, Repr, Inhabited

/-- What an `on_transmit` callback does: answer with a buffer and a length (43_transfer_engine.md R101), or call an
operation of the block, block or busy-wait (60_exceptions.md R140, `R_CALLBACK_REENTRY`). -/
inductive FillAnswer where
  | answer (buf : Bytes8) (len : Byte)
  | misbehave
  deriving DecidableEq, Repr, Inhabited

/-- What an `on_receive` callback does: return, or misbehave as above (44_dispatcher.md R112). -/
inductive DeliverAnswer where
  | accept
  | misbehave
  deriving DecidableEq, Repr, Inhabited

/-- The payload of EV_RX (46_bus_events.md R127). -/
structure RxPayload where
  dlc : BitVec 4
  bytes : Bytes8
  rid : Ident
  rtr : Bool
  deriving DecidableEq, Repr, Inhabited

/-- The draws of one step (00_scope.md R10): no step takes more than one wait, one fill, one payload and one error set;
`deliver` says whether any `on_receive` of the step misbehaves (entry 15), `nd` what the ND bits read. -/
structure Draws where
  wait : WaitOutcome
  fill : FillAnswer
  deliver : DeliverAnswer
  rx : RxPayload
  errBits : Byte
  nd : Byte
  deriving DecidableEq, Repr, Inhabited

/-- The descriptor fields the application may write, with the value written (10_state.md R35, R36). The bookkeeping
field `configured` is not among them. -/
inductive DescField where
  | slotId (v : Byte)
  | kind (v : Kind)
  | dataLength (v : Byte)
  | identifier (v : Ident)
  | mask (v : Ident)
  | remoteFrame (v : Bool)
  | extendedId (v : Bool)
  | extendedIdMaskEnabled (v : Bool)
  | remoteFrameMaskEnabled (v : Bool)
  | reservedBitTag (v : Bool)
  | autoReplyValid (v : Bool)
  | buffer (v : Bytes8)
  deriving DecidableEq, Repr, Inhabited

/-- Which step is taken next (20_memory.md R54): a whole foreground operation, an application write, one dispatcher
micro-step, or what an event word names (30_encoding.md R64). -/
inductive Move where
  | foreground
  | descWrite (h : Handle) (f : DescField)
  | dispatcher
  | label (w : Word)
  deriving DecidableEq, Repr, Inhabited

/-- One turn of the interleaving: the move, and the draws carried beside it (30_encoding.md R64); none where nothing is
said of them, and they are then free values. -/
structure Turn where
  move : Move
  draws : Option Draws
  deriving DecidableEq, Repr, Inhabited

/-- The free value `BT_TABLE`, which the spec leaves OPEN (41_controller_init.md R91). DESIGN CHOICE (entry 13), safe. -/
opaque Config.btTable : Vector Timing 5

/-- The free choice of the next turn where the agenda names none (20_memory.md R54, 46_bus_events.md R132). DESIGN CHOICE
(entry 5), safe. -/
opaque Config.freeTurn : Nat → Turn

/-- The free draws of a turn that carries none (00_scope.md R10). DESIGN CHOICE (entry 6), safe. -/
opaque Config.freeDraws : Nat → Draws

/-- The OPEN parameter `REG_ADDR` for the global registers, which no rule reads (20_memory.md R42). -/
opaque Config.globalRegAddr : GReg → Nat

/-- The OPEN parameter `REG_ADDR` for the per-slot registers, which no rule reads (20_memory.md R42). -/
opaque Config.slotRegAddr : MReg → Nat

/-- The OPEN parameter `NODE_EN_TIMEOUT`, which no rule reads: the wait is a draw (41_controller_init.md R90). -/
opaque Config.nodeEnTimeout : Nat

end Sys2Proof
end

