-- ==== Sys2Proof/Machine/State.lean ====
section
/-! DEFINITION. The state of the block (10_state.md R12), the faults and refusals (60_exceptions.md R140), and the state
at power-on (70_reset_and_hazards.md R150). -/

namespace Sys2Proof.Machine

/-- The global controller registers (10_state.md R15-R20), as stored. Bit 7 of `git`, CANIT, is computed on reading. -/
structure Globals where
  gcon : Byte
  gsta : Byte
  git : Byte
  gie : Byte
  bt1 : Byte
  bt2 : Byte
  bt3 : Byte
  page : Byte
  deriving DecidableEq, Repr

/-- The per-slot controller registers of one slot (10_state.md R22-R27). -/
structure Mob where
  idt1 : Byte
  idt2 : Byte
  idt4 : Byte
  idm1 : Byte
  idm2 : Byte
  idm4 : Byte
  cdmob : Byte
  stmob : Byte
  deriving DecidableEq, Repr

/-- The six `control_flags` of a descriptor (10_state.md R35). -/
structure ControlFlags where
  remoteFrame : Bool
  extendedId : Bool
  extendedIdMaskEnabled : Bool
  remoteFrameMaskEnabled : Bool
  reservedBitTag : Bool
  autoReplyValid : Bool
  deriving DecidableEq, Repr

/-- A descriptor (10_state.md R35). The callbacks are no data: their answers are draws and records. -/
structure Desc where
  slotId : Byte
  kind : Kind
  dataLength : Byte
  identifier : Ident
  mask : Ident
  flags : ControlFlags
  buffer : Bytes8
  configured : Bool
  deriving DecidableEq, Repr

/-- The message buffers as (address, byte) pairs: byte `i` of slot `s` has address `8 * s + i`. DESIGN CHOICE (entry 14),
safe: no rule forms an address. -/
abbrev Memory := List Host.Cell

/-- The descriptor store (10_state.md R35): handles strictly rising (entry 23). -/
abbrev DescStore := List (Handle × Desc)

/-- The dispatcher's phase (10_state.md R39); `act` carries the status snapshot. -/
inductive Phase where
  | idle
  | entry
  | slot (s : SlotIx)
  | act (s : SlotIx) (st : Byte)
  | exit
  deriving DecidableEq, Repr

/-- The value-returning operations, as `Result` records name them (00_scope.md R11, 10_state.md R37). -/
inductive ResultOp where
  | isPaused | status | encId | decId | encMask | decMask | encFlags | decFlags | classify
  deriving DecidableEq, Repr

/-- The records of the observation trace (00_scope.md R11). -/
inductive Obs where
  | txFill (h : Handle) (len : Byte)
  | rxDeliver (h : Handle) (bytes : List Byte) (n : Byte)
  | errReport (s : SlotIx) (bits : Byte)
  | busOff (k : Nat)
  | result (op : ResultOp) (v : Word)
  deriving DecidableEq, Repr

/-- The faults (60_exceptions.md R140). Each stops the machine: safe. -/
inductive Fault where
  /-- `F_NOT_INIT`, raised by the configure and transfer operations before the first INIT_CAN. Safe: R140 names it. -/
  | notInit
  /-- `F_BAD_HANDLE`, raised by the same operations for a handle that names no descriptor. Safe: R140 names it. -/
  | badHandle
  /-- `F_BAD_SLOT`, raised by the same operations and by PageSelect for a slot number of 6-255. Safe: R140 names it. -/
  | badSlot
  /-- `F_KIND_MISMATCH`, raised by a configure operation of another kind than the descriptor's. Safe: R140 names it. -/
  | kindMismatch
  /-- `F_PAGE_RANGE`, raised by a per-slot access under a page of 6-15. Safe: R140 names it. -/
  | pageRange
  /-- The model's own: a dispatcher action on a slot whose registry entry leads to no descriptor, a state no run from a
  launch reaches. DESIGN CHOICE (entry 12), safe: the spec gives such a state no meaning. -/
  | lostDescriptor
  deriving DecidableEq, Repr

/-- The refusals (60_exceptions.md R140). Each stops the machine: safe. -/
inductive Refusal where
  /-- `R_ILLEGAL_WORD`, raised by the foreground decoder (30_encoding.md R63). Safe: R140 names it. -/
  | illegalWord
  /-- `R_DESC_IMMUTABLE`, raised by DescWrite of `slot_id` or `kind` of a configured descriptor (10_state.md R36). Safe. -/
  | descImmutable
  /-- `R_CALLBACK_REENTRY`, raised where a callback misbehaves (43_transfer_engine.md R101). Safe: R140 names it. -/
  | callbackReentry
  /-- An instruction that has no meaning yet, by its mnemonic. Safe. No arm of `exec` uses it. -/
  | notModelled (mnemonic : String)
  deriving DecidableEq, Repr

/-- The agents (00_scope.md R5). -/
inductive Agent where
  | fg | disp | hw
  deriving DecidableEq, Repr

/-- How a step stopped. -/
inductive Stop where
  | fault (f : Fault)
  | refusal (r : Refusal)
  deriving DecidableEq, Repr

/-- The record of a fault or a refusal: name, agent, `fgi` and word (60_exceptions.md R140); a DescWrite has no word. -/
structure Mark where
  stop : Stop
  agent : Agent
  fgi : Nat
  word : Option Word
  deriving DecidableEq, Repr

/-- What is not the block's state (10_state.md R12): the launch configuration, which the spec takes as an argument of the
step, and the inputs of the run. DESIGN CHOICE (entries 4, 5, 6). -/
structure Env where
  /-- The parameters of the launch. -/
  params : Params
  /-- The foreground's operation list (10_state.md R14). -/
  ops : List Word
  /-- The coming turns; when it is empty the next turn is `Config.freeTurn clock`. -/
  agenda : List Turn
  /-- The number of turns taken: the argument of the free values. -/
  clock : Nat
  /-- The draws of the current step. -/
  draws : Draws
  deriving DecidableEq, Repr

/-- The state of the block (10_state.md R12). -/
structure State where
  /-- The global controller registers, R15-R20. -/
  g : Globals
  /-- The per-slot controller registers, R22-R27. -/
  m : Bank Mob
  /-- The engaged bits `ENMOB`, R21, R30. -/
  enmob : Bank Bool
  /-- The per-slot interrupt enables `IEMOB`, R21. -/
  iemob : Bank Bool
  /-- The message buffers `DATA`, R28. -/
  data : Memory
  /-- The processor's global interrupt enable, R31. -/
  gie : Bool
  /-- The registry `REG`, R32. -/
  reg : Bank (Option Handle)
  /-- The bus-off counter `BOC`, R33. -/
  boc : Nat
  /-- The initialisation mark `INIT`, R34. -/
  init : Bool
  /-- The descriptor store `D`, R35. -/
  d : DescStore
  /-- The foreground operation index, R14, R38. -/
  fgi : Nat
  /-- The foreground result register `RES`, R37. -/
  res : Word
  /-- The dispatcher's phase `DISP.phase`, R39. -/
  disp : Phase
  /-- The observation trace `OBS`, in step order (00_scope.md R11). -/
  obs : List Obs
  /-- The fault or refusal mark (00_scope.md R9); it is never cleared. -/
  mark : Option Mark
  /-- The launch configuration and the inputs of the run; not the block's state. -/
  env : Env
  deriving DecidableEq, Repr

/-- The per-slot registers at reset. DESIGN CHOICE (entry 1), unsafe: R150 says any value. -/
def resetMob : Mob :=
  { idt1 := 0, idt2 := 0, idt4 := 0, idm1 := 0, idm2 := 0, idm4 := 0, cdmob := 0, stmob := 0 }

/-- Quiet draws: what `env.draws` holds before the first step, which overwrites it. DESIGN CHOICE (entry 6), safe. -/
def quietDraws : Draws :=
  { wait := .timeout, fill := .answer (Vector.replicate 8 0) 0, deliver := .accept,
    rx := { dlc := 0, bytes := Vector.replicate 8 0, rid := 0, rtr := false }, errBits := 0, nd := 0 }

/-- The parameters at reset: `BT_TABLE` free, the others at the defaults 00_scope.md R4 names (entry 13). -/
def resetParams : Params :=
  { btTable := Config.btTable, bocWidth := none, swresDisengages := false }

/-- The state at power-on (70_reset_and_hazards.md R150), with no program and no descriptor loaded (entry 4). Its
chosen values are those of entries 1, 2, 3, 4 and 6. -/
def State.reset : State :=
  { g := { gcon := 0, gsta := 0, git := 0, gie := 0, bt1 := 0, bt2 := 0, bt3 := 0, page := 0 }
    m := Vector.replicate 6 resetMob
    enmob := Vector.replicate 6 false
    iemob := Vector.replicate 6 false
    data := []
    gie := false
    reg := Vector.replicate 6 none
    boc := 0
    init := false
    d := []
    fgi := 0
    res := 0
    disp := .idle
    obs := []
    mark := none
    env := { params := resetParams, ops := [], agenda := [], clock := 0, draws := quietDraws } }

/-- What the host gives at launch (70_reset_and_hazards.md R162): the descriptors, the operation list, the parameters,
any per-slot registers and DATA values, and the turns to come. -/
structure Launch where
  params : Params
  ops : List Word
  d : DescStore
  m : Bank Mob
  data : Memory
  agenda : List Turn
  deriving DecidableEq, Repr

/-- The launch state: power-on with the host's configuration; every descriptor has `configured` = 0 (R150). -/
def State.launch (l : Launch) : State :=
  { State.reset with
    m := l.m
    data := l.data
    d := l.d.map fun p => (p.1, { p.2 with configured := false })
    env := { State.reset.env with params := l.params, ops := l.ops, agenda := l.agenda } }

end Sys2Proof.Machine
end

