-- ==== Sys2Proof/Machine/Flags.lean ====
section
/-! DEFINITION. The fields and flags of the registers (10_state.md R15-R27), the error classifier, and the interrupt line
(60_exceptions.md R134). -/

namespace Sys2Proof.Machine

/-- The six slots in the scan order 0..5. -/
def slots : List SlotIx := [0, 1, 2, 3, 4, 5]

/-- The slot an 8-bit number names, none for 6-255 (00_scope.md R8). -/
def slotOf (v : Byte) : Option SlotIx := if h : v.toNat < 6 then some ⟨v.toNat, h⟩ else none

/-- `ERRMASK`, the six defined error bits of a status byte (10_state.md R27). -/
def errMask : Byte := 0x9F

/-- `IRQERR`, the error bits that raise an interrupt (10_state.md R27). -/
def irqErr : Byte := 0x1F

/-- `Classify` (45_error_recovery.md R119). -/
def classify (st : Byte) : Byte := st &&& errMask

/-- `STMOB.TXOK` (10_state.md R27). -/
def txok (st : Byte) : Bool := st.getLsbD 6

/-- `STMOB.RXOK` (10_state.md R27). -/
def rxok (st : Byte) : Bool := st.getLsbD 5

/-- `STMOB.DLCW` (10_state.md R27). -/
def dlcw (st : Byte) : Bool := st.getLsbD 7

/-- `CDMOB.CONMOB` (10_state.md R26). -/
def conmob (cd : Byte) : BitVec 2 := cd.extractLsb' 6 2

/-- `CDMOB.RPLV` (10_state.md R26). -/
def rplv (cd : Byte) : Bool := cd.getLsbD 5

/-- `CDMOB.IDE` (10_state.md R26). -/
def ide (cd : Byte) : Bool := cd.getLsbD 4

/-- `CDMOB.DLC` (10_state.md R26). -/
def dlc (cd : Byte) : BitVec 4 := cd.extractLsb' 0 4

/-- `IDT4.RTRTAG` (10_state.md R23). -/
def rtrtag (t4 : Byte) : Bool := t4.getLsbD 2

/-- `IDM4.RTRMSK` (10_state.md R25). -/
def rtrmsk (m4 : Byte) : Bool := m4.getLsbD 2

/-- `PAGE.MOBNB` (10_state.md R20). -/
def mobnb (p : Byte) : BitVec 4 := p.extractLsb' 4 4

/-- `PAGE.AINC` (10_state.md R20). -/
def ainc (p : Byte) : Bool := p.getLsbD 3

/-- `PAGE.INDX` (10_state.md R20). -/
def indx (p : Byte) : BitVec 3 := p.extractLsb' 0 3

/-- `GCON.TTC` (10_state.md R15). -/
def ttc (gcon : Byte) : Bool := gcon.getLsbD 5

/-- `GCON.ENASTB` (10_state.md R15). -/
def enastb (gcon : Byte) : Bool := gcon.getLsbD 1

/-- `GSTA.ENFG` (10_state.md R16). -/
def enfg (gsta : Byte) : Bool := gsta.getLsbD 2

/-- `GSTA.BOFF` (10_state.md R16). -/
def boff (gsta : Byte) : Bool := gsta.getLsbD 1

/-- `GIT.BOFFIT` (10_state.md R17). -/
def boffit (git : Byte) : Bool := git.getLsbD 6

/-- `GIE.ENIT` (10_state.md R18). -/
def enit (gie : Byte) : Bool := gie.getLsbD 7

/-- `GIE.ENBOFF` (10_state.md R18). -/
def enboff (gie : Byte) : Bool := gie.getLsbD 6

/-- `GIE.ENRX` (10_state.md R18). -/
def enrx (gie : Byte) : Bool := gie.getLsbD 5

/-- `GIE.ENTX` (10_state.md R18). -/
def entx (gie : Byte) : Bool := gie.getLsbD 4

/-- `GIE.ENERR` (10_state.md R18). -/
def enerr (gie : Byte) : Bool := gie.getLsbD 3

/-- The term of slot `k` in the interrupt line (60_exceptions.md R134). -/
def slotIrq (s : State) (k : SlotIx) : Bool :=
  s.iemob[k] && ((entx s.g.gie && txok s.m[k].stmob) || (enrx s.g.gie && rxok s.m[k].stmob)
    || (enerr s.g.gie && (s.m[k].stmob &&& irqErr != 0)))

/-- `G.GIT.CANIT`: the interrupt line without the `ENIT` term (60_exceptions.md R134). -/
def canit (s : State) : Bool := (enboff s.g.gie && boffit s.g.git) || slots.any (slotIrq s)

/-- `irq_cond`, the level-sensitive CAN interrupt line (60_exceptions.md R134). -/
def irqCond (s : State) : Bool := enit s.g.gie && canit s

/-- `NodeOn` (46_bus_events.md R126). -/
def nodeOn (s : State) : Bool := enfg s.g.gsta && !boff s.g.gsta

/-- The dispatcher's entry guard (60_exceptions.md R136). -/
def entryGuard (s : State) : Bool := s.gie && s.disp == .idle && irqCond s

end Sys2Proof.Machine
end

