-- ==== Sys2Proof/Machine/Ops.lean ====
section
/-! DEFINITION. The named operations over the state: field updates, the message-buffer memory, the descriptor store, the
access primitives of 20_memory.md R43-R49, the node-enable wait, interrupt entry and exit, and the recording of a stop. -/

namespace Sys2Proof.Machine

/-- The outcome of a meaning. -/
abbrev Out := Host.Outcome State Fault Refusal

/-- Run `k` on the next state of `o`; a fault or a refusal ends the step (00_scope.md R9). -/
def chain (o : Out) (k : State → Out) : Out :=
  match o with
  | .next s => k s
  | .fault f => .fault f
  | .refused r => .refused r

/-- Run `k` on a primitive's answer; its fault ends the step (00_scope.md R9). -/
def orFault {α : Type} (e : Except Fault α) (k : α → Out) : Out :=
  match e with
  | .ok a => k a
  | .error f => .fault f

/-! ### Updates of one field -/

def State.setG (s : State) (g : Globals) : State := { s with g := g }
def State.setMob (s : State) (k : SlotIx) (x : Mob) : State := { s with m := bankSet s.m k x }
def State.setEnmob (s : State) (k : SlotIx) (b : Bool) : State := { s with enmob := bankSet s.enmob k b }
def State.setIemob (s : State) (k : SlotIx) (b : Bool) : State := { s with iemob := bankSet s.iemob k b }
def State.setData (s : State) (m : Memory) : State := { s with data := m }
def State.setGie (s : State) (b : Bool) : State := { s with gie := b }
def State.setReg (s : State) (k : SlotIx) (h : Option Handle) : State := { s with reg := bankSet s.reg k h }
def State.setBoc (s : State) (n : Nat) : State := { s with boc := n }
def State.setInit (s : State) (b : Bool) : State := { s with init := b }
def State.setD (s : State) (d : DescStore) : State := { s with d := d }
def State.setFgi (s : State) (n : Nat) : State := { s with fgi := n }
def State.setRes (s : State) (v : Word) : State := { s with res := v }
def State.setDisp (s : State) (p : Phase) : State := { s with disp := p }
def State.emit (s : State) (o : Obs) : State := { s with obs := s.obs ++ [o] }
def State.setMark (s : State) (m : Mark) : State := { s with mark := some m }
def State.setEnv (s : State) (e : Env) : State := { s with env := e }

/-- A value-returning operation writes RES and emits its record (10_state.md R37). -/
def State.result (s : State) (op : ResultOp) (v : Word) : State := (s.setRes v).emit (.result op v)

/-! ### The message buffers (10_state.md R28) -/

/-- What a byte that nothing has written reads as. DESIGN CHOICE (entry 2), unsafe: R28 says any value. -/
def unwrittenByte : Byte := 0x00

/-- The key of byte `i` of slot `k`'s message buffer. DESIGN CHOICE (entry 14), safe. -/
def dataAddr (k : SlotIx) (i : BitVec 3) : Nat := 8 * k.val + i.toNat

/-- The byte at an address. -/
def memRead : Memory → Nat → Byte
  | [], _ => unwrittenByte
  | c :: m, a => if c.1 = a then c.2 else memRead m a

/-- A cell in front, unless it holds what an unlisted address reads as. -/
def memCons (a : Nat) (b : Byte) (m : Memory) : Memory := if b = unwrittenByte then m else (a, b) :: m

/-- Write a byte, keeping the canonical form. -/
def memWrite : Memory → Nat → Byte → Memory
  | [], a, b => memCons a b []
  | c :: m, a, b =>
    if a < c.1 then memCons a b (c :: m)
    else if a = c.1 then memCons a b m
    else c :: memWrite m a b

/-- The canonical form above a bound: addresses strictly rising, below 48, no entry an unlisted address reads as. -/
def memWfFrom : Nat → Memory → Bool
  | _, [] => true
  | lo, c :: m => lo ≤ c.1 && c.1 < 48 && c.2 != unwrittenByte && memWfFrom (c.1 + 1) m

/-- The canonical form of the message buffers. -/
def Memory.wf (m : Memory) : Bool := memWfFrom 0 m

/-- `DATA[k][i]` (10_state.md R28). -/
def State.dataByte (s : State) (k : SlotIx) (i : BitVec 3) : Byte := memRead s.data (dataAddr k i)

/-! ### The descriptor store (10_state.md R35) -/

/-- `D[h]`, none for a handle that names no descriptor. -/
def descAt : DescStore → Handle → Option Desc
  | [], _ => none
  | p :: d, h => if p.1 = h then some p.2 else descAt d h

/-- Rewrite the descriptor of a handle; the set of handles is fixed (10_state.md R35). -/
def descUpdate (d : DescStore) (h : Handle) (f : Desc → Desc) : DescStore :=
  d.map fun p => if p.1 = h then (p.1, f p.2) else p

/-- The handles of the store. -/
def descHandles (d : DescStore) : List Handle := d.map (·.1)

/-- The canonical form of the store: handles strictly rising (entry 23). -/
def descWf : DescStore → Bool
  | [] => true
  | [_] => true
  | p :: q :: d => p.1 < q.1 && descWf (q :: d)

def State.updateDesc (s : State) (h : Handle) (f : Desc → Desc) : State := s.setD (descUpdate s.d h f)

/-! ### Register access (20_memory.md R43, R48) -/

/-- The bits of a register by access code (10_state.md, access codes). A bit in no mask is reserved and reads 0. -/
structure Access where
  rw : Byte
  ro : Byte
  w1c : Byte
  w0c : Byte
  sc : Byte
  nd : Byte
  deriving DecidableEq, Repr

/-- The access codes of a global register (10_state.md R15-R20). -/
def gAccess : GReg → Access
  | .gcon => { rw := 0x22, ro := 0, w1c := 0, w0c := 0, sc := 0x01, nd := 0xDC }
  | .gsta => { rw := 0, ro := 0x06, w1c := 0, w0c := 0, sc := 0, nd := 0x59 }
  | .git => { rw := 0, ro := 0x80, w1c := 0x7F, w0c := 0, sc := 0, nd := 0x3F }
  | .gie => { rw := 0xFF, ro := 0, w1c := 0, w0c := 0, sc := 0, nd := 0 }
  | .bt1 => { rw := 0xFF, ro := 0, w1c := 0, w0c := 0, sc := 0, nd := 0 }
  | .bt2 => { rw := 0xFF, ro := 0, w1c := 0, w0c := 0, sc := 0, nd := 0 }
  | .bt3 => { rw := 0xFF, ro := 0, w1c := 0, w0c := 0, sc := 0, nd := 0 }
  | .page => { rw := 0xFF, ro := 0, w1c := 0, w0c := 0, sc := 0, nd := 0 }

/-- The access codes of a per-slot register (10_state.md R22-R27). Bit 1 of IDM4 is plain RW here: DESIGN CHOICE (entry 25),
since R25 heads the register `RW`, calls that bit 'reserved; written 0', and R13 makes reserved bits an exception. -/
def mAccess : MReg → Access
  | .idt1 => { rw := 0xFF, ro := 0, w1c := 0, w0c := 0, sc := 0, nd := 0 }
  | .idt2 => { rw := 0xFF, ro := 0, w1c := 0, w0c := 0, sc := 0, nd := 0 }
  | .idt4 => { rw := 0xFF, ro := 0, w1c := 0, w0c := 0, sc := 0, nd := 0 }
  | .idm1 => { rw := 0xFF, ro := 0, w1c := 0, w0c := 0, sc := 0, nd := 0 }
  | .idm2 => { rw := 0xFF, ro := 0, w1c := 0, w0c := 0, sc := 0, nd := 0 }
  | .idm4 => { rw := 0xFF, ro := 0, w1c := 0, w0c := 0, sc := 0, nd := 0 }
  | .cdmob => { rw := 0xFF, ro := 0, w1c := 0, w0c := 0, sc := 0, nd := 0 }
  | .stmob => { rw := 0, ro := 0, w1c := 0, w0c := 0xFF, sc := 0, nd := 0 }

/-- What a read returns of a stored value, the ND bits taken from the draw (20_memory.md R43). -/
def accessRead (a : Access) (old draw : Byte) : Byte :=
  (old &&& (a.rw ||| a.ro ||| a.w1c ||| a.w0c) &&& ~~~a.nd) ||| (draw &&& a.nd)

/-- What a write of `v` stores over `old`; an SC bit reads 0 after it (20_memory.md R43). -/
def accessStore (a : Access) (old v : Byte) : Byte :=
  (v &&& (a.rw ||| (a.nd &&& ~~~a.w1c))) ||| (old &&& a.ro) ||| (old &&& ~~~v &&& a.w1c) ||| (old &&& v &&& a.w0c)

/-- The value that keeps every bit of a register: stored for RW and ND, 0 for W1C and SC, 1 for W0C (20_memory.md R48). -/
def accessKeep (a : Access) (old : Byte) : Byte := (old &&& (a.rw ||| (a.nd &&& ~~~a.w1c))) ||| a.w0c

/-- A field of a register: its lowest bit and its width. -/
structure Field where
  lo : Nat
  width : Nat
  deriving DecidableEq, Repr

def fSWRES : Field := ⟨0, 1⟩
def fENASTB : Field := ⟨1, 1⟩
def fTTC : Field := ⟨5, 1⟩
def fENIT : Field := ⟨7, 1⟩
def fENRX : Field := ⟨5, 1⟩
def fENTX : Field := ⟨4, 1⟩
def fINDX : Field := ⟨0, 3⟩
def fCONMOB : Field := ⟨6, 2⟩
def fDLC : Field := ⟨0, 4⟩
def fDLCW : Field := ⟨7, 1⟩
def fTXOK : Field := ⟨6, 1⟩
def fRXOK : Field := ⟨5, 1⟩
def fRTRTAG : Field := ⟨2, 1⟩
def fBOFFIT : Field := ⟨6, 1⟩
def fENFG : Field := ⟨2, 1⟩
def fBOFF : Field := ⟨1, 1⟩

/-- The bits of a field. -/
def fieldMask (f : Field) : Byte := BitVec.ofNat 8 (2 ^ f.width - 1) <<< f.lo

/-- `v` placed in a field of `old`, the other bits those of `old`. -/
def fieldInsert (f : Field) (old v : Byte) : Byte := (old &&& ~~~fieldMask f) ||| ((v <<< f.lo) &&& fieldMask f)

/-- The stored value of a global register. -/
def Globals.get (g : Globals) : GReg → Byte
  | .gcon => g.gcon
  | .gsta => g.gsta
  | .git => g.git
  | .gie => g.gie
  | .bt1 => g.bt1
  | .bt2 => g.bt2
  | .bt3 => g.bt3
  | .page => g.page

/-- The globals with one register's stored value replaced. -/
def Globals.put (g : Globals) (r : GReg) (v : Byte) : Globals :=
  match r with
  | .gcon => { g with gcon := v }
  | .gsta => { g with gsta := v }
  | .git => { g with git := v }
  | .gie => { g with gie := v }
  | .bt1 => { g with bt1 := v }
  | .bt2 => { g with bt2 := v }
  | .bt3 => { g with bt3 := v }
  | .page => { g with page := v }

/-- The stored value of a per-slot register. -/
def Mob.get (x : Mob) : MReg → Byte
  | .idt1 => x.idt1
  | .idt2 => x.idt2
  | .idt4 => x.idt4
  | .idm1 => x.idm1
  | .idm2 => x.idm2
  | .idm4 => x.idm4
  | .cdmob => x.cdmob
  | .stmob => x.stmob

/-- The slot's registers with one stored value replaced. -/
def Mob.put (x : Mob) (r : MReg) (v : Byte) : Mob :=
  match r with
  | .idt1 => { x with idt1 := v }
  | .idt2 => { x with idt2 := v }
  | .idt4 => { x with idt4 := v }
  | .idm1 => { x with idm1 := v }
  | .idm2 => { x with idm2 := v }
  | .idm4 => { x with idm4 := v }
  | .cdmob => { x with cdmob := v }
  | .stmob => { x with stmob := v }

/-- A hardware update of a global register's stored value: no access code applies (46_bus_events.md R125). -/
def State.hwG (s : State) (r : GReg) (v : Byte) : State := s.setG (s.g.put r v)

/-- A hardware update of slot `k`'s register: no access code and no engaged-bit effect (46_bus_events.md R127). -/
def State.hwM (s : State) (k : SlotIx) (r : MReg) (v : Byte) : State := s.setMob k (s.m[k].put r v)

/-- `SoftwareReset` (20_memory.md R49). -/
def State.softwareReset (s : State) : State :=
  let t := s.setG { s.g with gcon := 0, gsta := 0, git := 0 }
  if s.env.params.swresDisengages then slots.foldl (fun u k => u.setEnmob k false) t else t

/-- `RegRead` of a global register (20_memory.md R43); CANIT reads the line (60_exceptions.md R134). -/
def State.readG (s : State) (r : GReg) : Byte :=
  match r with
  | .git => (accessRead (gAccess .git) (s.g.get .git) s.env.draws.nd &&& 0x7F)
      ||| (if canit s then 0x80 else 0x00)
  | r => accessRead (gAccess r) (s.g.get r) s.env.draws.nd

/-- The store of a software write to a global register. -/
def State.storeG (s : State) (r : GReg) (v : Byte) : State := s.hwG r (accessStore (gAccess r) (s.g.get r) v)

/-- `RegWrite` of a global register (20_memory.md R43): writing GCON, `ENASTB` = 0 clears `ENFG` and `SWRES` = 1
performs the software reset. -/
def State.writeG (s : State) (r : GReg) (v : Byte) : State :=
  match r with
  | .gcon =>
    let t := s.storeG .gcon v
    let u := if enastb v then t else t.hwG .gsta (fieldInsert fENFG t.g.gsta 0)
    if v.getLsbD 0 then u.softwareReset else u
  | r => s.storeG r v

/-- A field assignment `G.R.F <- v` (20_memory.md R48). -/
def State.writeGField (s : State) (r : GReg) (f : Field) (v : Byte) : State :=
  s.writeG r (fieldInsert f (accessKeep (gAccess r) (s.g.get r)) v)

/-- `RegRead` of slot `k`'s register (20_memory.md R43): no bit of it is ND. -/
def State.readM (s : State) (k : SlotIx) (r : MReg) : Byte :=
  accessRead (mAccess r) (s.m[k].get r) s.env.draws.nd

/-- `RegWrite` of slot `k`'s register (20_memory.md R43); a write of CDMOB sets the engaged bit (10_state.md R30 (a)). -/
def State.writeM (s : State) (k : SlotIx) (r : MReg) (v : Byte) : State :=
  let t := s.hwM k r (accessStore (mAccess r) (s.m[k].get r) v)
  match r with
  | .cdmob => t.setEnmob k (conmob v != 0)
  | _ => t

/-- A field assignment `M[k].R.F <- v` (20_memory.md R48). -/
def State.writeMField (s : State) (k : SlotIx) (r : MReg) (f : Field) (v : Byte) : State :=
  s.writeM k r (fieldInsert f (accessKeep (mAccess r) (s.m[k].get r)) v)

/-! ### Paging (10_state.md R20, R29; 20_memory.md R44-R47) -/

/-- The slot `G.PAGE.MOBNB` selects, none for 6-15 (10_state.md R20). -/
def State.selected (s : State) : Option SlotIx := slotOf ((mobnb s.g.page).setWidth 8)

/-- `PageSelect` of a legal slot (20_memory.md R44): MOBNB = k, AINC = 0, INDX = 0. -/
def State.selectPage (s : State) (k : SlotIx) : State :=
  s.writeG .page (BitVec.ofNat 4 k.val ++ 0b0000#4)

/-- `PageSelect` (20_memory.md R44): a slot number above 5 faults. -/
def State.pageSelect (s : State) (v : Byte) : Except Fault State :=
  match slotOf v with
  | some k => .ok (s.selectPage k)
  | none => .error .badSlot

/-- A register as software names it: a per-slot name reaches the selected slot (10_state.md R29). -/
inductive RegName where
  | global (r : GReg)
  | slot (r : MReg)
  deriving DecidableEq, Repr

/-- `RegRead` by name (20_memory.md R43, 10_state.md R20 and R29). -/
def State.regRead (s : State) (r : RegName) : Except Fault Byte :=
  match r with
  | .global r => .ok (s.readG r)
  | .slot r => match s.selected with
    | some k => .ok (s.readM k r)
    | none => .error .pageRange

/-- `RegWrite` by name (20_memory.md R43, 10_state.md R20 and R29). -/
def State.regWrite (s : State) (r : RegName) (v : Byte) : Except Fault State :=
  match r with
  | .global r => .ok (s.writeG r v)
  | .slot r => match s.selected with
    | some k => .ok (s.writeM k r v)
    | none => .error .pageRange

/-- The data index after an access: one further modulo 8, unless AINC = 1 (20_memory.md R45). -/
def State.advanceIndex (s : State) : State :=
  if ainc s.g.page then s else s.writeGField .page fINDX ((indx s.g.page + 1).setWidth 8)

/-- `MsgRead` (20_memory.md R45). -/
def State.msgRead (s : State) : Except Fault (Byte × State) :=
  match s.selected with
  | some k => .ok (s.dataByte k (indx s.g.page), s.advanceIndex)
  | none => .error .pageRange

/-- `MsgWrite` (20_memory.md R45). -/
def State.msgWrite (s : State) (v : Byte) : Except Fault State :=
  match s.selected with
  | some k => .ok (s.setData (memWrite s.data (dataAddr k (indx s.g.page)) v)).advanceIndex
  | none => .error .pageRange

/-- `n` message reads in a row: the bytes in order, and the state after them. -/
def State.msgReadMany (s : State) : Nat → Except Fault (List Byte × State)
  | 0 => .ok ([], s)
  | n + 1 => match s.msgRead with
    | .error f => .error f
    | .ok (b, t) => match t.msgReadMany n with
      | .error f => .error f
      | .ok (bs, u) => .ok (b :: bs, u)

/-- Message writes of a list of bytes in order. -/
def State.msgWriteMany (s : State) : List Byte → Except Fault State
  | [] => .ok s
  | b :: bs => match s.msgWrite b with
    | .error f => .error f
    | .ok t => t.msgWriteMany bs

/-- `StClear` (20_memory.md R46): clears the bits of `mask` in the selected slot's status, by its W0C access. -/
def State.stClear (s : State) (mask : Byte) : Except Fault State := s.regWrite (.slot .stmob) (~~~mask)

/-- `GitClear` (20_memory.md R47): a write of ones to the W1C bits. -/
def State.gitClear (s : State) (mask : Byte) : State := s.writeG .git mask

/-- `NodeEnableWait` (41_controller_init.md R90): one draw of the outcome. -/
def State.nodeEnableWait (s : State) : State :=
  if enfg (s.readG .gsta) then s
  else match s.env.draws.wait with
    | .enabled => s.hwG .gsta (fieldInsert fENFG s.g.gsta 1)
    | .timeout => s

/-! ### The interrupt's entry and return, and the stop of a step -/

/-- `DispEnter`: interrupt entry (44_dispatcher.md R107, 60_exceptions.md R138). Nothing is saved. -/
def State.dispEnter (s : State) : State := (s.setGie false).setDisp .entry

/-- `DispExit`: return from interrupt (44_dispatcher.md R115, 60_exceptions.md R139). -/
def State.dispExit (s : State) : State := (s.setGie true).setDisp .idle

/-- The bus-off counter after one more recovery (10_state.md R33, 44_dispatcher.md R109). -/
def bocNext (width : Option Nat) (k : Nat) : Nat :=
  match width with
  | none => k + 1
  | some w => (k + 1) % 2 ^ w

/-- The outcome of a step as the machine records it (00_scope.md R9, 60_exceptions.md R140): a fault or a refusal leaves
the state before the step, with the mark. DESIGN CHOICE (entry 8), safe. -/
def recordStop (before : State) (agent : Agent) (word : Option Word) (o : Out) : Out :=
  match o with
  | .next t => .next t
  | .fault f => .next (before.setMark { stop := .fault f, agent := agent, fgi := before.fgi, word := word })
  | .refused r => .next (before.setMark { stop := .refusal r, agent := agent, fgi := before.fgi, word := word })

/-- The code number of a fault, none for the model's own (60_exceptions.md R140). -/
def Fault.code : Fault → Option Byte
  | .notInit => some 0x01
  | .badHandle => some 0x02
  | .badSlot => some 0x03
  | .kindMismatch => some 0x04
  | .pageRange => some 0x05
  | .lostDescriptor => none

/-- The code number of a refusal (60_exceptions.md R140); an instruction without a meaning has none. -/
def Refusal.code : Refusal → Option Byte
  | .illegalWord => some 0x81
  | .descImmutable => some 0x82
  | .callbackReentry => some 0x83
  | _ => none

/-- A marked state is quiescent: its step answers the recorded stop (00_scope.md R9). -/
def Mark.outcome (m : Mark) : Out :=
  match m.stop with
  | .fault f => .fault f
  | .refusal r => .refused r

/-! ### The inputs of the run -/

/-- The next turn: the agenda's first, or a free choice (entry 5). -/
def State.turn (s : State) : Turn :=
  match s.env.agenda with
  | [] => Config.freeTurn s.env.clock
  | t :: _ => t

/-- The state as its next step begins: the turn is taken, its draws are in place (entry 6). -/
def State.begin (s : State) : State :=
  s.setEnv { s.env with
    agenda := s.env.agenda.tail
    clock := s.env.clock + 1
    draws := (s.turn.draws).getD (Config.freeDraws s.env.clock) }

/-- The foreground's next operation word, none at the end of the list (10_state.md R14). -/
def State.fetch (s : State) : Option Word := s.env.ops[s.fgi]?

/-- The list with `w` at index `n`, filled up with zero words below it. -/
def placeAt : List Word → Nat → Word → List Word
  | [], 0, w => [w]
  | [], n + 1, w => 0 :: placeAt [] n w
  | _ :: l, 0, w => w :: l
  | x :: l, n + 1, w => x :: placeAt l n w

end Sys2Proof.Machine
end

