-- ==== Sys2Proof/Machine/Operands.lean ====
section
/-! DEFINITION. The bit-packing codec (40_codec.md R80-R86), the length clamp (R88), and the checks of a descriptor
operand (42_configurator.md R97, 43_transfer_engine.md CheckSlot). -/

namespace Sys2Proof.Machine

/-- `EncId`, and `EncMask` (40_codec.md R80, R82): the high-order and the low-order wire byte. -/
def encId (v : Ident) : Byte × Byte := (v.extractLsb' 3 8, v.extractLsb' 0 3 ++ 0b00000#5)

/-- `DecId`, and `DecMask` (40_codec.md R81, R85); `lo[4:0]` is ignored. -/
def decId (hi lo : Byte) : Ident := hi ++ lo.extractLsb' 5 3

/-- `t4` of `EncFlags`, the IDT4 byte (40_codec.md R83). -/
def encTagFlags (f : ControlFlags) : Byte :=
  0b00000#5 ++ BitVec.ofBool f.remoteFrame ++ 0b0#1 ++ BitVec.ofBool f.reservedBitTag

/-- `m4` of `EncFlags`, the IDM4 byte (40_codec.md R83). -/
def encMaskFlags (f : ControlFlags) : Byte :=
  0b00000#5 ++ BitVec.ofBool f.remoteFrameMaskEnabled ++ 0b0#1 ++ BitVec.ofBool f.extendedIdMaskEnabled

/-- `cf` of `EncFlags`, the flag bits of CDMOB (40_codec.md R83). -/
def encControlFlags (f : ControlFlags) : Byte :=
  0b00#2 ++ BitVec.ofBool f.autoReplyValid ++ BitVec.ofBool f.extendedId ++ 0b0000#4

/-- `DecFlags` (40_codec.md R84). -/
def decFlags (t4 m4 cd : Byte) : ControlFlags :=
  { remoteFrame := t4.getLsbD 2
    extendedId := cd.getLsbD 4
    extendedIdMaskEnabled := m4.getLsbD 0
    remoteFrameMaskEnabled := m4.getLsbD 2
    reservedBitTag := t4.getLsbD 0
    autoReplyValid := cd.getLsbD 5 }

/-- The flags in the F6 bit order, as DEC_FLAGS returns them (40_codec.md R84). -/
def flagsF6 (f : ControlFlags) : BitVec 6 :=
  BitVec.ofBool f.autoReplyValid ++ BitVec.ofBool f.reservedBitTag ++ BitVec.ofBool f.remoteFrameMaskEnabled
    ++ BitVec.ofBool f.extendedIdMaskEnabled ++ BitVec.ofBool f.extendedId ++ BitVec.ofBool f.remoteFrame

/-- `EncCtrl` (40_codec.md R86). -/
def encCtrl (con : BitVec 2) (rplv ide : Bool) (dlc : BitVec 4) : Byte :=
  con ++ BitVec.ofBool rplv ++ BitVec.ofBool ide ++ dlc

/-- `min(x, 8)` on a length (40_codec.md R88). -/
def clamp8 (x : Byte) : Byte := if x ≤ 8 then x else 8

/-- `CheckSlot` (43_transfer_engine.md, common entry check), in the order of 60_exceptions.md R141. -/
def checkSlot (h : Handle) (s : State) : Except Fault (Desc × SlotIx) :=
  if !s.init then .error .notInit
  else match descAt s.d h with
    | none => .error .badHandle
    | some d => match slotOf d.slotId with
      | none => .error .badSlot
      | some k => .ok (d, k)

/-- `CheckDesc` (42_configurator.md R97): `CheckSlot`, then the kind. -/
def checkDesc (h : Handle) (kind : Kind) (s : State) : Except Fault (Desc × SlotIx) :=
  match checkSlot h s with
  | .error f => .error f
  | .ok (d, k) => if d.kind = kind then .ok (d, k) else .error .kindMismatch

/-- The buffer with its first bytes replaced by a list (44_dispatcher.md R112: the rest keep their values). -/
def overlay (bytes : List Byte) (old : Bytes8) : Bytes8 :=
  Vector.ofFn fun i : Fin 8 => (bytes[i.val]?).getD old[i]

end Sys2Proof.Machine
end

