-- ==== Sys2Proof/Machine/Codec.lean ====
section
/-! DEFINITION. The codec operations (40_codec.md R80-R85): they read and write no controller state. -/

namespace Sys2Proof.Machine

/-- A pair of wire bytes in RES: the high-order byte in bits 15:8 (20_memory.md R50). -/
def wirePair (p : Byte × Byte) : Word := (p.1 ++ p.2).setWidth 32

/-- ENC_ID (40_codec.md R80). -/
def execEncId (v : Ident) (s : State) : Out := .next (s.result .encId (wirePair (encId v)))

/-- DEC_ID (40_codec.md R81). -/
def execDecId (hi lo : Byte) (s : State) : Out := .next (s.result .decId ((decId hi lo).setWidth 32))

/-- ENC_MASK (40_codec.md R82). -/
def execEncMask (v : Ident) (s : State) : Out := .next (s.result .encMask (wirePair (encId v)))

/-- DEC_MASK (40_codec.md R85). -/
def execDecMask (hi lo : Byte) (s : State) : Out := .next (s.result .decMask ((decId hi lo).setWidth 32))

/-- ENC_FLAGS (40_codec.md R83): RES[23:16] = cf, RES[15:8] = m4, RES[7:0] = t4. -/
def execEncFlags (rtr ide idemsk rtrmsk rb0 rplv : Bool) (s : State) : Out :=
  let f : ControlFlags :=
    { remoteFrame := rtr, extendedId := ide, extendedIdMaskEnabled := idemsk, remoteFrameMaskEnabled := rtrmsk,
      reservedBitTag := rb0, autoReplyValid := rplv }
  .next (s.result .encFlags ((encControlFlags f ++ encMaskFlags f ++ encTagFlags f).setWidth 32))

/-- DEC_FLAGS (40_codec.md R84). -/
def execDecFlags (t4 m4 cd : Byte) (s : State) : Out :=
  .next (s.result .decFlags ((flagsF6 (decFlags t4 m4 cd)).setWidth 32))

end Sys2Proof.Machine
end

