-- ==== Sys2Proof/Machine/Configurator.lean ====
section
/-! DEFINITION. CFG_RX, CFG_TX and CFG_AUTO (42_configurator.md R94-R96), one shared body. -/

namespace Sys2Proof.Machine

/-- Whether a kind has a mask: only Receive and AutoReply slots (42_configurator.md R95; 10_state.md R24). -/
def Kind.hasMask : Kind → Bool
  | .transmit => false
  | .receive => true
  | .autoReply => true

/-- The initial CONMOB of a kind: Transmit paused, the others active (42_configurator.md R99). -/
def Kind.initialConmob : Kind → BitVec 2
  | .transmit => 0b00
  | .receive => 0b10
  | .autoReply => 0b10

/-- The interrupt categories a configure operation enables beside ENIT (42_configurator.md R94-R96). -/
def enableCategories (kind : Kind) (s : State) : State :=
  let t := s.writeGField .gie fENIT 1
  match kind with
  | .receive => t.writeGField .gie fENRX 1
  | .transmit => t.writeGField .gie fENTX 1
  | .autoReply => (t.writeGField .gie fENRX 1).writeGField .gie fENTX 1

/-- The mask registers, written for Receive and AutoReply only (42_configurator.md R94, R95). -/
def writeMaskRegs (d : Desc) (k : SlotIx) (s : State) : State :=
  let mask := encId d.mask
  ((s.writeM k .idm1 mask.1).writeM k .idm2 mask.2).writeM k .idm4 (encMaskFlags d.flags)

/-- The body of a configure operation on descriptor `d` = D[h] at slot `k`, in the order of 42_configurator.md R94. -/
def configureBody (kind : Kind) (h : Handle) (d : Desc) (k : SlotIx) (s : State) : State :=
  let n := clamp8 d.dataLength
  let ident := encId d.identifier
  let s1 := s.updateDesc h fun d => { d with dataLength := n }
  let s2 := s1.selectPage k
  let s3 := (s2.writeM k .idt1 ident.1).writeM k .idt2 ident.2
  let s4 := s3.writeM k .idt4 (encTagFlags d.flags)
  let s5 := if Kind.hasMask kind then writeMaskRegs d k s4 else s4
  let cf := encControlFlags d.flags
  let s6 := s5.writeM k .cdmob (encCtrl 0b00 (rplv cf) (ide cf) (n.extractLsb' 0 4))
  let s7 := s6.setIemob k true
  let s8 := enableCategories kind s7
  let s9 := s8.setReg k (some h)
  let s10 := s9.updateDesc h fun d => { d with configured := true }
  s10.writeMField k .cdmob fCONMOB ((Kind.initialConmob kind).setWidth 8)

/-- A configure operation: the check, then the body (42_configurator.md R94-R97). -/
def configure (kind : Kind) (h : Handle) (s : State) : Out :=
  match checkDesc h kind s with
  | .error f => .fault f
  | .ok (d, k) => .next (configureBody kind h d k s)

/-- CFG_RX (42_configurator.md R94). -/
def execCfgRx (h : Handle) (s : State) : Out := configure .receive h s

/-- CFG_TX (42_configurator.md R95). -/
def execCfgTx (h : Handle) (s : State) : Out := configure .transmit h s

/-- CFG_AUTO (42_configurator.md R96). -/
def execCfgAuto (h : Handle) (s : State) : Out := configure .autoReply h s

end Sys2Proof.Machine
end

