-- ==== Sys2Proof/Machine/Recovery.lean ====
section
/-! DEFINITION. The error classifier and bus-off recovery (45_error_recovery.md R119-R121). -/

namespace Sys2Proof.Machine

/-- CLASSIFY (45_error_recovery.md R119). -/
def execClassify (st : Byte) (s : State) : Out := .next (s.result .classify ((classify st).setWidth 32))

/-- `ClassifyAndClear` (45_error_recovery.md R120): every error bit of the register is cleared, the snapshot's are
reported. -/
def classifyAndClear (k : SlotIx) (st : Byte) (s : State) : Out :=
  if classify st = 0 then .next s
  else orFault (s.stClear errMask) fun t => .next (t.emit (.errReport k (classify st)))

/-- `BusOffRecover` (45_error_recovery.md R121). -/
def busOffRecover (s : State) : State :=
  let s1 := s.gitClear 0x40
  let s2 := s1.writeGField .gcon fSWRES 1
  let s3 := s2.writeGField .gcon fENASTB 1
  s3.nodeEnableWait

end Sys2Proof.Machine
end

