-- ==== Sys2Proof/Machine/Transfer.lean ====
section
/-! DEFINITION. The transfer engine: RESUME, PAUSE, IS_PAUSED and STATUS (43_transfer_engine.md R100-R105). -/

namespace Sys2Proof.Machine

/-- Arm a slot: a software write of CONMOB (10_state.md R30 (a)). -/
def setConmob (k : SlotIx) (c : BitVec 2) (s : State) : State := s.writeMField k .cdmob fCONMOB (c.setWidth 8)

/-- The sending part of RESUME for a non-zero length: DLC, the data from index 0, then the arming (43_transfer_engine.md
R100). -/
def loadAndArm (k : SlotIx) (buf : Bytes8) (n : Byte) (s : State) : Out :=
  let t := (s.selectPage k).writeMField k .cdmob fDLC n
  orFault (t.msgWriteMany (buf.toList.take n.toNat)) fun u => .next (setConmob k 0b01 u)

/-- RESUME of a Transmit descriptor with the answer of `on_transmit` (43_transfer_engine.md R100, R101). -/
def resumeTransmit (h : Handle) (k : SlotIx) (buf : Bytes8) (len : Byte) (s : State) : Out :=
  let t := (s.updateDesc h fun d => { d with buffer := buf, dataLength := clamp8 len }).emit (.txFill h len)
  if len = 0 then .next t else loadAndArm k buf (clamp8 len) t

/-- RESUME of a Receive or AutoReply descriptor (43_transfer_engine.md R100). -/
def resumeReceive (k : SlotIx) (s : State) : State := setConmob k 0b10 (s.selectPage k)

/-- RESUME (43_transfer_engine.md R100). A callback that misbehaves is refused (60_exceptions.md R140; entry 15). -/
def execResume (h : Handle) (s : State) : Out :=
  match checkSlot h s with
  | .error f => .fault f
  | .ok (d, k) =>
    match d.kind with
    | .transmit => match s.env.draws.fill with
      | .answer buf len => resumeTransmit h k buf len s
      | .misbehave => .refused .callbackReentry
    | .receive => .next (resumeReceive k s)
    | .autoReply => .next (resumeReceive k s)

/-- `PauseBody` (43_transfer_engine.md R105): a no-op for Receive and AutoReply. -/
def pauseBody (kind : Kind) (k : SlotIx) (s : State) : State :=
  match kind with
  | .transmit => setConmob k 0b00 (s.selectPage k)
  | .receive => s
  | .autoReply => s

/-- PAUSE (43_transfer_engine.md R102). -/
def execPause (h : Handle) (s : State) : Out :=
  match checkSlot h s with
  | .error f => .fault f
  | .ok (d, k) => .next (pauseBody d.kind k s)

/-- IS_PAUSED (43_transfer_engine.md R103). -/
def execIsPaused (h : Handle) (s : State) : Out :=
  match checkSlot h s with
  | .error f => .fault f
  | .ok (_, k) =>
    let t := s.selectPage k
    .next (t.result .isPaused (if conmob (t.readM k .cdmob) = 0b00 then 1 else 0))

/-- STATUS (43_transfer_engine.md R104): raw, unmasked, not cleared. -/
def execStatus (h : Handle) (s : State) : Out :=
  match checkSlot h s with
  | .error f => .fault f
  | .ok (_, k) =>
    let t := s.selectPage k
    .next (t.result .status ((t.readM k .stmob).setWidth 32))

end Sys2Proof.Machine
end

