-- ==== Sys2Proof/Machine/Dispatcher.lean ====
section
/-! DEFINITION. The interrupt dispatcher: its micro-steps and whole invocations (44_dispatcher.md R107-R115). -/

namespace Sys2Proof.Machine

/-- `next(s)` of the phase table: the next slot, or the exit after slot 5 (44_dispatcher.md R108). -/
def nextPhase (k : SlotIx) : Phase := if h : k.val + 1 < 6 then .slot ⟨k.val + 1, h⟩ else .exit

/-- The `Entry` micro-step: bus-off check and recovery (44_dispatcher.md R109). -/
def dispBusOff (s : State) : State :=
  let t := if boffit (s.readG .git) then
      let u := busOffRecover (s.gitClear 0x40)
      let v := u.setBoc (bocNext u.env.params.bocWidth u.boc)
      v.emit (.busOff v.boc)
    else s
  t.setDisp (.slot 0)

/-- The `Slot(k)` micro-step: registry check, page select, status snapshot (44_dispatcher.md R110). -/
def dispSlot (k : SlotIx) (s : State) : State :=
  match s.reg[k] with
  | none => s.setDisp (nextPhase k)
  | some _ =>
    let t := s.selectPage k
    t.setDisp (.act k (t.readM k .stmob))

/-- The registered handle of slot `k` and its descriptor; a slot without them has no meaning (entry 12). -/
def registered (k : SlotIx) (s : State) : Except Fault (Handle × Desc) :=
  match s.reg[k] with
  | none => .error .lostDescriptor
  | some h => match descAt s.d h with
    | none => .error .lostDescriptor
    | some d => .ok (h, d)

/-- `on_receive` is invoked with the first `n` bytes: a record, and a refusal where the callback misbehaves
(44_dispatcher.md R112, 60_exceptions.md R140; entry 15). -/
def deliver (h : Handle) (bytes : List Byte) (n : Byte) (s : State) : Out :=
  match s.env.draws.deliver with
  | .accept => .next (s.emit (.rxDeliver h bytes n))
  | .misbehave => .refused .callbackReentry

/-- After a reception a Transmit slot is paused and the others are re-armed (44_dispatcher.md R112). -/
def afterReception (kind : Kind) (k : SlotIx) (s : State) : State :=
  match kind with
  | .transmit => pauseBody .transmit k s
  | .receive => setConmob k 0b10 s
  | .autoReply => setConmob k 0b10 s

/-- `Act(k, st)` with a reception (44_dispatcher.md R112). -/
def actReception (k : SlotIx) (s : State) : Out :=
  orFault (registered k s) fun p =>
    let n := clamp8 p.2.dataLength
    orFault ((s.writeGField .page fINDX 0).msgReadMany n.toNat) fun q =>
      let t := q.2.updateDesc p.1 fun d => { d with buffer := overlay q.1 d.buffer }
      chain (deliver p.1 q.1 n t) fun u =>
        orFault (u.stClear 0x20) fun v => .next ((afterReception p.2.kind k v).setDisp (nextPhase k))

/-- `Act(k, st)` with a transmission (44_dispatcher.md R113). -/
def actTransmission (k : SlotIx) (s : State) : Out :=
  orFault (registered k s) fun p =>
    orFault (s.stClear 0x40) fun t => .next ((pauseBody p.2.kind k t).setDisp (nextPhase k))

/-- The `Act(k, st)` micro-step: errors, else a reception, else a transmission, else nothing (44_dispatcher.md
R111-R114). -/
def dispAct (k : SlotIx) (st : Byte) (s : State) : Out :=
  if st &&& errMask != 0 then
    chain (classifyAndClear k st s) fun t => .next (t.setDisp (nextPhase k))
  else if rxok st then actReception k s
  else if txok st then actTransmission k s
  else .next (s.setDisp (nextPhase k))

/-- One dispatcher micro-step (44_dispatcher.md R108). Where the entry guard is false there is no step (entry 7). -/
def microStep (s : State) : Out :=
  match s.disp with
  | .idle => .next (if entryGuard s then s.dispEnter else s)
  | .entry => .next (dispBusOff s)
  | .slot k => .next (dispSlot k s)
  | .act k st => dispAct k st s
  | .exit => .next s.dispExit

/-- Micro-steps until the dispatcher is idle again, at most `n` of them. -/
def microSteps : Nat → State → Out
  | 0, s => .next s
  | n + 1, s => if s.disp = .idle then .next s else chain (microStep s) (microSteps n)

/-- DISPATCH: one whole invocation, from `DispEnter` to the `Exit` step, where the entry guard holds (44_dispatcher.md R107,
R108). After `DispEnter` the table has at most 14 micro-steps: `Entry`, six `Slot`, six `Act` and `Exit` (R117 lists these and
counts them with `DispEnter` as 14; entry 9). Where the guard is false there is no step (entry 7). -/
def execDispatch (s : State) : Out := if entryGuard s then microSteps 14 s.dispEnter else .next s

end Sys2Proof.Machine
end

