-- ==== Sys2Proof/Machine/Events.lean ====
section
/-! DEFINITION. The controller and bus events (46_bus_events.md R126-R131): hardware steps with a guard. An event whose
guard is false is no step: it leaves the state as it is (00_scope.md R9; entry 7). -/

namespace Sys2Proof.Machine

/-- Bytes 0..n-1 of a slot's message buffer written by the hardware (46_bus_events.md R127). -/
def hwFill (k : SlotIx) (b : Bytes8) : Nat → Memory → Memory
  | 0, m => m
  | n + 1, m => memWrite (hwFill k b n m) (dataAddr k (BitVec.ofNat 3 n)) (b.toList.getD n 0)

/-- The acceptance filter of EV_RX (46_bus_events.md R127). -/
def acceptance (x : Mob) (rid : Ident) (rtr : Bool) : Bool :=
  ((rid ^^^ decId x.idt1 x.idt2) &&& decId x.idm1 x.idm2) = 0 && (!rtrmsk x.idm4 || rtr == rtrtag x.idt4)

/-- The guard of EV_RX on slot `k` (46_bus_events.md R127). -/
def rxEnabled (k : SlotIx) (s : State) : Bool :=
  nodeOn s && s.enmob[k] && acceptance s.m[k] s.env.draws.rx.rid s.env.draws.rx.rtr

/-- The effect of EV_RX on slot `k` (46_bus_events.md R127). -/
def rxEffect (k : SlotIx) (s : State) : State :=
  let p := s.env.draws.rx
  let ident := encId p.rid
  let n := if p.dlc ≤ 8 then p.dlc.toNat else 8
  let s1 := s.setData (hwFill k p.bytes n s.data)
  let s2 := s1.hwM k .stmob (fieldInsert fDLCW s1.m[k].stmob (if p.dlc = dlc s1.m[k].cdmob then 0 else 1))
  let s3 := s2.hwM k .cdmob (fieldInsert fDLC s2.m[k].cdmob (p.dlc.setWidth 8))
  let s4 := (s3.hwM k .idt1 ident.1).hwM k .idt2 ident.2
  let s5 := s4.hwM k .idt4 (fieldInsert fRTRTAG s4.m[k].idt4 (if p.rtr then 1 else 0))
  let s6 := s5.hwM k .stmob (fieldInsert fRXOK s5.m[k].stmob 1)
  s6.setEnmob k false

/-- The guard of EV_TX_DONE on slot `k` (46_bus_events.md R128). -/
def txEnabled (k : SlotIx) (s : State) : Bool :=
  nodeOn s && s.enmob[k]
    && (conmob s.m[k].cdmob == 0b01 || (conmob s.m[k].cdmob == 0b10 && rplv s.m[k].cdmob))

/-- The effect of EV_TX_DONE on slot `k` (46_bus_events.md R128). -/
def txEffect (k : SlotIx) (s : State) : State :=
  (s.hwM k .stmob (fieldInsert fTXOK s.m[k].stmob 1)).setEnmob k false

/-- The guard of EV_MOB_ERR on slot `k`, with its payload a non-empty subset of bits 4:0 (46_bus_events.md R129). -/
def errEnabled (k : SlotIx) (s : State) : Bool :=
  nodeOn s && s.enmob[k] && s.env.draws.errBits != 0 && s.env.draws.errBits &&& ~~~irqErr == 0

/-- The effect of EV_MOB_ERR on slot `k` (46_bus_events.md R129). -/
def errEffect (k : SlotIx) (s : State) : State :=
  let t := s.hwM k .stmob (s.m[k].stmob ||| s.env.draws.errBits)
  if ttc t.g.gcon && conmob t.m[k].cdmob == 0b01 then t.setEnmob k false else t

/-- The effect of EV_BUS_OFF (46_bus_events.md R130). -/
def busOffEffect (s : State) : State :=
  let t := s.hwG .git (fieldInsert fBOFFIT s.g.git 1)
  t.hwG .gsta (fieldInsert fBOFF t.g.gsta 1)

/-- The guard of EV_NODE_EN (46_bus_events.md R131). -/
def nodeEnEnabled (s : State) : Bool := enastb s.g.gcon && !enfg s.g.gsta

/-- The effect of EV_NODE_EN (46_bus_events.md R131). -/
def nodeEnEffect (s : State) : State := s.hwG .gsta (fieldInsert fENFG s.g.gsta 1)

/-- An event on a slot: no step for 6 and 7, which name no slot, nor where the guard is false. -/
def slotEvent (v : BitVec 3) (guard : SlotIx → State → Bool) (effect : SlotIx → State → State) (s : State) : Out :=
  match slotOf (v.setWidth 8) with
  | none => .next s
  | some k => .next (if guard k s then effect k s else s)

/-- EV_RX (46_bus_events.md R127). -/
def execEvRx (v : BitVec 3) (s : State) : Out := slotEvent v rxEnabled rxEffect s

/-- EV_TX_DONE (46_bus_events.md R128). -/
def execEvTxDone (v : BitVec 3) (s : State) : Out := slotEvent v txEnabled txEffect s

/-- EV_MOB_ERR (46_bus_events.md R129). -/
def execEvMobErr (v : BitVec 3) (s : State) : Out := slotEvent v errEnabled errEffect s

/-- EV_BUS_OFF (46_bus_events.md R130). -/
def execEvBusOff (s : State) : Out := .next (if nodeOn s then busOffEffect s else s)

/-- EV_NODE_EN (46_bus_events.md R131). -/
def execEvNodeEn (s : State) : Out := .next (if nodeEnEnabled s then nodeEnEffect s else s)

end Sys2Proof.Machine
end

