-- ==== Sys2Proof/Machine/Init.lean ====
section
/-! DEFINITION. INIT_CAN, SEI and CLI (41_controller_init.md R89-R93). -/

namespace Sys2Proof.Machine

/-- One round of INIT_CAN's loop: the slot's control and status cleared (41_controller_init.md R89). -/
def initSlot (s : State) (k : SlotIx) : State := ((s.selectPage k).writeM k .cdmob 0x00).writeM k .stmob 0x00

/-- The body of INIT_CAN with the preset's timing triple, in the order of 41_controller_init.md R89. -/
def initBody (t : Timing) (s : State) : State :=
  let s1 := s.writeGField .gcon fSWRES 1
  let s2 := ((s1.writeG .bt1 t.bt1).writeG .bt2 t.bt2).writeG .bt3 t.bt3
  let s3 := s2.writeG .gie 0xF8
  let s4 := slots.foldl initSlot s3
  let s5 := slots.foldl (fun u k => u.setReg k none) s4
  let s6 := s5.writeGField .gcon fTTC 1
  let s7 := s6.writeGField .gcon fENASTB 1
  let s8 := s7.nodeEnableWait
  (s8.setInit true).setGie true

/-- INIT_CAN (41_controller_init.md R89). A preset code of 5-7 is no operation (30_encoding.md R63 (c)), which the
decoder refuses already (entry 20). -/
def execInitCan (p : BitVec 3) (s : State) : Out :=
  if h : p.toNat < 5 then .next (initBody (s.env.params.btTable[p.toNat]) s) else .refused .illegalWord

/-- SEI (41_controller_init.md R92). -/
def execSei (s : State) : Out := .next (s.setGie true)

/-- CLI (41_controller_init.md R93). -/
def execCli (s : State) : Out := .next (s.setGie false)

end Sys2Proof.Machine
end

