-- ==== Sys2Proof/Machine/Dispatch.lean ====
section
/-! DEFINITION. One arm per constructor of Instr, each a call of its meaning. -/

namespace Sys2Proof.Machine

/-- The meaning of an instruction; its draws are those of `env.draws`. -/
def exec (i : Instr) (s : State) : Host.Outcome State Fault Refusal :=
  match i with
  | .initCan p => Sys2Proof.Machine.execInitCan p s
  | .cfgRx h => Sys2Proof.Machine.execCfgRx h s
  | .cfgTx h => Sys2Proof.Machine.execCfgTx h s
  | .cfgAuto h => Sys2Proof.Machine.execCfgAuto h s
  | .resume h => Sys2Proof.Machine.execResume h s
  | .pause h => Sys2Proof.Machine.execPause h s
  | .isPaused h => Sys2Proof.Machine.execIsPaused h s
  | .status h => Sys2Proof.Machine.execStatus h s
  | .encId v => Sys2Proof.Machine.execEncId v s
  | .decId hi lo => Sys2Proof.Machine.execDecId hi lo s
  | .encMask v => Sys2Proof.Machine.execEncMask v s
  | .decMask hi lo => Sys2Proof.Machine.execDecMask hi lo s
  | .encFlags rtr ide idemsk rtrmsk rb0 rplv => Sys2Proof.Machine.execEncFlags rtr ide idemsk rtrmsk rb0 rplv s
  | .decFlags t4 m4 cd => Sys2Proof.Machine.execDecFlags t4 m4 cd s
  | .classify st => Sys2Proof.Machine.execClassify st s
  | .sei => Sys2Proof.Machine.execSei s
  | .cli => Sys2Proof.Machine.execCli s
  | .evRx v => Sys2Proof.Machine.execEvRx v s
  | .evTxDone v => Sys2Proof.Machine.execEvTxDone v s
  | .evMobErr v => Sys2Proof.Machine.execEvMobErr v s
  | .evBusOff => Sys2Proof.Machine.execEvBusOff s
  | .evNodeEn => Sys2Proof.Machine.execEvNodeEn s
  | .dispatch => Sys2Proof.Machine.execDispatch s

end Sys2Proof.Machine
end

