-- ==== Sys2Proof/Machine/Turn.lean ====
section
/-! DEFINITION. One turn of each agent (00_scope.md R5, 20_memory.md R54): the foreground's operation, the application's
write, the dispatcher's micro-step, and what an event word names. -/

namespace Sys2Proof.Machine

/-- A completed operation moves the foreground to the next word (10_state.md R14). -/
def State.completeOp (s : State) : State := s.setFgi (s.fgi + 1)

/-- The foreground's operation of word `w`: decoded (30_encoding.md R62), executed, completed. -/
def runWord (w : Word) (s : State) : Out :=
  match decodeForeground w with
  | .error _ => .refused .illegalWord
  | .ok i => chain (exec i s) fun t => .next t.completeOp

/-- The foreground's turn: no step while the dispatcher runs (20_memory.md R54 (a)), nor at the end of the list
(10_state.md R14). -/
def foregroundTurn (before s : State) : Out :=
  if s.disp = .idle then
    match s.fetch with
    | none => .next s
    | some w => recordStop before .fg (some w) (runWord w s)
  else .next s

/-- A descriptor with one field written by the application (10_state.md R36). -/
def applyField (f : DescField) (d : Desc) : Desc :=
  match f with
  | .slotId v => { d with slotId := v }
  | .kind v => { d with kind := v }
  | .dataLength v => { d with dataLength := v }
  | .identifier v => { d with identifier := v }
  | .mask v => { d with mask := v }
  | .remoteFrame v => { d with flags := { d.flags with remoteFrame := v } }
  | .extendedId v => { d with flags := { d.flags with extendedId := v } }
  | .extendedIdMaskEnabled v => { d with flags := { d.flags with extendedIdMaskEnabled := v } }
  | .remoteFrameMaskEnabled v => { d with flags := { d.flags with remoteFrameMaskEnabled := v } }
  | .reservedBitTag v => { d with flags := { d.flags with reservedBitTag := v } }
  | .autoReplyValid v => { d with flags := { d.flags with autoReplyValid := v } }
  | .buffer v => { d with buffer := v }

/-- The fields of a configured descriptor that may not be written (10_state.md R36). -/
def immutableField : DescField → Bool
  | .slotId _ => true
  | .kind _ => true
  | .dataLength _ | .identifier _ | .mask _ | .remoteFrame _ | .extendedId _ | .extendedIdMaskEnabled _ => false
  | .remoteFrameMaskEnabled _ | .reservedBitTag _ | .autoReplyValid _ | .buffer _ => false

/-- `DescWrite` (10_state.md R36). A handle that names no descriptor is no step (entry 16). -/
def descWrite (h : Handle) (f : DescField) (s : State) : Out :=
  match descAt s.d h with
  | none => .next s
  | some d =>
    if immutableField f && d.configured then .refused .descImmutable
    else .next (s.updateDesc h (applyField f))

/-- The application's turn, a foreground step (20_memory.md R58). -/
def descWriteTurn (h : Handle) (f : DescField) (before s : State) : Out :=
  if s.disp = .idle then recordStop before .fg none (descWrite h f s) else .next s

/-- The word a stop in a dispatcher step records: DISPATCH's (30_encoding.md R64; entry 21). -/
def dispatchWord : Word := 0x90000000

/-- The dispatcher's turn: one micro-step. -/
def dispatcherTurn (before s : State) : Out := recordStop before .disp (some dispatchWord) (microStep s)

/-- The agent of an event word: DISPATCH is the dispatcher's, the events are the hardware's (00_scope.md R5). -/
def labelAgent (i : Instr) : Agent := if i = .dispatch then .disp else .hw

/-- The turn of an event word (30_encoding.md R64). A word that names no event is no step (entry 10). -/
def labelTurn (w : Word) (before s : State) : Out :=
  match decodeEvent w with
  | .error _ => .next s
  | .ok i => recordStop before (labelAgent i) (some w) (exec i s)

/-- One turn from an unmarked state: `before` is the state before the step, `before.begin` the one the turn acts on. -/
def runTurn (before : State) : Out :=
  match before.turn.move with
  | .foreground => foregroundTurn before before.begin
  | .descWrite h f => descWriteTurn h f before before.begin
  | .dispatcher => dispatcherTurn before before.begin
  | .label w => labelTurn w before before.begin

/-- A word made the next to run: an event word as the next turn's label, any other as the foreground's next operation
with the next turn its own; the turn's draws are free (entry 4). -/
def loadWord (w : Word) (s : State) : State :=
  if isEventCode (opOf w) then
    s.setEnv { s.env with agenda := { move := .label w, draws := none } :: s.env.agenda }
  else
    s.setEnv { s.env with
      ops := placeAt s.env.ops s.fgi w
      agenda := { move := .foreground, draws := none } :: s.env.agenda }

end Sys2Proof.Machine
end

