-- ==== Sys2Proof/Machine/Step.lean ====
section
/-! DEFINITION. The step of the machine, and the placing of an instruction where the next step runs it. -/

namespace Sys2Proof.Machine

/-- One step: a marked state is quiescent (00_scope.md R9), any other takes its next turn. -/
def step (s : State) : Host.Outcome State Fault Refusal :=
  match s.mark with
  | some m => m.outcome
  | none => runTurn s

/-- The state whose next step runs the instruction with the table's bits `w` (entry 4). -/
def State.withFetchWord (s : State) (nbits w : Nat) : State := loadWord (tableWord nbits w) s

end Sys2Proof.Machine
end

