-- ==== Sys2Proof/Safety.lean ====
section
/-! DEFINITION. The terms claims are stated in: the launch premises (70_reset_and_hazards.md R155), the states of a slot
(43_transfer_engine.md R106), the end of a run (R163), fair runs (60_exceptions.md R136), and the consistency of a state,
which every step keeps. -/

namespace Sys2Proof.Safety

open Sys2Proof.Machine

/-! ### Launch premises (70_reset_and_hazards.md R155) -/

/-- `NoFault`: no fault or refusal is recorded. -/
def noFault (s : State) : Bool := s.mark.isNone

/-- A launch whose memory and descriptor store are in canonical form (entries 14, 23). -/
def launchOk (l : Launch) : Bool := Memory.wf l.data && descWf l.d

/-- `CleanLaunch`: the values of R150, with the per-slot registers and DATA left free. -/
def CleanLaunch (s : State) : Prop := ∃ l : Launch, launchOk l = true ∧ s = State.launch l

/-- `DescValid`. -/
def descValid (d : Desc) : Bool := d.slotId ≤ 5 && d.dataLength ≤ 8 && (d.kind != .transmit || d.dataLength == 0)

/-- The handle a word configures, if it is a configure operation. -/
def configures (w : Word) : Option Handle :=
  match decodeForeground w with
  | .ok (.cfgRx h) => some h
  | .ok (.cfgTx h) => some h
  | .ok (.cfgAuto h) => some h
  | _ => none

/-- `DescUnique`: no two descriptors that the program configures have the same `slot_id`. -/
def descUnique (s : State) : Bool :=
  let hs := (s.env.ops.filterMap configures).eraseDups
  (hs.filterMap fun h => (descAt s.d h).map (·.slotId)).Nodup

/-- `Inited`. -/
def inited (s : State) : Bool := s.init

/-- `NothingInFlight`. -/
def nothingInFlight (s : State) : Bool := s.disp == .idle

/-! ### Bytes in arithmetic form, as the rules' layouts give them -/

/-- `min(x, 8)` (40_codec.md R88). -/
def minEight (x : Byte) : Nat := min x.toNat 8

/-- The high-order wire byte of an identifier or mask: its bits 10:3 (10_state.md R22). -/
def wireHigh (v : Ident) : Byte := BitVec.ofNat 8 (v.toNat / 8)

/-- The low-order wire byte: bits 2:0 in bits 7:5, bits 4:0 zero (10_state.md R22). -/
def wireLow (v : Ident) : Byte := BitVec.ofNat 8 (v.toNat % 8 * 32)

/-- IDT4 of the control flags: RTRTAG bit 2, RB0TAG bit 0 (10_state.md R23). -/
def tagByte (f : ControlFlags) : Byte := BitVec.ofNat 8 (4 * f.remoteFrame.toNat + f.reservedBitTag.toNat)

/-- IDM4 of the control flags: RTRMSK bit 2, IDEMSK bit 0 (10_state.md R25). -/
def maskFlagByte (f : ControlFlags) : Byte :=
  BitVec.ofNat 8 (4 * f.remoteFrameMaskEnabled.toNat + f.extendedIdMaskEnabled.toNat)

/-- CDMOB: CONMOB bits 7:6, RPLV bit 5, IDE bit 4, DLC bits 3:0 (10_state.md R26). -/
def controlByte (con : Nat) (rplv ide : Bool) (dlc : Nat) : Byte :=
  BitVec.ofNat 8 (64 * con + 32 * rplv.toNat + 16 * ide.toNat + dlc)

/-- PAGE with MOBNB = k, AINC = 0 and an index (10_state.md R20). -/
def pageByte (k : SlotIx) (i : Nat) : Byte := BitVec.ofNat 8 (16 * k.val + i % 8)

/-- The operand `h` is accepted at slot `k`: initialised, a descriptor `d` of D, a slot number of 0-5 (60_exceptions.md
R141). -/
def Accepted (s : State) (h : Handle) (d : Desc) (k : SlotIx) : Prop :=
  s.init = true ∧ descAt s.d h = some d ∧ slotOf d.slotId = some k

/-- The checks of an operation of form H, in their order (60_exceptions.md R141 (2)-(4)): not initialised, a handle of no
descriptor, a slot number above 5. -/
def ChecksInOrder (i : Instr) (h : Handle) (s : State) : Prop :=
  (s.init = false → exec i s = .fault .notInit)
  ∧ (s.init = true → descAt s.d h = none → exec i s = .fault .badHandle)
  ∧ ∀ d, s.init = true → descAt s.d h = some d → 6 ≤ d.slotId.toNat → exec i s = .fault .badSlot

/-! ### The states of a slot (43_transfer_engine.md R106) -/

/-- `Paused(k)`. -/
def paused (s : State) (k : SlotIx) : Bool := conmob s.m[k].cdmob == 0b00

/-- `ActiveTx(k)`. -/
def activeTx (s : State) (k : SlotIx) : Bool := conmob s.m[k].cdmob == 0b01

/-- `ActiveRx(k)`. -/
def activeRx (s : State) (k : SlotIx) : Bool := conmob s.m[k].cdmob == 0b10

/-- `Uninitialized`: the registry has no entry. -/
def uninitialized (s : State) (k : SlotIx) : Bool := s.reg[k].isNone

/-! ### Runs -/

/-- A successful end of run (70_reset_and_hazards.md R163). -/
def ended (s : State) : Bool :=
  s.fgi == s.env.ops.length && s.disp == .idle && !(s.gie && irqCond s) && s.mark.isNone

/-- An infinite run of the machine. -/
def IsRun (r : Nat → State) : Prop := ∀ n, step (r n) = .next (r (n + 1))

/-- The dispatcher takes this step: a micro-step, or a whole invocation where the guard holds. -/
def dispatcherSteps (s : State) : Bool :=
  s.turn.move == .dispatcher || (s.turn.move == .label dispatchWord && entryGuard s)

/-- Weak fairness of the dispatcher, at its entry and in its micro-steps (60_exceptions.md R136; entry 19). -/
def WeaklyFair (r : Nat → State) : Prop :=
  ∀ n, ∃ j, n ≤ j ∧ ((dispatcherSteps (r j)) = true ∨ ((r j).disp = .idle ∧ entryGuard (r j) = false))

/-- A hang: a weakly fair run that never ends successfully (70_reset_and_hazards.md R163). -/
def Hang (r : Nat → State) : Prop := IsRun r ∧ WeaklyFair r ∧ ∀ n, ended (r n) = false

/-! ### Consistency of a state -/

/-- The message buffers and the descriptor store are in canonical form. -/
def memoryOk (s : State) : Bool := Memory.wf s.data && descWf s.d

/-- Entry `k` of the registry leads to a configured descriptor of slot `k` (92_eei_decisions.md D28). -/
def registryEntryOk (s : State) (k : SlotIx) : Bool :=
  match s.reg[k] with
  | none => true
  | some h => match descAt s.d h with
    | none => false
    | some d => d.configured && slotOf d.slotId == some k

/-- Every entry of the registry is sound, and before INIT_CAN there is none. -/
def registryOk (s : State) : Bool := slots.all (registryEntryOk s) && (s.init || slots.all fun k => s.reg[k].isNone)

/-- The dispatcher's state fits: interrupts are masked while it runs, and in `Act` its slot is selected and registered
(44_dispatcher.md R107, R110). -/
def dispatcherOk (s : State) : Bool :=
  match s.disp with
  | .idle => true
  | .entry => !s.gie
  | .slot _ => !s.gie
  | .act k _ => !s.gie && s.selected == some k && s.reg[k].isSome
  | .exit => !s.gie

/-- The page selects a slot, and its index advances (10_state.md R20: the core writes only 0-5 and AINC = 0). -/
def pageOk (s : State) : Bool := s.selected.isSome && !ainc s.g.page

/-- The node flags fit: `ENFG` only while `ENASTB` (46_bus_events.md R131), `BOFFIT` exactly while `BOFF` (R130). -/
def nodeOk (s : State) : Bool := (!enfg s.g.gsta || enastb s.g.gcon) && boffit s.g.git == boff s.g.gsta

/-- An engaged slot is armed (10_state.md R30). -/
def engagedOk (s : State) : Bool := slots.all fun k => !s.enmob[k] || conmob s.m[k].cdmob != 0b00

/-- The number of `BusOff` records. -/
def busOffCount (obs : List Obs) : Nat := obs.countP fun o => match o with | .busOff _ => true | _ => false

/-- The bus-off counter is the number of `BusOff` records, modulo 2^BOC_WIDTH where a width is given (70_reset_and_hazards.md
R160). -/
def bocOk (s : State) : Bool :=
  match s.env.params.bocWidth with
  | none => s.boc == busOffCount s.obs
  | some w => s.boc == busOffCount s.obs % 2 ^ w

end Sys2Proof.Safety
end

