-- ==== Sys2Proof/Certificates/Slice0/Obligations.lean ====
section
/-! DEFINITION. The statements for the provers, from the numbered rules of spec/. -/

open Sys2Proof Sys2Proof.Machine Sys2Proof.Safety

/-! ### Encoding -/

/-- 30_encoding.md R60-R64: decoding the word of a well-formed instruction gives it back, every operand at every value. -/
def Obligations.DecodeOfEncodeIsIdentity : Prop :=
  ∀ i : Instr, WellFormed i = true → decodeWord (encode i) = .ok i

/-- 30_encoding.md R62-R64: a word decodes only to a well-formed instruction, and it is that instruction's word, so no
two words spell one instruction and no bit is dropped. -/
def Obligations.EncodeOfDecodeIsIdentity : Prop :=
  ∀ (w : Word) (i : Instr), decodeWord w = .ok i → WellFormed i = true ∧ encode i = w

/-- 30_encoding.md R63: the foreground decoder accepts exactly the words whose code is in the table, whose reserved
bits are 0, and whose preset code is 0-4; the operation of any other word is refused with `R_ILLEGAL_WORD`. -/
def Obligations.ForegroundDecoderAcceptsExactlyTheTable : Prop :=
  ∀ w : Word,
    let op := w.extractLsb' 24 8
    let legal : Prop := ∃ f, formOf op = some f ∧ w.extractLsb' 0 24 &&& f.reserved = 0
      ∧ (op = 0x01 → (w.extractLsb' 0 3).toNat ≤ 4)
    ((∃ i, decodeForeground w = .ok i) ↔ legal)
      ∧ (¬ legal → ∀ s : State, runWord w s = .refused .illegalWord)
      ∧ ((formOf op).isSome = true ↔ (1 ≤ op.toNat ∧ op.toNat ≤ 8) ∨ (0x10 ≤ op.toNat ∧ op.toNat ≤ 0x16)
          ∨ op = 0x20 ∨ op = 0x21)

/-- 30_encoding.md R63 (a): the foreground decoder refuses the word of every event and of DISPATCH, and what it accepts is
a foreground operation. -/
def Obligations.EventWordsAreNotForegroundWords : Prop :=
  (∀ i : Instr, i.isForeground = false → decodeForeground (encode i) = .error .eventCode)
    ∧ ∀ (w : Word) (i : Instr), decodeForeground w = .ok i → i.isForeground = true

/-- 30_encoding.md R60, R61, R64: words written out from the tables decode to what they stand for. -/
def Obligations.WrittenOutWordsDecode : Prop :=
  decodeTableWord 32 0x01000004 = some (.initCan 4) ∧ decodeTableWord 32 0x0200FFFF = some (.cfgRx 0xFFFF)
    ∧ decodeTableWord 32 0x05000007 = some (.resume 7) ∧ decodeTableWord 32 0x100007FF = some (.encId 0x7FF)
    ∧ decodeTableWord 32 0x1100247F = some (.decId 0x24 0x7F)
    ∧ decodeTableWord 32 0x14000019 = some (.encFlags true false false true true false)
    ∧ decodeTableWord 32 0x15A80405 = some (.decFlags 0x05 0x04 0xA8)
    ∧ decodeTableWord 32 0x16000050 = some (.classify 0x50) ∧ decodeTableWord 32 0x21000000 = some .cli
    ∧ decodeTableWord 32 0x80000002 = some (.evRx 2) ∧ decodeTableWord 32 0x90000000 = some .dispatch

/-! ### The step -/

/-- The foreground's turn runs the decoded instruction: its draws in place, `exec` of it, and the index one further
(10_state.md R14); a word the decoder refuses is the refusal `R_ILLEGAL_WORD` (30_encoding.md R63); a fault or a refusal is
recorded on the state before the step, which is the model's way to hold the record (entry 8). -/
def Obligations.StepRunsForegroundWord : Prop :=
  ∀ (s : State) (w : Word), s.mark = none → s.turn.move = .foreground → s.disp = .idle → s.env.ops[s.fgi]? = some w →
    (∀ i, decodeForeground w = .ok i → step s = match exec i s.begin with
      | .next t => .next { t with fgi := t.fgi + 1 }
      | .fault f => .next { s with mark := some { stop := .fault f, agent := .fg, fgi := s.fgi, word := some w } }
      | .refused r => .next { s with mark := some { stop := .refusal r, agent := .fg, fgi := s.fgi, word := some w } })
    ∧ ∀ e, decodeForeground w = .error e → step s = .next { s with
        mark := some { stop := .refusal .illegalWord, agent := .fg, fgi := s.fgi, word := some w } }

/-- The turn of an event word runs what it names (30_encoding.md R64), with nothing added around `exec` but the draws; a
fault or a refusal is recorded on the state before the step (entry 8). -/
def Obligations.StepRunsEventWord : Prop :=
  ∀ (s : State) (w : Word) (i : Instr), s.mark = none → s.turn.move = .label w → decodeEvent w = .ok i →
    let agent : Agent := if i = .dispatch then .disp else .hw
    step s = match exec i s.begin with
      | .next t => .next t
      | .fault f => .next { s with mark := some { stop := .fault f, agent := agent, fgi := s.fgi, word := some w } }
      | .refused r => .next { s with mark := some { stop := .refusal r, agent := agent, fgi := s.fgi, word := some w } }

/-- The dispatcher's turn is one micro-step (44_dispatcher.md R108), with nothing added around it but the draws; a fault or
a refusal is recorded on the state before the step (entries 8, 21). -/
def Obligations.StepRunsDispatcherMicroStep : Prop :=
  ∀ s : State, s.mark = none → s.turn.move = .dispatcher →
    step s = match microStep s.begin with
      | .next t => .next t
      | .fault f => .next { s with
          mark := some { stop := .fault f, agent := .disp, fgi := s.fgi, word := some 0x90000000 } }
      | .refused r => .next { s with
          mark := some { stop := .refusal r, agent := .disp, fgi := s.fgi, word := some 0x90000000 } }

/-- 00_scope.md R9: a fault or a refusal is recorded for good and no agent steps from it. -/
def Obligations.MarkedStateIsQuiescent : Prop :=
  ∀ (s : State) (m : Mark), s.mark = some m →
    (∀ t, step s ≠ .next t) ∧ (∀ f, m.stop = .fault f → step s = .fault f)
      ∧ ∀ r, m.stop = .refusal r → step s = .refused r

/-- 10_state.md R36, field by field: `slot_id` and `kind` of a configured descriptor may not be written, the write is
refused; every other write stores its field of that descriptor and nothing else, neither its bookkeeping nor another
descriptor. That the step records the refusal as a mark on the state before it, with no word, is the model's form (entries 8
and 21), and so is the turn used up (entries 5 to 7). -/
def Obligations.DescWriteFollowsTheContract : Prop :=
  (∀ (s : State) (h : Handle) (f : DescField) (d : Desc), s.mark = none → s.turn.move = .descWrite h f →
    s.disp = .idle → descAt s.d h = some d →
    let refusal : Out := .next { s with
      mark := some { stop := .refusal .descImmutable, agent := .fg, fgi := s.fgi, word := none } }
    let stored (g : Desc → Desc) : Out := .next { s.begin with d := descUpdate s.d h g }
    step s = match f with
      | .slotId v => if d.configured = true then refusal else stored fun x => { x with slotId := v }
      | .kind v => if d.configured = true then refusal else stored fun x => { x with kind := v }
      | .dataLength v => stored fun x => { x with dataLength := v }
      | .identifier v => stored fun x => { x with identifier := v }
      | .mask v => stored fun x => { x with mask := v }
      | .remoteFrame v => stored fun x => { x with flags := { x.flags with remoteFrame := v } }
      | .extendedId v => stored fun x => { x with flags := { x.flags with extendedId := v } }
      | .extendedIdMaskEnabled v => stored fun x => { x with flags := { x.flags with extendedIdMaskEnabled := v } }
      | .remoteFrameMaskEnabled v => stored fun x => { x with flags := { x.flags with remoteFrameMaskEnabled := v } }
      | .reservedBitTag v => stored fun x => { x with flags := { x.flags with reservedBitTag := v } }
      | .autoReplyValid v => stored fun x => { x with flags := { x.flags with autoReplyValid := v } }
      | .buffer v => stored fun x => { x with buffer := v })
  ∧ ∀ (store : DescStore) (h k : Handle) (g : Desc → Desc),
    descAt (descUpdate store h g) k = if k = h then (descAt store h).map g else descAt store k

/-! ### The codec -/

/-- 40_codec.md R87: the identifier and mask codec and the flag codec round-trip, and encode after decode clears exactly
`lo[4:0]`. -/
def Obligations.CodecRoundTrips : Prop :=
  (∀ v : Ident, decId (encId v).1 (encId v).2 = v)
    ∧ (∀ hi lo : Byte, encId (decId hi lo) = (hi, lo &&& 0xE0))
    ∧ ∀ f : ControlFlags, decFlags (encTagFlags f) (encMaskFlags f) (encControlFlags f) = f

/-- 40_codec.md R80, R82: the words of ENC_ID and ENC_MASK decode to them; they put bits 10:3 into RES[15:8] and bits 2:0 into RES[7:5], record the result,
and change nothing else. -/
def Obligations.EncodeOperationsReturnWireBytes : Prop :=
  ∀ (v : Ident) (s : State),
    decodeForeground (0x10#8 ++ (0#13 ++ v)) = .ok (.encId v)
    ∧ decodeForeground (0x12#8 ++ (0#13 ++ v)) = .ok (.encMask v)
    ∧ exec (.encId v) s = .next { s with
        res := BitVec.ofNat 32 (v.toNat / 8 * 256 + v.toNat % 8 * 32)
        obs := s.obs ++ [.result .encId (BitVec.ofNat 32 (v.toNat / 8 * 256 + v.toNat % 8 * 32))] }
    ∧ exec (.encMask v) s = .next { s with
        res := BitVec.ofNat 32 (v.toNat / 8 * 256 + v.toNat % 8 * 32)
        obs := s.obs ++ [.result .encMask (BitVec.ofNat 32 (v.toNat / 8 * 256 + v.toNat % 8 * 32))] }

/-- 40_codec.md R81, R85: the words of DEC_ID and DEC_MASK decode to them; they return hi ++ lo[7:5], record the result, and change nothing else. -/
def Obligations.DecodeOperationsReturnIdentifier : Prop :=
  ∀ (hi lo : Byte) (s : State),
    decodeForeground (0x11#8 ++ (0#8 ++ hi ++ lo)) = .ok (.decId hi lo)
    ∧ decodeForeground (0x13#8 ++ (0#8 ++ hi ++ lo)) = .ok (.decMask hi lo)
    ∧ exec (.decId hi lo) s = .next { s with
        res := BitVec.ofNat 32 (hi.toNat * 8 + lo.toNat / 32)
        obs := s.obs ++ [.result .decId (BitVec.ofNat 32 (hi.toNat * 8 + lo.toNat / 32))] }
    ∧ exec (.decMask hi lo) s = .next { s with
        res := BitVec.ofNat 32 (hi.toNat * 8 + lo.toNat / 32)
        obs := s.obs ++ [.result .decMask (BitVec.ofNat 32 (hi.toNat * 8 + lo.toNat / 32))] }

/-- 40_codec.md R83, R84: ENC_FLAGS packs t4 (RTRTAG bit 2, RB0TAG bit 0), m4 (RTRMSK bit 2, IDEMSK bit 0) and cf (RPLV
bit 5, IDE bit 4) into RES, and DEC_FLAGS returns the six flags in the F6 order; each records its result and changes
nothing else; their words decode to them. -/
def Obligations.FlagOperationsPackAndUnpack : Prop :=
  (∀ (rtr ide idemsk rtrmsk rb0 rplv : Bool) (s : State),
    let v : Word := BitVec.ofNat 32 (4 * rtr.toNat + rb0.toNat + 256 * (4 * rtrmsk.toNat + idemsk.toNat)
      + 65536 * (32 * rplv.toNat + 16 * ide.toNat))
    decodeForeground (0x14#8 ++ (0#18 ++ BitVec.ofBool rplv ++ BitVec.ofBool rb0 ++ BitVec.ofBool rtrmsk
        ++ BitVec.ofBool idemsk ++ BitVec.ofBool ide ++ BitVec.ofBool rtr)) = .ok (.encFlags rtr ide idemsk rtrmsk rb0 rplv)
    ∧ exec (.encFlags rtr ide idemsk rtrmsk rb0 rplv) s
      = .next { s with res := v, obs := s.obs ++ [.result .encFlags v] })
  ∧ ∀ (t4 m4 cd : Byte) (s : State),
    let v : Word := BitVec.ofNat 32 ((t4.getLsbD 2).toNat + 2 * (cd.getLsbD 4).toNat + 4 * (m4.getLsbD 0).toNat
      + 8 * (m4.getLsbD 2).toNat + 16 * (t4.getLsbD 0).toNat + 32 * (cd.getLsbD 5).toNat)
    decodeForeground (0x15#8 ++ (cd ++ m4 ++ t4)) = .ok (.decFlags t4 m4 cd)
    ∧ exec (.decFlags t4 m4 cd) s = .next { s with res := v, obs := s.obs ++ [.result .decFlags v] }

/-- 45_error_recovery.md R119: CLASSIFY returns the six defined error bits and never TXOK or RXOK, records the result, and
changes nothing else; its words decode to it. -/
def Obligations.ClassifyReturnsErrorBits : Prop :=
  ∀ (st : Byte) (s : State),
    decodeForeground (0x16#8 ++ (0#16 ++ st)) = .ok (.classify st)
    ∧ exec (.classify st) s = .next { s with
        res := (st &&& 0x9F).setWidth 32
        obs := s.obs ++ [.result .classify ((st &&& 0x9F).setWidth 32)] }

/-! ### Registers and message buffers -/

/-- 20_memory.md R44, R46, R47: PageSelect writes PAGE for a slot of 0-5 and faults above; StClear clears exactly the bits
of its mask in the selected slot's status, which is the write of their complement to STMOB by name, and faults under a page
of 6-15, as every per-slot access does; GitClear clears the W1C bits of its mask, which is the write of the mask to GIT by
name, and twice is as once. -/
def Obligations.RegisterAccessFollowsItsCodes : Prop :=
  ∀ (s : State) (v : Byte),
    (∀ k : SlotIx, s.pageSelect (BitVec.ofNat 8 k.val) = .ok { s with g := { s.g with page := pageByte k 0 } })
    ∧ (6 ≤ v.toNat → s.pageSelect v = .error .badSlot)
    ∧ (∀ k, s.selected = some k → s.stClear v
        = .ok { s with m := bankSet s.m k { s.m[k] with stmob := s.m[k].stmob &&& ~~~v } })
    ∧ (s.selected = none → s.stClear v = .error .pageRange)
    ∧ s.gitClear v = { s with g := { s.g with git := s.g.git &&& (~~~v ||| 0x80) } }
    ∧ (s.gitClear v).gitClear v = s.gitClear v
    ∧ (∀ k, s.selected = some k → s.regWrite (.slot .stmob) v
        = .ok { s with m := bankSet s.m k { s.m[k] with stmob := s.m[k].stmob &&& v } })
    ∧ s.regWrite (.global .git) v = .ok { s with g := { s.g with git := s.g.git &&& (~~~v ||| 0x80) } }
    ∧ (s.selected = none → ∀ r, s.regRead (.slot r) = .error .pageRange ∧ s.regWrite (.slot r) v = .error .pageRange)

/-- 20_memory.md R43 and 10_state.md R15, R30 (a): a write to CDMOB sets the engaged bit to CONMOB ≠ 0, and a write to
GCON with `ENASTB` = 0 and `SWRES` = 0 clears `ENFG`. -/
def Obligations.RegisterWritesHaveTheirSideEffects : Prop :=
  ∀ (s : State) (v : Byte),
    (∀ k, s.selected = some k → s.regWrite (.slot .cdmob) v = .ok { s with
        m := bankSet s.m k { s.m[k] with cdmob := v }
        enmob := bankSet s.enmob k (decide (64 ≤ v.toNat)) })
    ∧ ∀ t, v.toNat % 4 = 0 → s.regWrite (.global .gcon) v = .ok t → enfg t.g.gsta = false

/-- 20_memory.md R45: with AINC = 0 a message read returns the byte at the index of the selected slot, a message write
stores there and nowhere else, each moves the index one further modulo 8; with AINC = 1 they do the same and the index
stays; under a page of 6-15 they fault. -/
def Obligations.MessageAccessAdvancesTheIndex : Prop :=
  ∀ (s : State) (v : Byte), Memory.wf s.data = true →
    (∀ (k : SlotIx) (i : Nat), i < 8 → s.g.page = pageByte k i →
      s.msgRead = .ok (memRead s.data (8 * k.val + i), { s with g := { s.g with page := pageByte k (i + 1) } })
      ∧ ∃ m, s.msgWrite v = .ok { s with g := { s.g with page := pageByte k (i + 1) }, data := m }
          ∧ Memory.wf m = true
          ∧ ∀ a, memRead m a = if a = 8 * k.val + i then v else memRead s.data a)
    ∧ (∀ (k : SlotIx) (i : Nat), i < 8 → s.g.page = BitVec.ofNat 8 (16 * k.val + 8 + i) →
      s.msgRead = .ok (memRead s.data (8 * k.val + i), s)
      ∧ ∃ m, s.msgWrite v = .ok { s with data := m } ∧ Memory.wf m = true
          ∧ ∀ a, memRead m a = if a = 8 * k.val + i then v else memRead s.data a)
    ∧ (96 ≤ s.g.page.toNat → s.msgRead = .error .pageRange ∧ s.msgWrite v = .error .pageRange)

/-- 20_memory.md R49: the write of `SWRES` = 1 clears GCON, GSTA and GIT, clears every engaged bit only where
`swres_disengages_mobs`, and changes nothing else. -/
def Obligations.SoftwareResetClearsThreeRegisters : Prop :=
  ∀ s : State, s.writeGField .gcon fSWRES 1 = { s with
    g := { s.g with gcon := 0, gsta := 0, git := 0 }
    enmob := if s.env.params.swresDisengages then Vector.replicate 6 false else s.enmob }

/-- 60_exceptions.md R134: the interrupt line, term by term, and CANIT, which reads it without the ENIT term. -/
def Obligations.InterruptLineIsTheFormula : Prop :=
  ∀ s : State,
    let line : Prop := (s.g.gie.getLsbD 6 = true ∧ s.g.git.getLsbD 6 = true)
      ∨ ∃ k : SlotIx, s.iemob[k] = true ∧
        ((s.g.gie.getLsbD 4 = true ∧ s.m[k].stmob.getLsbD 6 = true)
          ∨ (s.g.gie.getLsbD 5 = true ∧ s.m[k].stmob.getLsbD 5 = true)
          ∨ (s.g.gie.getLsbD 3 = true ∧ s.m[k].stmob &&& 0x1F ≠ 0))
    (irqCond s = true ↔ s.g.gie.getLsbD 7 = true ∧ line) ∧ ((s.readG .git).getLsbD 7 = true ↔ line)

/-! ### Initialisation and platform -/

/-- 41_controller_init.md R89: INIT_CAN with a preset of 0-4 completes from every state, with exactly these effects: the
registers, the slots' control and status, the registry, INIT and gie; everything else is unchanged. The word of a preset of
0-4 decodes to it, of 5-7 to nothing. -/
def Obligations.InitCanSetsUpTheController : Prop :=
  (∀ p : BitVec 3, 5 ≤ p.toNat → decodeForeground (0x01#8 ++ (0#21 ++ p)) = .error .badPreset)
  ∧ ∀ (s : State) (p : BitVec 3) (h : p.toNat < 5),
    decodeForeground (0x01#8 ++ (0#21 ++ p)) = .ok (.initCan p)
    ∧ exec (.initCan p) s = .next { s with
      g :=
        { gcon := 0x22
          gsta := if s.env.draws.wait = .enabled then 0x04 else 0x00
          git := 0x00
          gie := 0xF8
          bt1 := (s.env.params.btTable[p.toNat]).bt1
          bt2 := (s.env.params.btTable[p.toNat]).bt2
          bt3 := (s.env.params.btTable[p.toNat]).bt3
          page := 0x50 }
      m := s.m.map fun x => { x with cdmob := 0, stmob := 0 }
      enmob := Vector.replicate 6 false
      reg := Vector.replicate 6 none
      init := true
      gie := true }

/-- 41_controller_init.md R92, R93: SEI and CLI set and clear `gie` and change nothing else; with it clear the dispatcher
cannot enter; their words decode to them. -/
def Obligations.SeiAndCliSetTheInterruptEnable : Prop :=
  decodeForeground 0x20000000 = .ok .sei ∧ decodeForeground 0x21000000 = .ok .cli
  ∧ ∀ s : State, exec .sei s = .next { s with gie := true } ∧ exec .cli s = .next { s with gie := false }
    ∧ entryGuard { s with gie := false } = false

/-! ### The configurator -/

/-- 42_configurator.md R94: CFG_RX of an accepted Receive descriptor programs the slot's identifier, flags, mask and
control, leaves the slot active and engaged, enables ENIT and ENRX and the slot's interrupt, registers the descriptor and
clamps its length; STMOB, DATA and every other register and slot are unchanged. Its word decodes to it, and it faults as R97
says. -/
def Obligations.CfgRxProgramsAndActivatesTheSlot : Prop :=
  ∀ (s : State) (h : Handle), decodeForeground (0x02#8 ++ (0#8 ++ h)) = .ok (.cfgRx h) ∧ ChecksInOrder (.cfgRx h) h s
  ∧ ∀ (d : Desc) (k : SlotIx), Accepted s h d k →
    (d.kind ≠ .receive → exec (.cfgRx h) s = .fault .kindMismatch)
    ∧ (d.kind = .receive → exec (.cfgRx h) s = .next { s with
      g := { s.g with gie := s.g.gie ||| 0xA0, page := pageByte k 0 }
      m := bankSet s.m k
        { idt1 := wireHigh d.identifier
          idt2 := wireLow d.identifier
          idt4 := tagByte d.flags
          idm1 := wireHigh d.mask
          idm2 := wireLow d.mask
          idm4 := maskFlagByte d.flags
          cdmob := controlByte 2 d.flags.autoReplyValid d.flags.extendedId (minEight d.dataLength)
          stmob := s.m[k].stmob }
      enmob := bankSet s.enmob k true
      iemob := bankSet s.iemob k true
      reg := bankSet s.reg k (some h)
      d := descUpdate s.d h fun x => { x with
        dataLength := BitVec.ofNat 8 (minEight d.dataLength), configured := true } })

/-- 42_configurator.md R95: CFG_TX of an accepted Transmit descriptor programs identifier, flags and control, leaves the
slot paused and disengaged, enables ENIT and ENTX, and registers the descriptor; the mask registers, STMOB, DATA and every
other register and slot are unchanged. Its word decodes to it, and it faults as R97 says. -/
def Obligations.CfgTxProgramsAndPausesTheSlot : Prop :=
  ∀ (s : State) (h : Handle), decodeForeground (0x03#8 ++ (0#8 ++ h)) = .ok (.cfgTx h) ∧ ChecksInOrder (.cfgTx h) h s
  ∧ ∀ (d : Desc) (k : SlotIx), Accepted s h d k →
    (d.kind ≠ .transmit → exec (.cfgTx h) s = .fault .kindMismatch)
    ∧ (d.kind = .transmit → exec (.cfgTx h) s = .next { s with
      g := { s.g with gie := s.g.gie ||| 0x90, page := pageByte k 0 }
      m := bankSet s.m k { s.m[k] with
        idt1 := wireHigh d.identifier
        idt2 := wireLow d.identifier
        idt4 := tagByte d.flags
        cdmob := controlByte 0 d.flags.autoReplyValid d.flags.extendedId (minEight d.dataLength) }
      enmob := bankSet s.enmob k false
      iemob := bankSet s.iemob k true
      reg := bankSet s.reg k (some h)
      d := descUpdate s.d h fun x => { x with
        dataLength := BitVec.ofNat 8 (minEight d.dataLength), configured := true } })

/-- 42_configurator.md R96: CFG_AUTO of an accepted AutoReply descriptor does as CFG_RX does, with both the receive and the
transmit category enabled. Its word decodes to it, and it faults as R97 says. -/
def Obligations.CfgAutoProgramsAndActivatesTheSlot : Prop :=
  ∀ (s : State) (h : Handle), decodeForeground (0x04#8 ++ (0#8 ++ h)) = .ok (.cfgAuto h) ∧ ChecksInOrder (.cfgAuto h) h s
  ∧ ∀ (d : Desc) (k : SlotIx), Accepted s h d k →
    (d.kind ≠ .autoReply → exec (.cfgAuto h) s = .fault .kindMismatch)
    ∧ (d.kind = .autoReply → exec (.cfgAuto h) s = .next { s with
      g := { s.g with gie := s.g.gie ||| 0xB0, page := pageByte k 0 }
      m := bankSet s.m k
        { idt1 := wireHigh d.identifier
          idt2 := wireLow d.identifier
          idt4 := tagByte d.flags
          idm1 := wireHigh d.mask
          idm2 := wireLow d.mask
          idm4 := maskFlagByte d.flags
          cdmob := controlByte 2 d.flags.autoReplyValid d.flags.extendedId (minEight d.dataLength)
          stmob := s.m[k].stmob }
      enmob := bankSet s.enmob k true
      iemob := bankSet s.iemob k true
      reg := bankSet s.reg k (some h)
      d := descUpdate s.d h fun x => { x with
        dataLength := BitVec.ofNat 8 (minEight d.dataLength), configured := true } })

/-- 42_configurator.md R97, 60_exceptions.md R141 (2)-(5): the seven controller operations fault in this order: not initialised, a handle of no
descriptor, a slot number above 5; a configure operation then faults on the wrong kind. -/
def Obligations.OperandFaultsInOrder : Prop :=
  ∀ (s : State) (h : Handle),
    (∀ i ∈ [Instr.cfgRx h, .cfgTx h, .cfgAuto h, .resume h, .pause h, .isPaused h, .status h],
      ChecksInOrder i h s)
    ∧ ∀ (d : Desc) (k : SlotIx), Accepted s h d k →
      (d.kind ≠ .receive → exec (.cfgRx h) s = .fault .kindMismatch)
      ∧ (d.kind ≠ .transmit → exec (.cfgTx h) s = .fault .kindMismatch)
      ∧ (d.kind ≠ .autoReply → exec (.cfgAuto h) s = .fault .kindMismatch)

/-! ### The transfer engine -/

/-- 43_transfer_engine.md R100: RESUME of a Transmit descriptor whose `on_transmit` answers a length other than 0 stores the
answer in the descriptor, records it, writes DLC and the first min(len, 8) bytes into the slot's buffer from index 0, and
arms the slot for one transmission; every other byte and register is unchanged. -/
def Obligations.ResumeSendsTheFilledBytes : Prop :=
  ∀ (s : State) (h : Handle) (d : Desc) (k : SlotIx) (buf : Bytes8) (len : Byte), Accepted s h d k →
    d.kind = .transmit → s.env.draws.fill = .answer buf len → len ≠ 0 → Memory.wf s.data = true →
    ∃ m : Memory,
      exec (.resume h) s = .next { s with
        g := { s.g with page := pageByte k (minEight len) }
        m := bankSet s.m k { s.m[k] with
          cdmob := controlByte 1 (rplv s.m[k].cdmob) (ide s.m[k].cdmob) (minEight len) }
        enmob := bankSet s.enmob k true
        data := m
        d := descUpdate s.d h fun d => { d with buffer := buf, dataLength := BitVec.ofNat 8 (minEight len) }
        obs := s.obs ++ [.txFill h len] }
      ∧ Memory.wf m = true
      ∧ ∀ a, memRead m a =
          if 8 * k.val ≤ a ∧ a < 8 * k.val + minEight len then buf.toList.getD (a - 8 * k.val) 0
          else memRead s.data a

/-- 43_transfer_engine.md R100: RESUME whose `on_transmit` answers length 0 writes no controller register and no message
byte, whatever state the slot is in: only the descriptor and the record change. -/
def Obligations.ResumeWithNothingToSendWritesNoRegister : Prop :=
  ∀ (s : State) (h : Handle) (d : Desc) (k : SlotIx) (buf : Bytes8), Accepted s h d k →
    d.kind = .transmit → s.env.draws.fill = .answer buf 0 →
    exec (.resume h) s = .next { s with
      d := descUpdate s.d h fun d => { d with buffer := buf, dataLength := 0 }
      obs := s.obs ++ [.txFill h 0] }

/-- 43_transfer_engine.md R100: RESUME of a Receive or AutoReply descriptor arms continuous reception and engages the slot,
keeps DLC, RPLV and IDE, and calls no callback. -/
def Obligations.ResumeArmsReception : Prop :=
  ∀ (s : State) (h : Handle) (d : Desc) (k : SlotIx), Accepted s h d k → d.kind ≠ .transmit →
    exec (.resume h) s = .next { s with
      g := { s.g with page := pageByte k 0 }
      m := bankSet s.m k { s.m[k] with
        cdmob := controlByte 2 (rplv s.m[k].cdmob) (ide s.m[k].cdmob) (dlc s.m[k].cdmob).toNat }
      enmob := bankSet s.enmob k true }

/-- 60_exceptions.md R140: a callback that would call an operation of the block is refused, `on_transmit` in RESUME and
`on_receive` in the reception action. That a callback may misbehave is an answer of the model's draws (entry 15). -/
def Obligations.MisbehavingCallbackIsRefused : Prop :=
  (∀ (s : State) (h : Handle) (d : Desc) (k : SlotIx), Accepted s h d k → d.kind = .transmit →
    s.env.draws.fill = .misbehave → exec (.resume h) s = .refused .callbackReentry)
  ∧ ∀ (s : State) (k : SlotIx) (st : Byte) (h : Handle) (d : Desc), s.disp = .act k st → st &&& 0x9F = 0 →
    st.getLsbD 5 = true → s.reg[k] = some h → descAt s.d h = some d → s.selected = some k →
    s.env.draws.deliver = .misbehave → microStep s = .refused .callbackReentry

/-- 43_transfer_engine.md R102, R105: PAUSE of a Transmit descriptor clears CONMOB and disengages the slot; PAUSE of a
Receive or AutoReply descriptor changes nothing, not even the page. Its word decodes to it, and it faults as CheckSlot does. -/
def Obligations.PauseDisarmsOnlyTransmitSlots : Prop :=
  ∀ (s : State) (h : Handle), decodeForeground (0x06#8 ++ (0#8 ++ h)) = .ok (.pause h) ∧ ChecksInOrder (.pause h) h s
  ∧ ∀ (d : Desc) (k : SlotIx), Accepted s h d k →
    (d.kind = .transmit → exec (.pause h) s = .next { s with
      g := { s.g with page := pageByte k 0 }
      m := bankSet s.m k { s.m[k] with
        cdmob := controlByte 0 (rplv s.m[k].cdmob) (ide s.m[k].cdmob) (dlc s.m[k].cdmob).toNat }
      enmob := bankSet s.enmob k false })
    ∧ (d.kind ≠ .transmit → exec (.pause h) s = .next s)

/-- 43_transfer_engine.md R103: IS_PAUSED returns 1 exactly where both enable bits are 0, and changes only PAGE, RES and
OBS. Its word decodes to it, and it faults as CheckSlot does. -/
def Obligations.IsPausedReadsTheEnableBits : Prop :=
  ∀ (s : State) (h : Handle), decodeForeground (0x07#8 ++ (0#8 ++ h)) = .ok (.isPaused h) ∧ ChecksInOrder (.isPaused h) h s
  ∧ ∀ (d : Desc) (k : SlotIx), Accepted s h d k →
    let v : Word := if s.m[k].cdmob.toNat < 64 then 1 else 0
    exec (.isPaused h) s = .next { s with
      g := { s.g with page := pageByte k 0 }, res := v, obs := s.obs ++ [.result .isPaused v] }

/-- 43_transfer_engine.md R104: STATUS returns the raw status byte, clears nothing, and changes only PAGE, RES and OBS. Its word
decodes to it, and it faults as CheckSlot does. -/
def Obligations.StatusReadsTheRawStatusByte : Prop :=
  ∀ (s : State) (h : Handle), decodeForeground (0x08#8 ++ (0#8 ++ h)) = .ok (.status h) ∧ ChecksInOrder (.status h) h s
  ∧ ∀ (d : Desc) (k : SlotIx), Accepted s h d k →
    let v : Word := BitVec.ofNat 32 s.m[k].stmob.toNat
    exec (.status h) s = .next { s with
      g := { s.g with page := pageByte k 0 }, res := v, obs := s.obs ++ [.result .status v] }

/-! ### The dispatcher -/

/-- 44_dispatcher.md R107, R115 and 60_exceptions.md R138: where the entry guard holds, entry changes `gie` and the phase
and nothing else, and so does the exit. -/
def Obligations.InterruptEntryAndExitTouchOnlyGieAndPhase : Prop :=
  ∀ s : State,
    (s.gie = true → s.disp = .idle → irqCond s = true → microStep s = .next { s with gie := false, disp := .entry })
    ∧ (s.disp = .exit → microStep s = .next { s with gie := true, disp := .idle })

/-- 44_dispatcher.md R109, 45_error_recovery.md R121: with BOFFIT set, the entry micro-step resets the controller, enables
the node again with one wait, counts, and records; without it only the phase changes. -/
def Obligations.BusOffIsServedOnce : Prop :=
  ∀ s : State, s.disp = .entry →
    microStep s =
      if boffit s.g.git = true then
        let k := match s.env.params.bocWidth with
          | none => s.boc + 1
          | some w => (s.boc + 1) % 2 ^ w
        .next { s with
          g := { s.g with gcon := 0x02, gsta := if s.env.draws.wait = .enabled then 0x04 else 0x00, git := 0x00 }
          enmob := if s.env.params.swresDisengages then Vector.replicate 6 false else s.enmob
          boc := k
          obs := s.obs ++ [.busOff k]
          disp := .slot 0 }
      else .next { s with disp := .slot 0 }

/-- 44_dispatcher.md R110: the scan skips a slot without an entry; otherwise it selects the slot's page and takes the
snapshot. -/
def Obligations.ScanTakesTheSnapshot : Prop :=
  ∀ (s : State) (k : SlotIx), s.disp = .slot k →
    (s.reg[k] = none → microStep s = .next { s with disp := nextPhase k })
    ∧ ∀ h, s.reg[k] = some h →
      microStep s = .next { s with g := { s.g with page := pageByte k 0 }, disp := .act k s.m[k].stmob }

/-- 44_dispatcher.md R111, 45_error_recovery.md R120: with an error bit in the snapshot every defined error bit of the
selected slot's status is cleared, the snapshot's error bits are reported, and TXOK, RXOK and the transfer state stay. -/
def Obligations.ErrorActionClearsAndReports : Prop :=
  ∀ (s : State) (k : SlotIx) (st : Byte), s.disp = .act k st → st &&& 0x9F ≠ 0 → s.selected = some k →
    microStep s = .next { s with
      m := bankSet s.m k { s.m[k] with stmob := s.m[k].stmob &&& 0x60 }
      obs := s.obs ++ [.errReport k (st &&& 0x9F)]
      disp := nextPhase k }

/-- 44_dispatcher.md R112: a reception copies min(data_length, 8) bytes from index 0 of the slot's buffer, keeps the rest of
the descriptor's buffer, delivers them, clears RXOK alone, pauses a Transmit slot and re-arms any other. -/
def Obligations.ReceptionActionDeliversAndRearms : Prop :=
  ∀ (s : State) (k : SlotIx) (st : Byte) (h : Handle) (d : Desc), s.disp = .act k st → st &&& 0x9F = 0 →
    st.getLsbD 5 = true → s.reg[k] = some h → descAt s.d h = some d → s.selected = some k →
    ainc s.g.page = false → s.env.draws.deliver = .accept →
    let n := minEight d.dataLength
    let x := s.m[k]
    microStep s = .next { s with
      g := { s.g with page := pageByte k (if d.kind = .transmit then 0 else n) }
      m := bankSet s.m k { x with
        stmob := x.stmob &&& 0xDF
        cdmob := controlByte (if d.kind = .transmit then 0 else 2) (rplv x.cdmob) (ide x.cdmob) (dlc x.cdmob).toNat }
      enmob := bankSet s.enmob k (d.kind != .transmit)
      d := descUpdate s.d h fun d => { d with
        buffer := Vector.ofFn fun i : Fin 8 => if i.val < n then memRead s.data (8 * k.val + i.val) else d.buffer[i] }
      obs := s.obs ++ [.rxDeliver h ((List.range n).map fun i => memRead s.data (8 * k.val + i)) (BitVec.ofNat 8 n)]
      disp := nextPhase k }

/-- 44_dispatcher.md R113: a transmission clears TXOK alone and pauses a Transmit slot; for any other kind CONMOB and the
engaged bit stay. -/
def Obligations.TransmissionActionPausesTheSlot : Prop :=
  ∀ (s : State) (k : SlotIx) (st : Byte) (h : Handle) (d : Desc), s.disp = .act k st → st &&& 0x9F = 0 →
    st.getLsbD 5 = false → st.getLsbD 6 = true → s.reg[k] = some h → descAt s.d h = some d → s.selected = some k →
    let x := s.m[k]
    microStep s =
      if d.kind = .transmit then .next { s with
        g := { s.g with page := pageByte k 0 }
        m := bankSet s.m k { x with
          stmob := x.stmob &&& 0xBF
          cdmob := controlByte 0 (rplv x.cdmob) (ide x.cdmob) (dlc x.cdmob).toNat }
        enmob := bankSet s.enmob k false
        disp := nextPhase k }
      else .next { s with
        m := bankSet s.m k { x with stmob := x.stmob &&& 0xBF }
        disp := nextPhase k }

/-- 44_dispatcher.md R114: with none of the bits in the snapshot only the phase moves. -/
def Obligations.IdleSlotActionChangesNothing : Prop :=
  ∀ (s : State) (k : SlotIx) (st : Byte), s.disp = .act k st → st = 0 →
    microStep s = .next { s with disp := nextPhase k }

/-- 60_exceptions.md R139: the dispatcher's own micro-steps raise no fault, in every consistent state. -/
def Obligations.DispatcherRaisesNoFault : Prop :=
  ∀ s : State, registryOk s = true → dispatcherOk s = true →
    (∀ f, microStep s ≠ .fault f) ∧ ∀ f, exec .dispatch s ≠ .fault f

/-- 44_dispatcher.md R108, R117: where the entry guard holds, in a consistent state and with callbacks that return, an
invocation runs to its end: the phase is idle and interrupts are enabled again; the message buffers, the registry, INIT, the
foreground's state, the interrupt enables of the slots and the configuration are unchanged. -/
def Obligations.InvocationRunsToItsEnd : Prop :=
  ∀ s : State, entryGuard s = true → registryOk s = true → s.env.draws.deliver = .accept →
    ∃ t, exec .dispatch s = .next t ∧ t.disp = .idle ∧ t.gie = true
      ∧ t.data = s.data ∧ t.reg = s.reg ∧ t.iemob = s.iemob ∧ t.init = s.init ∧ t.fgi = s.fgi ∧ t.res = s.res
      ∧ t.mark = s.mark ∧ t.env = s.env ∧ descHandles t.d = descHandles s.d
      ∧ t.g.gie = s.g.gie ∧ t.g.bt1 = s.g.bt1 ∧ t.g.bt2 = s.g.bt2 ∧ t.g.bt3 = s.g.bt3

/-- 60_exceptions.md R137: one invocation serves each registered slot one condition, errors before reception before
transmission, and leaves the status of a slot that is not registered as it is. -/
def Obligations.InvocationServesOneConditionPerSlot : Prop :=
  ∀ s : State, entryGuard s = true → registryOk s = true → s.env.draws.deliver = .accept →
    ∃ t, exec .dispatch s = .next t ∧ ∀ k : SlotIx,
      t.m[k].stmob =
        if s.reg[k] = none then s.m[k].stmob
        else if s.m[k].stmob &&& 0x9F ≠ 0 then s.m[k].stmob &&& 0x60
        else if s.m[k].stmob.getLsbD 5 = true then s.m[k].stmob &&& 0xDF
        else s.m[k].stmob &&& 0xBF

/-! ### The bus events -/

/-- 46_bus_events.md R127: where its guard holds, EV_RX writes the first min(dlc, 8) bytes, DLC, the identifier and the RTR
tag, sets RXOK and sets DLCW by the comparison, and disengages the slot, CONMOB, RPLV and IDE unchanged; nothing else
changes. -/
def Obligations.EvRxDepositsTheFrame : Prop :=
  ∀ (s : State) (k : SlotIx), nodeOn s = true → s.enmob[k] = true →
    (s.env.draws.rx.rid ^^^ decId s.m[k].idt1 s.m[k].idt2) &&& decId s.m[k].idm1 s.m[k].idm2 = 0 →
    (s.m[k].idm4.getLsbD 2 = true → s.env.draws.rx.rtr = s.m[k].idt4.getLsbD 2) → Memory.wf s.data = true →
    let p := s.env.draws.rx
    let x := s.m[k]
    let n := min p.dlc.toNat 8
    ∃ m : Memory,
      exec (.evRx (BitVec.ofNat 3 k.val)) s = .next { s with
        data := m
        m := bankSet s.m k { x with
          idt1 := wireHigh p.rid
          idt2 := wireLow p.rid
          idt4 := (x.idt4 &&& 0xFB) ||| (if p.rtr then 0x04 else 0x00)
          cdmob := controlByte (conmob x.cdmob).toNat (rplv x.cdmob) (ide x.cdmob) p.dlc.toNat
          stmob := (x.stmob &&& 0x7F) ||| (if p.dlc = dlc x.cdmob then 0x20 else 0xA0) }
        enmob := bankSet s.enmob k false }
      ∧ Memory.wf m = true
      ∧ ∀ a, memRead m a =
          if 8 * k.val ≤ a ∧ a < 8 * k.val + n then p.bytes.toList.getD (a - 8 * k.val) 0 else memRead s.data a

/-- 46_bus_events.md R128: where its guard holds, EV_TX_DONE sets TXOK and disengages the slot, CONMOB unchanged; nothing
else changes. -/
def Obligations.EvTxDoneSetsTxokAndDisengages : Prop :=
  ∀ (s : State) (k : SlotIx), nodeOn s = true → s.enmob[k] = true →
    (conmob s.m[k].cdmob = 0b01 ∨ (conmob s.m[k].cdmob = 0b10 ∧ rplv s.m[k].cdmob = true)) →
    exec (.evTxDone (BitVec.ofNat 3 k.val)) s = .next { s with
      m := bankSet s.m k { s.m[k] with stmob := s.m[k].stmob ||| 0x40 }
      enmob := bankSet s.enmob k false }

/-- 46_bus_events.md R129: where its guard holds, EV_MOB_ERR sets the error bits and clears none, and disengages the slot
exactly in single-shot mode with the slot armed for transmission; nothing else changes. -/
def Obligations.EvMobErrSetsTheErrorBits : Prop :=
  ∀ (s : State) (k : SlotIx), nodeOn s = true → s.enmob[k] = true → s.env.draws.errBits ≠ 0 →
    s.env.draws.errBits &&& 0xE0 = 0 →
    exec (.evMobErr (BitVec.ofNat 3 k.val)) s = .next { s with
      m := bankSet s.m k { s.m[k] with stmob := s.m[k].stmob ||| s.env.draws.errBits }
      enmob := bankSet s.enmob k (!(ttc s.g.gcon && conmob s.m[k].cdmob == 0b01)) }

/-- 46_bus_events.md R130, R131: EV_BUS_OFF sets BOFFIT and BOFF where the node is on; EV_NODE_EN sets ENFG where the node
is requested and not yet enabled; nothing else changes. -/
def Obligations.NodeEventsSetTheirFlags : Prop :=
  ∀ s : State,
    (nodeOn s = true → exec .evBusOff s = .next { s with
      g := { s.g with git := s.g.git ||| 0x40, gsta := s.g.gsta ||| 0x02 } })
    ∧ (enastb s.g.gcon = true → enfg s.g.gsta = false → exec .evNodeEn s = .next { s with
      g := { s.g with gsta := s.g.gsta ||| 0x04 } })

/-- 00_scope.md R9: a step whose guard is false is no step; in the model nothing changes but the turn taken (entry 7). So
with a foreground turn or an application write while the dispatcher runs (20_memory.md R54 (a)), a foreground turn at the end
of the list (10_state.md R14), a dispatcher entry or an invocation without the entry guard (60_exceptions.md R136), and each
bus event, term by term of its guard (46_bus_events.md R126 to R131): the node not on, a slot that is not engaged, a frame the
filter or the RTR comparison rejects, a slot not armed to transmit, no error bits or bits outside 4:0, ENASTB = 0 or ENFG
already 1, and the slot numbers 6 and 7 (entry 20). -/
def Obligations.DisabledStepsChangeNothing : Prop :=
  (∀ s : State, s.mark = none → s.disp ≠ .idle →
    (s.turn.move = .foreground ∨ ∃ h f, s.turn.move = .descWrite h f) → step s = .next s.begin)
  ∧ (∀ s : State, s.mark = none → s.turn.move = .foreground → s.env.ops.length ≤ s.fgi → step s = .next s.begin)
  ∧ ∀ s : State,
    (s.disp = .idle → entryGuard s = false → microStep s = .next s)
    ∧ (entryGuard s = false → exec .dispatch s = .next s)
    ∧ (nodeOn s = false → exec .evBusOff s = .next s
        ∧ ∀ v, exec (.evRx v) s = .next s ∧ exec (.evTxDone v) s = .next s ∧ exec (.evMobErr v) s = .next s)
    ∧ (enastb s.g.gcon = false ∨ enfg s.g.gsta = true → exec .evNodeEn s = .next s)
    ∧ (∀ v : BitVec 3, 6 ≤ v.toNat →
        exec (.evRx v) s = .next s ∧ exec (.evTxDone v) s = .next s ∧ exec (.evMobErr v) s = .next s)
    ∧ ∀ k : SlotIx,
      (s.enmob[k] = false →
        exec (.evRx (BitVec.ofNat 3 k.val)) s = .next s ∧ exec (.evTxDone (BitVec.ofNat 3 k.val)) s = .next s
          ∧ exec (.evMobErr (BitVec.ofNat 3 k.val)) s = .next s)
      ∧ ((s.env.draws.rx.rid ^^^ decId s.m[k].idt1 s.m[k].idt2) &&& decId s.m[k].idm1 s.m[k].idm2 ≠ 0 →
        exec (.evRx (BitVec.ofNat 3 k.val)) s = .next s)
      ∧ (s.m[k].idm4.getLsbD 2 = true → s.env.draws.rx.rtr ≠ s.m[k].idt4.getLsbD 2 →
        exec (.evRx (BitVec.ofNat 3 k.val)) s = .next s)
      ∧ (conmob s.m[k].cdmob ≠ 0b01 → ¬ (conmob s.m[k].cdmob = 0b10 ∧ rplv s.m[k].cdmob = true) →
        exec (.evTxDone (BitVec.ofNat 3 k.val)) s = .next s)
      ∧ (s.env.draws.errBits = 0 ∨ s.env.draws.errBits &&& 0xE0 ≠ 0 →
        exec (.evMobErr (BitVec.ofNat 3 k.val)) s = .next s)

/-- 46_bus_events.md R125: no event writes the registry, BOC, INIT, the descriptors, gie, the dispatcher's phase, RES, PAGE,
GIE, the timing registers, IEMOB or any CONMOB. That every event completes, also where its guard is false and on the slot
numbers 6 and 7, is the model's form of no step (entries 7 and 20). -/
def Obligations.EventsWriteOnlyTheirOwn : Prop :=
  ∀ (s : State) (i : Instr), i.isForeground = false → i ≠ .dispatch →
    ∃ t, exec i s = .next t ∧ t.reg = s.reg ∧ t.boc = s.boc ∧ t.init = s.init ∧ t.d = s.d ∧ t.gie = s.gie
      ∧ t.disp = s.disp ∧ t.res = s.res ∧ t.g.page = s.g.page ∧ t.g.gie = s.g.gie ∧ t.g.bt1 = s.g.bt1
      ∧ t.g.bt2 = s.g.bt2 ∧ t.g.bt3 = s.g.bt3 ∧ t.iemob = s.iemob
      ∧ ∀ k : SlotIx, conmob t.m[k].cdmob = conmob s.m[k].cdmob

/-! ### Reset and invariants -/

/-- 70_reset_and_hazards.md R150: at power-on the line is low, no event has an effect, and the state is consistent. The
power-on values of the global registers are the spec's from general knowledge (D33; entry 18), those of the slots and of the
message buffers the model's (entries 1, 2). -/
def Obligations.ResetIsQuietAndConsistent : Prop :=
  irqCond State.reset = false ∧ nodeOn State.reset = false ∧ nodeEnEnabled State.reset = false
    ∧ State.reset.gie = false ∧ State.reset.disp = .idle ∧ State.reset.fgi = 0 ∧ State.reset.boc = 0
    ∧ State.reset.init = false ∧ State.reset.obs = [] ∧ State.reset.mark = none
    ∧ memoryOk State.reset = true ∧ registryOk State.reset = true ∧ dispatcherOk State.reset = true
    ∧ pageOk State.reset = true ∧ nodeOk State.reset = true ∧ engagedOk State.reset = true ∧ bocOk State.reset = true

/-- Every launch state meets the invariants below, whatever the host gives (70_reset_and_hazards.md R155). -/
def Obligations.LaunchIsConsistent : Prop :=
  ∀ s : State, CleanLaunch s → memoryOk s = true ∧ registryOk s = true ∧ dispatcherOk s = true ∧ pageOk s = true
    ∧ nodeOk s = true ∧ engagedOk s = true ∧ bocOk s = true

/-- Every step keeps the canonical form of the message buffers and of the descriptor store, and its set of handles
(10_state.md R35). -/
def Obligations.StepKeepsMemoryCanonical : Prop :=
  ∀ s t : State, memoryOk s = true → step s = .next t → memoryOk t = true ∧ descHandles t.d = descHandles s.d

/-- Every step keeps the registry sound: an entry leads to a configured descriptor of its own slot (10_state.md R36,
44_dispatcher.md R110). -/
def Obligations.StepKeepsRegistrySound : Prop :=
  ∀ s t : State, registryOk s = true → step s = .next t → registryOk t = true

/-- Every step keeps interrupts masked while the dispatcher runs, and in `Act` its slot selected and registered
(44_dispatcher.md R107, R110; 60_exceptions.md R142). -/
def Obligations.StepKeepsDispatcherConsistent : Prop :=
  ∀ s t : State, dispatcherOk s = true → step s = .next t → dispatcherOk t = true

/-- Every step keeps `ENFG` only while `ENASTB`, `BOFFIT` exactly while `BOFF`, an engaged slot armed, and a page that
selects a slot with AINC = 0 (46_bus_events.md R130, R131; 10_state.md R20, R30). -/
def Obligations.StepKeepsControllerConsistent : Prop :=
  ∀ s t : State, nodeOk s = true → engagedOk s = true → pageOk s = true → step s = .next t →
    nodeOk t = true ∧ engagedOk t = true ∧ pageOk t = true

/-- Every step keeps the bus-off counter equal to the number of `BusOff` records, modulo 2^BOC_WIDTH where a width is given
(70_reset_and_hazards.md R160). -/
def Obligations.StepKeepsTheBusOffCount : Prop :=
  ∀ s t : State, bocOk s = true → step s = .next t → bocOk t = true

/-- What no step ever does: change the configuration, clear INIT, take back a record, clear a slot's IEMOB bit, write
the reserved CONMOB value, or change the slot or the kind of a configured descriptor (10_state.md R12, R21, R26, R34, R36). -/
def Obligations.StepNeverUndoes : Prop :=
  ∀ s t : State, step s = .next t →
    t.env.params = s.env.params ∧ t.env.ops = s.env.ops
    ∧ (s.init = true → t.init = true)
    ∧ s.obs <+: t.obs
    ∧ (∀ k : SlotIx, s.iemob[k] = true → t.iemob[k] = true)
    ∧ (∀ k : SlotIx, conmob t.m[k].cdmob = 0b11 → conmob s.m[k].cdmob = 0b11)
    ∧ ∀ (h : Handle) (d : Desc), descAt s.d h = some d → d.configured = true →
        ∃ e, descAt t.d h = some e ∧ e.configured = true ∧ e.slotId = d.slotId ∧ e.kind = d.kind

/-- 10_state.md R40: only a hardware event sets a status bit: a step of the foreground, of the application or of the
dispatcher sets none of any slot. -/
def Obligations.SoftwareSetsNoStatusBit : Prop :=
  ∀ s t : State, (s.turn.move = .foreground ∨ s.turn.move = .dispatcher ∨ (∃ h f, s.turn.move = .descWrite h f)
      ∨ s.turn.move = .label 0x90000000) →
    step s = .next t → ∀ k : SlotIx, t.m[k].stmob &&& ~~~s.m[k].stmob = 0

/-- 10_state.md R33: only the dispatcher's bus-off step changes the bus-off counter. -/
def Obligations.OnlyBusOffServiceCounts : Prop :=
  ∀ s t : State, step s = .next t → t.boc ≠ s.boc →
    boffit s.g.git = true ∧ ((s.turn.move = .dispatcher ∧ s.disp = .entry)
      ∨ (s.turn.move = .label 0x90000000 ∧ entryGuard s = true))
end

