-- ==== Sys2Proof/Laws/State.lean ====
section
/-! SUPPORT. One lemma for each field under each named update of the state, and the bank of six. -/

namespace Sys2Proof.Machine

@[simp] theorem bankSet_get_same {α : Type} (b : Bank α) (k : SlotIx) (x : α) : (bankSet b k x)[k] = x := by
  simp [bankSet]

@[simp] theorem bankSet_get_val_same {α : Type} (b : Bank α) (k : SlotIx) (x : α) : (bankSet b k x)[k.val] = x := by
  simp [bankSet]

theorem bankSet_get_ne {α : Type} (b : Bank α) (k j : SlotIx) (x : α) (h : k ≠ j) : (bankSet b k x)[j] = b[j] := by
  have : k.val ≠ j.val := fun e => h (Fin.ext e)
  simp [bankSet, this]

/-- A bank read after a write, at any slot. -/
theorem bankSet_get {α : Type} (b : Bank α) (k j : SlotIx) (x : α) :
    (bankSet b k x)[j] = if k = j then x else b[j] := by
  by_cases h : k = j
  · subst h; simp
  · simp [h, bankSet_get_ne b k j x h]

@[simp] theorem bankSet_bankSet {α : Type} (b : Bank α) (k : SlotIx) (x y : α) :
    bankSet (bankSet b k x) k y = bankSet b k y := by
  simp [bankSet]

@[simp] theorem bankSet_self {α : Type} (b : Bank α) (k : SlotIx) : bankSet b k b[k] = b := by
  simp [bankSet]

@[simp] theorem State.setG_g (s : State) (x : Globals) : (s.setG x).g = x := rfl
@[simp] theorem State.setG_m (s : State) (x : Globals) : (s.setG x).m = s.m := rfl
@[simp] theorem State.setG_enmob (s : State) (x : Globals) : (s.setG x).enmob = s.enmob := rfl
@[simp] theorem State.setG_iemob (s : State) (x : Globals) : (s.setG x).iemob = s.iemob := rfl
@[simp] theorem State.setG_data (s : State) (x : Globals) : (s.setG x).data = s.data := rfl
@[simp] theorem State.setG_gie (s : State) (x : Globals) : (s.setG x).gie = s.gie := rfl
@[simp] theorem State.setG_reg (s : State) (x : Globals) : (s.setG x).reg = s.reg := rfl
@[simp] theorem State.setG_boc (s : State) (x : Globals) : (s.setG x).boc = s.boc := rfl
@[simp] theorem State.setG_init (s : State) (x : Globals) : (s.setG x).init = s.init := rfl
@[simp] theorem State.setG_d (s : State) (x : Globals) : (s.setG x).d = s.d := rfl
@[simp] theorem State.setG_fgi (s : State) (x : Globals) : (s.setG x).fgi = s.fgi := rfl
@[simp] theorem State.setG_res (s : State) (x : Globals) : (s.setG x).res = s.res := rfl
@[simp] theorem State.setG_disp (s : State) (x : Globals) : (s.setG x).disp = s.disp := rfl
@[simp] theorem State.setG_obs (s : State) (x : Globals) : (s.setG x).obs = s.obs := rfl
@[simp] theorem State.setG_mark (s : State) (x : Globals) : (s.setG x).mark = s.mark := rfl
@[simp] theorem State.setG_env (s : State) (x : Globals) : (s.setG x).env = s.env := rfl

@[simp] theorem State.setMob_g (s : State) (k : SlotIx) (x : Mob) : (s.setMob k x).g = s.g := rfl
@[simp] theorem State.setMob_m (s : State) (k : SlotIx) (x : Mob) : (s.setMob k x).m = bankSet s.m k x := rfl
@[simp] theorem State.setMob_enmob (s : State) (k : SlotIx) (x : Mob) : (s.setMob k x).enmob = s.enmob := rfl
@[simp] theorem State.setMob_iemob (s : State) (k : SlotIx) (x : Mob) : (s.setMob k x).iemob = s.iemob := rfl
@[simp] theorem State.setMob_data (s : State) (k : SlotIx) (x : Mob) : (s.setMob k x).data = s.data := rfl
@[simp] theorem State.setMob_gie (s : State) (k : SlotIx) (x : Mob) : (s.setMob k x).gie = s.gie := rfl
@[simp] theorem State.setMob_reg (s : State) (k : SlotIx) (x : Mob) : (s.setMob k x).reg = s.reg := rfl
@[simp] theorem State.setMob_boc (s : State) (k : SlotIx) (x : Mob) : (s.setMob k x).boc = s.boc := rfl
@[simp] theorem State.setMob_init (s : State) (k : SlotIx) (x : Mob) : (s.setMob k x).init = s.init := rfl
@[simp] theorem State.setMob_d (s : State) (k : SlotIx) (x : Mob) : (s.setMob k x).d = s.d := rfl
@[simp] theorem State.setMob_fgi (s : State) (k : SlotIx) (x : Mob) : (s.setMob k x).fgi = s.fgi := rfl
@[simp] theorem State.setMob_res (s : State) (k : SlotIx) (x : Mob) : (s.setMob k x).res = s.res := rfl
@[simp] theorem State.setMob_disp (s : State) (k : SlotIx) (x : Mob) : (s.setMob k x).disp = s.disp := rfl
@[simp] theorem State.setMob_obs (s : State) (k : SlotIx) (x : Mob) : (s.setMob k x).obs = s.obs := rfl
@[simp] theorem State.setMob_mark (s : State) (k : SlotIx) (x : Mob) : (s.setMob k x).mark = s.mark := rfl
@[simp] theorem State.setMob_env (s : State) (k : SlotIx) (x : Mob) : (s.setMob k x).env = s.env := rfl

@[simp] theorem State.setEnmob_g (s : State) (k : SlotIx) (x : Bool) : (s.setEnmob k x).g = s.g := rfl
@[simp] theorem State.setEnmob_m (s : State) (k : SlotIx) (x : Bool) : (s.setEnmob k x).m = s.m := rfl
@[simp] theorem State.setEnmob_enmob (s : State) (k : SlotIx) (x : Bool) : (s.setEnmob k x).enmob = bankSet s.enmob k x := rfl
@[simp] theorem State.setEnmob_iemob (s : State) (k : SlotIx) (x : Bool) : (s.setEnmob k x).iemob = s.iemob := rfl
@[simp] theorem State.setEnmob_data (s : State) (k : SlotIx) (x : Bool) : (s.setEnmob k x).data = s.data := rfl
@[simp] theorem State.setEnmob_gie (s : State) (k : SlotIx) (x : Bool) : (s.setEnmob k x).gie = s.gie := rfl
@[simp] theorem State.setEnmob_reg (s : State) (k : SlotIx) (x : Bool) : (s.setEnmob k x).reg = s.reg := rfl
@[simp] theorem State.setEnmob_boc (s : State) (k : SlotIx) (x : Bool) : (s.setEnmob k x).boc = s.boc := rfl
@[simp] theorem State.setEnmob_init (s : State) (k : SlotIx) (x : Bool) : (s.setEnmob k x).init = s.init := rfl
@[simp] theorem State.setEnmob_d (s : State) (k : SlotIx) (x : Bool) : (s.setEnmob k x).d = s.d := rfl
@[simp] theorem State.setEnmob_fgi (s : State) (k : SlotIx) (x : Bool) : (s.setEnmob k x).fgi = s.fgi := rfl
@[simp] theorem State.setEnmob_res (s : State) (k : SlotIx) (x : Bool) : (s.setEnmob k x).res = s.res := rfl
@[simp] theorem State.setEnmob_disp (s : State) (k : SlotIx) (x : Bool) : (s.setEnmob k x).disp = s.disp := rfl
@[simp] theorem State.setEnmob_obs (s : State) (k : SlotIx) (x : Bool) : (s.setEnmob k x).obs = s.obs := rfl
@[simp] theorem State.setEnmob_mark (s : State) (k : SlotIx) (x : Bool) : (s.setEnmob k x).mark = s.mark := rfl
@[simp] theorem State.setEnmob_env (s : State) (k : SlotIx) (x : Bool) : (s.setEnmob k x).env = s.env := rfl

@[simp] theorem State.setIemob_g (s : State) (k : SlotIx) (x : Bool) : (s.setIemob k x).g = s.g := rfl
@[simp] theorem State.setIemob_m (s : State) (k : SlotIx) (x : Bool) : (s.setIemob k x).m = s.m := rfl
@[simp] theorem State.setIemob_enmob (s : State) (k : SlotIx) (x : Bool) : (s.setIemob k x).enmob = s.enmob := rfl
@[simp] theorem State.setIemob_iemob (s : State) (k : SlotIx) (x : Bool) : (s.setIemob k x).iemob = bankSet s.iemob k x := rfl
@[simp] theorem State.setIemob_data (s : State) (k : SlotIx) (x : Bool) : (s.setIemob k x).data = s.data := rfl
@[simp] theorem State.setIemob_gie (s : State) (k : SlotIx) (x : Bool) : (s.setIemob k x).gie = s.gie := rfl
@[simp] theorem State.setIemob_reg (s : State) (k : SlotIx) (x : Bool) : (s.setIemob k x).reg = s.reg := rfl
@[simp] theorem State.setIemob_boc (s : State) (k : SlotIx) (x : Bool) : (s.setIemob k x).boc = s.boc := rfl
@[simp] theorem State.setIemob_init (s : State) (k : SlotIx) (x : Bool) : (s.setIemob k x).init = s.init := rfl
@[simp] theorem State.setIemob_d (s : State) (k : SlotIx) (x : Bool) : (s.setIemob k x).d = s.d := rfl
@[simp] theorem State.setIemob_fgi (s : State) (k : SlotIx) (x : Bool) : (s.setIemob k x).fgi = s.fgi := rfl
@[simp] theorem State.setIemob_res (s : State) (k : SlotIx) (x : Bool) : (s.setIemob k x).res = s.res := rfl
@[simp] theorem State.setIemob_disp (s : State) (k : SlotIx) (x : Bool) : (s.setIemob k x).disp = s.disp := rfl
@[simp] theorem State.setIemob_obs (s : State) (k : SlotIx) (x : Bool) : (s.setIemob k x).obs = s.obs := rfl
@[simp] theorem State.setIemob_mark (s : State) (k : SlotIx) (x : Bool) : (s.setIemob k x).mark = s.mark := rfl
@[simp] theorem State.setIemob_env (s : State) (k : SlotIx) (x : Bool) : (s.setIemob k x).env = s.env := rfl

@[simp] theorem State.setData_g (s : State) (x : Memory) : (s.setData x).g = s.g := rfl
@[simp] theorem State.setData_m (s : State) (x : Memory) : (s.setData x).m = s.m := rfl
@[simp] theorem State.setData_enmob (s : State) (x : Memory) : (s.setData x).enmob = s.enmob := rfl
@[simp] theorem State.setData_iemob (s : State) (x : Memory) : (s.setData x).iemob = s.iemob := rfl
@[simp] theorem State.setData_data (s : State) (x : Memory) : (s.setData x).data = x := rfl
@[simp] theorem State.setData_gie (s : State) (x : Memory) : (s.setData x).gie = s.gie := rfl
@[simp] theorem State.setData_reg (s : State) (x : Memory) : (s.setData x).reg = s.reg := rfl
@[simp] theorem State.setData_boc (s : State) (x : Memory) : (s.setData x).boc = s.boc := rfl
@[simp] theorem State.setData_init (s : State) (x : Memory) : (s.setData x).init = s.init := rfl
@[simp] theorem State.setData_d (s : State) (x : Memory) : (s.setData x).d = s.d := rfl
@[simp] theorem State.setData_fgi (s : State) (x : Memory) : (s.setData x).fgi = s.fgi := rfl
@[simp] theorem State.setData_res (s : State) (x : Memory) : (s.setData x).res = s.res := rfl
@[simp] theorem State.setData_disp (s : State) (x : Memory) : (s.setData x).disp = s.disp := rfl
@[simp] theorem State.setData_obs (s : State) (x : Memory) : (s.setData x).obs = s.obs := rfl
@[simp] theorem State.setData_mark (s : State) (x : Memory) : (s.setData x).mark = s.mark := rfl
@[simp] theorem State.setData_env (s : State) (x : Memory) : (s.setData x).env = s.env := rfl

@[simp] theorem State.setGie_g (s : State) (x : Bool) : (s.setGie x).g = s.g := rfl
@[simp] theorem State.setGie_m (s : State) (x : Bool) : (s.setGie x).m = s.m := rfl
@[simp] theorem State.setGie_enmob (s : State) (x : Bool) : (s.setGie x).enmob = s.enmob := rfl
@[simp] theorem State.setGie_iemob (s : State) (x : Bool) : (s.setGie x).iemob = s.iemob := rfl
@[simp] theorem State.setGie_data (s : State) (x : Bool) : (s.setGie x).data = s.data := rfl
@[simp] theorem State.setGie_gie (s : State) (x : Bool) : (s.setGie x).gie = x := rfl
@[simp] theorem State.setGie_reg (s : State) (x : Bool) : (s.setGie x).reg = s.reg := rfl
@[simp] theorem State.setGie_boc (s : State) (x : Bool) : (s.setGie x).boc = s.boc := rfl
@[simp] theorem State.setGie_init (s : State) (x : Bool) : (s.setGie x).init = s.init := rfl
@[simp] theorem State.setGie_d (s : State) (x : Bool) : (s.setGie x).d = s.d := rfl
@[simp] theorem State.setGie_fgi (s : State) (x : Bool) : (s.setGie x).fgi = s.fgi := rfl
@[simp] theorem State.setGie_res (s : State) (x : Bool) : (s.setGie x).res = s.res := rfl
@[simp] theorem State.setGie_disp (s : State) (x : Bool) : (s.setGie x).disp = s.disp := rfl
@[simp] theorem State.setGie_obs (s : State) (x : Bool) : (s.setGie x).obs = s.obs := rfl
@[simp] theorem State.setGie_mark (s : State) (x : Bool) : (s.setGie x).mark = s.mark := rfl
@[simp] theorem State.setGie_env (s : State) (x : Bool) : (s.setGie x).env = s.env := rfl

@[simp] theorem State.setReg_g (s : State) (k : SlotIx) (x : Option Handle) : (s.setReg k x).g = s.g := rfl
@[simp] theorem State.setReg_m (s : State) (k : SlotIx) (x : Option Handle) : (s.setReg k x).m = s.m := rfl
@[simp] theorem State.setReg_enmob (s : State) (k : SlotIx) (x : Option Handle) : (s.setReg k x).enmob = s.enmob := rfl
@[simp] theorem State.setReg_iemob (s : State) (k : SlotIx) (x : Option Handle) : (s.setReg k x).iemob = s.iemob := rfl
@[simp] theorem State.setReg_data (s : State) (k : SlotIx) (x : Option Handle) : (s.setReg k x).data = s.data := rfl
@[simp] theorem State.setReg_gie (s : State) (k : SlotIx) (x : Option Handle) : (s.setReg k x).gie = s.gie := rfl
@[simp] theorem State.setReg_reg (s : State) (k : SlotIx) (x : Option Handle) : (s.setReg k x).reg = bankSet s.reg k x := rfl
@[simp] theorem State.setReg_boc (s : State) (k : SlotIx) (x : Option Handle) : (s.setReg k x).boc = s.boc := rfl
@[simp] theorem State.setReg_init (s : State) (k : SlotIx) (x : Option Handle) : (s.setReg k x).init = s.init := rfl
@[simp] theorem State.setReg_d (s : State) (k : SlotIx) (x : Option Handle) : (s.setReg k x).d = s.d := rfl
@[simp] theorem State.setReg_fgi (s : State) (k : SlotIx) (x : Option Handle) : (s.setReg k x).fgi = s.fgi := rfl
@[simp] theorem State.setReg_res (s : State) (k : SlotIx) (x : Option Handle) : (s.setReg k x).res = s.res := rfl
@[simp] theorem State.setReg_disp (s : State) (k : SlotIx) (x : Option Handle) : (s.setReg k x).disp = s.disp := rfl
@[simp] theorem State.setReg_obs (s : State) (k : SlotIx) (x : Option Handle) : (s.setReg k x).obs = s.obs := rfl
@[simp] theorem State.setReg_mark (s : State) (k : SlotIx) (x : Option Handle) : (s.setReg k x).mark = s.mark := rfl
@[simp] theorem State.setReg_env (s : State) (k : SlotIx) (x : Option Handle) : (s.setReg k x).env = s.env := rfl

@[simp] theorem State.setBoc_g (s : State) (x : Nat) : (s.setBoc x).g = s.g := rfl
@[simp] theorem State.setBoc_m (s : State) (x : Nat) : (s.setBoc x).m = s.m := rfl
@[simp] theorem State.setBoc_enmob (s : State) (x : Nat) : (s.setBoc x).enmob = s.enmob := rfl
@[simp] theorem State.setBoc_iemob (s : State) (x : Nat) : (s.setBoc x).iemob = s.iemob := rfl
@[simp] theorem State.setBoc_data (s : State) (x : Nat) : (s.setBoc x).data = s.data := rfl
@[simp] theorem State.setBoc_gie (s : State) (x : Nat) : (s.setBoc x).gie = s.gie := rfl
@[simp] theorem State.setBoc_reg (s : State) (x : Nat) : (s.setBoc x).reg = s.reg := rfl
@[simp] theorem State.setBoc_boc (s : State) (x : Nat) : (s.setBoc x).boc = x := rfl
@[simp] theorem State.setBoc_init (s : State) (x : Nat) : (s.setBoc x).init = s.init := rfl
@[simp] theorem State.setBoc_d (s : State) (x : Nat) : (s.setBoc x).d = s.d := rfl
@[simp] theorem State.setBoc_fgi (s : State) (x : Nat) : (s.setBoc x).fgi = s.fgi := rfl
@[simp] theorem State.setBoc_res (s : State) (x : Nat) : (s.setBoc x).res = s.res := rfl
@[simp] theorem State.setBoc_disp (s : State) (x : Nat) : (s.setBoc x).disp = s.disp := rfl
@[simp] theorem State.setBoc_obs (s : State) (x : Nat) : (s.setBoc x).obs = s.obs := rfl
@[simp] theorem State.setBoc_mark (s : State) (x : Nat) : (s.setBoc x).mark = s.mark := rfl
@[simp] theorem State.setBoc_env (s : State) (x : Nat) : (s.setBoc x).env = s.env := rfl

@[simp] theorem State.setInit_g (s : State) (x : Bool) : (s.setInit x).g = s.g := rfl
@[simp] theorem State.setInit_m (s : State) (x : Bool) : (s.setInit x).m = s.m := rfl
@[simp] theorem State.setInit_enmob (s : State) (x : Bool) : (s.setInit x).enmob = s.enmob := rfl
@[simp] theorem State.setInit_iemob (s : State) (x : Bool) : (s.setInit x).iemob = s.iemob := rfl
@[simp] theorem State.setInit_data (s : State) (x : Bool) : (s.setInit x).data = s.data := rfl
@[simp] theorem State.setInit_gie (s : State) (x : Bool) : (s.setInit x).gie = s.gie := rfl
@[simp] theorem State.setInit_reg (s : State) (x : Bool) : (s.setInit x).reg = s.reg := rfl
@[simp] theorem State.setInit_boc (s : State) (x : Bool) : (s.setInit x).boc = s.boc := rfl
@[simp] theorem State.setInit_init (s : State) (x : Bool) : (s.setInit x).init = x := rfl
@[simp] theorem State.setInit_d (s : State) (x : Bool) : (s.setInit x).d = s.d := rfl
@[simp] theorem State.setInit_fgi (s : State) (x : Bool) : (s.setInit x).fgi = s.fgi := rfl
@[simp] theorem State.setInit_res (s : State) (x : Bool) : (s.setInit x).res = s.res := rfl
@[simp] theorem State.setInit_disp (s : State) (x : Bool) : (s.setInit x).disp = s.disp := rfl
@[simp] theorem State.setInit_obs (s : State) (x : Bool) : (s.setInit x).obs = s.obs := rfl
@[simp] theorem State.setInit_mark (s : State) (x : Bool) : (s.setInit x).mark = s.mark := rfl
@[simp] theorem State.setInit_env (s : State) (x : Bool) : (s.setInit x).env = s.env := rfl

@[simp] theorem State.setD_g (s : State) (x : DescStore) : (s.setD x).g = s.g := rfl
@[simp] theorem State.setD_m (s : State) (x : DescStore) : (s.setD x).m = s.m := rfl
@[simp] theorem State.setD_enmob (s : State) (x : DescStore) : (s.setD x).enmob = s.enmob := rfl
@[simp] theorem State.setD_iemob (s : State) (x : DescStore) : (s.setD x).iemob = s.iemob := rfl
@[simp] theorem State.setD_data (s : State) (x : DescStore) : (s.setD x).data = s.data := rfl
@[simp] theorem State.setD_gie (s : State) (x : DescStore) : (s.setD x).gie = s.gie := rfl
@[simp] theorem State.setD_reg (s : State) (x : DescStore) : (s.setD x).reg = s.reg := rfl
@[simp] theorem State.setD_boc (s : State) (x : DescStore) : (s.setD x).boc = s.boc := rfl
@[simp] theorem State.setD_init (s : State) (x : DescStore) : (s.setD x).init = s.init := rfl
@[simp] theorem State.setD_d (s : State) (x : DescStore) : (s.setD x).d = x := rfl
@[simp] theorem State.setD_fgi (s : State) (x : DescStore) : (s.setD x).fgi = s.fgi := rfl
@[simp] theorem State.setD_res (s : State) (x : DescStore) : (s.setD x).res = s.res := rfl
@[simp] theorem State.setD_disp (s : State) (x : DescStore) : (s.setD x).disp = s.disp := rfl
@[simp] theorem State.setD_obs (s : State) (x : DescStore) : (s.setD x).obs = s.obs := rfl
@[simp] theorem State.setD_mark (s : State) (x : DescStore) : (s.setD x).mark = s.mark := rfl
@[simp] theorem State.setD_env (s : State) (x : DescStore) : (s.setD x).env = s.env := rfl

@[simp] theorem State.setFgi_g (s : State) (x : Nat) : (s.setFgi x).g = s.g := rfl
@[simp] theorem State.setFgi_m (s : State) (x : Nat) : (s.setFgi x).m = s.m := rfl
@[simp] theorem State.setFgi_enmob (s : State) (x : Nat) : (s.setFgi x).enmob = s.enmob := rfl
@[simp] theorem State.setFgi_iemob (s : State) (x : Nat) : (s.setFgi x).iemob = s.iemob := rfl
@[simp] theorem State.setFgi_data (s : State) (x : Nat) : (s.setFgi x).data = s.data := rfl
@[simp] theorem State.setFgi_gie (s : State) (x : Nat) : (s.setFgi x).gie = s.gie := rfl
@[simp] theorem State.setFgi_reg (s : State) (x : Nat) : (s.setFgi x).reg = s.reg := rfl
@[simp] theorem State.setFgi_boc (s : State) (x : Nat) : (s.setFgi x).boc = s.boc := rfl
@[simp] theorem State.setFgi_init (s : State) (x : Nat) : (s.setFgi x).init = s.init := rfl
@[simp] theorem State.setFgi_d (s : State) (x : Nat) : (s.setFgi x).d = s.d := rfl
@[simp] theorem State.setFgi_fgi (s : State) (x : Nat) : (s.setFgi x).fgi = x := rfl
@[simp] theorem State.setFgi_res (s : State) (x : Nat) : (s.setFgi x).res = s.res := rfl
@[simp] theorem State.setFgi_disp (s : State) (x : Nat) : (s.setFgi x).disp = s.disp := rfl
@[simp] theorem State.setFgi_obs (s : State) (x : Nat) : (s.setFgi x).obs = s.obs := rfl
@[simp] theorem State.setFgi_mark (s : State) (x : Nat) : (s.setFgi x).mark = s.mark := rfl
@[simp] theorem State.setFgi_env (s : State) (x : Nat) : (s.setFgi x).env = s.env := rfl

@[simp] theorem State.setRes_g (s : State) (x : Word) : (s.setRes x).g = s.g := rfl
@[simp] theorem State.setRes_m (s : State) (x : Word) : (s.setRes x).m = s.m := rfl
@[simp] theorem State.setRes_enmob (s : State) (x : Word) : (s.setRes x).enmob = s.enmob := rfl
@[simp] theorem State.setRes_iemob (s : State) (x : Word) : (s.setRes x).iemob = s.iemob := rfl
@[simp] theorem State.setRes_data (s : State) (x : Word) : (s.setRes x).data = s.data := rfl
@[simp] theorem State.setRes_gie (s : State) (x : Word) : (s.setRes x).gie = s.gie := rfl
@[simp] theorem State.setRes_reg (s : State) (x : Word) : (s.setRes x).reg = s.reg := rfl
@[simp] theorem State.setRes_boc (s : State) (x : Word) : (s.setRes x).boc = s.boc := rfl
@[simp] theorem State.setRes_init (s : State) (x : Word) : (s.setRes x).init = s.init := rfl
@[simp] theorem State.setRes_d (s : State) (x : Word) : (s.setRes x).d = s.d := rfl
@[simp] theorem State.setRes_fgi (s : State) (x : Word) : (s.setRes x).fgi = s.fgi := rfl
@[simp] theorem State.setRes_res (s : State) (x : Word) : (s.setRes x).res = x := rfl
@[simp] theorem State.setRes_disp (s : State) (x : Word) : (s.setRes x).disp = s.disp := rfl
@[simp] theorem State.setRes_obs (s : State) (x : Word) : (s.setRes x).obs = s.obs := rfl
@[simp] theorem State.setRes_mark (s : State) (x : Word) : (s.setRes x).mark = s.mark := rfl
@[simp] theorem State.setRes_env (s : State) (x : Word) : (s.setRes x).env = s.env := rfl

@[simp] theorem State.setDisp_g (s : State) (x : Phase) : (s.setDisp x).g = s.g := rfl
@[simp] theorem State.setDisp_m (s : State) (x : Phase) : (s.setDisp x).m = s.m := rfl
@[simp] theorem State.setDisp_enmob (s : State) (x : Phase) : (s.setDisp x).enmob = s.enmob := rfl
@[simp] theorem State.setDisp_iemob (s : State) (x : Phase) : (s.setDisp x).iemob = s.iemob := rfl
@[simp] theorem State.setDisp_data (s : State) (x : Phase) : (s.setDisp x).data = s.data := rfl
@[simp] theorem State.setDisp_gie (s : State) (x : Phase) : (s.setDisp x).gie = s.gie := rfl
@[simp] theorem State.setDisp_reg (s : State) (x : Phase) : (s.setDisp x).reg = s.reg := rfl
@[simp] theorem State.setDisp_boc (s : State) (x : Phase) : (s.setDisp x).boc = s.boc := rfl
@[simp] theorem State.setDisp_init (s : State) (x : Phase) : (s.setDisp x).init = s.init := rfl
@[simp] theorem State.setDisp_d (s : State) (x : Phase) : (s.setDisp x).d = s.d := rfl
@[simp] theorem State.setDisp_fgi (s : State) (x : Phase) : (s.setDisp x).fgi = s.fgi := rfl
@[simp] theorem State.setDisp_res (s : State) (x : Phase) : (s.setDisp x).res = s.res := rfl
@[simp] theorem State.setDisp_disp (s : State) (x : Phase) : (s.setDisp x).disp = x := rfl
@[simp] theorem State.setDisp_obs (s : State) (x : Phase) : (s.setDisp x).obs = s.obs := rfl
@[simp] theorem State.setDisp_mark (s : State) (x : Phase) : (s.setDisp x).mark = s.mark := rfl
@[simp] theorem State.setDisp_env (s : State) (x : Phase) : (s.setDisp x).env = s.env := rfl

@[simp] theorem State.emit_g (s : State) (x : Obs) : (s.emit x).g = s.g := rfl
@[simp] theorem State.emit_m (s : State) (x : Obs) : (s.emit x).m = s.m := rfl
@[simp] theorem State.emit_enmob (s : State) (x : Obs) : (s.emit x).enmob = s.enmob := rfl
@[simp] theorem State.emit_iemob (s : State) (x : Obs) : (s.emit x).iemob = s.iemob := rfl
@[simp] theorem State.emit_data (s : State) (x : Obs) : (s.emit x).data = s.data := rfl
@[simp] theorem State.emit_gie (s : State) (x : Obs) : (s.emit x).gie = s.gie := rfl
@[simp] theorem State.emit_reg (s : State) (x : Obs) : (s.emit x).reg = s.reg := rfl
@[simp] theorem State.emit_boc (s : State) (x : Obs) : (s.emit x).boc = s.boc := rfl
@[simp] theorem State.emit_init (s : State) (x : Obs) : (s.emit x).init = s.init := rfl
@[simp] theorem State.emit_d (s : State) (x : Obs) : (s.emit x).d = s.d := rfl
@[simp] theorem State.emit_fgi (s : State) (x : Obs) : (s.emit x).fgi = s.fgi := rfl
@[simp] theorem State.emit_res (s : State) (x : Obs) : (s.emit x).res = s.res := rfl
@[simp] theorem State.emit_disp (s : State) (x : Obs) : (s.emit x).disp = s.disp := rfl
@[simp] theorem State.emit_obs (s : State) (x : Obs) : (s.emit x).obs = s.obs ++ [x] := rfl
@[simp] theorem State.emit_mark (s : State) (x : Obs) : (s.emit x).mark = s.mark := rfl
@[simp] theorem State.emit_env (s : State) (x : Obs) : (s.emit x).env = s.env := rfl

@[simp] theorem State.setMark_g (s : State) (x : Mark) : (s.setMark x).g = s.g := rfl
@[simp] theorem State.setMark_m (s : State) (x : Mark) : (s.setMark x).m = s.m := rfl
@[simp] theorem State.setMark_enmob (s : State) (x : Mark) : (s.setMark x).enmob = s.enmob := rfl
@[simp] theorem State.setMark_iemob (s : State) (x : Mark) : (s.setMark x).iemob = s.iemob := rfl
@[simp] theorem State.setMark_data (s : State) (x : Mark) : (s.setMark x).data = s.data := rfl
@[simp] theorem State.setMark_gie (s : State) (x : Mark) : (s.setMark x).gie = s.gie := rfl
@[simp] theorem State.setMark_reg (s : State) (x : Mark) : (s.setMark x).reg = s.reg := rfl
@[simp] theorem State.setMark_boc (s : State) (x : Mark) : (s.setMark x).boc = s.boc := rfl
@[simp] theorem State.setMark_init (s : State) (x : Mark) : (s.setMark x).init = s.init := rfl
@[simp] theorem State.setMark_d (s : State) (x : Mark) : (s.setMark x).d = s.d := rfl
@[simp] theorem State.setMark_fgi (s : State) (x : Mark) : (s.setMark x).fgi = s.fgi := rfl
@[simp] theorem State.setMark_res (s : State) (x : Mark) : (s.setMark x).res = s.res := rfl
@[simp] theorem State.setMark_disp (s : State) (x : Mark) : (s.setMark x).disp = s.disp := rfl
@[simp] theorem State.setMark_obs (s : State) (x : Mark) : (s.setMark x).obs = s.obs := rfl
@[simp] theorem State.setMark_mark (s : State) (x : Mark) : (s.setMark x).mark = some x := rfl
@[simp] theorem State.setMark_env (s : State) (x : Mark) : (s.setMark x).env = s.env := rfl

@[simp] theorem State.setEnv_g (s : State) (x : Env) : (s.setEnv x).g = s.g := rfl
@[simp] theorem State.setEnv_m (s : State) (x : Env) : (s.setEnv x).m = s.m := rfl
@[simp] theorem State.setEnv_enmob (s : State) (x : Env) : (s.setEnv x).enmob = s.enmob := rfl
@[simp] theorem State.setEnv_iemob (s : State) (x : Env) : (s.setEnv x).iemob = s.iemob := rfl
@[simp] theorem State.setEnv_data (s : State) (x : Env) : (s.setEnv x).data = s.data := rfl
@[simp] theorem State.setEnv_gie (s : State) (x : Env) : (s.setEnv x).gie = s.gie := rfl
@[simp] theorem State.setEnv_reg (s : State) (x : Env) : (s.setEnv x).reg = s.reg := rfl
@[simp] theorem State.setEnv_boc (s : State) (x : Env) : (s.setEnv x).boc = s.boc := rfl
@[simp] theorem State.setEnv_init (s : State) (x : Env) : (s.setEnv x).init = s.init := rfl
@[simp] theorem State.setEnv_d (s : State) (x : Env) : (s.setEnv x).d = s.d := rfl
@[simp] theorem State.setEnv_fgi (s : State) (x : Env) : (s.setEnv x).fgi = s.fgi := rfl
@[simp] theorem State.setEnv_res (s : State) (x : Env) : (s.setEnv x).res = s.res := rfl
@[simp] theorem State.setEnv_disp (s : State) (x : Env) : (s.setEnv x).disp = s.disp := rfl
@[simp] theorem State.setEnv_obs (s : State) (x : Env) : (s.setEnv x).obs = s.obs := rfl
@[simp] theorem State.setEnv_mark (s : State) (x : Env) : (s.setEnv x).mark = s.mark := rfl
@[simp] theorem State.setEnv_env (s : State) (x : Env) : (s.setEnv x).env = x := rfl

end Sys2Proof.Machine
end

