-- ==== Sys2Proof/Laws/Ops.lean ====
section
/-! SUPPORT. What each register primitive does, said once (20_memory.md R43-R49): the record update it amounts to. -/

namespace Sys2Proof.Machine

/-! ### Outcomes -/

@[simp] theorem chain_next (s : State) (k : State → Out) : chain (.next s) k = k s := rfl
@[simp] theorem chain_fault (f : Fault) (k : State → Out) : chain (.fault f) k = .fault f := rfl
@[simp] theorem chain_refused (r : Refusal) (k : State → Out) : chain (.refused r) k = .refused r := rfl
@[simp] theorem orFault_ok {α : Type} (a : α) (k : α → Out) : orFault (.ok a) k = k a := rfl
@[simp] theorem orFault_error {α : Type} (f : Fault) (k : α → Out) : orFault (.error f) k = .fault f := rfl

/-- A chain answers a next state exactly where both parts do. -/
theorem chain_eq_next {o : Out} {k : State → Out} {t : State} :
    chain o k = .next t ↔ ∃ s, o = .next s ∧ k s = .next t := by
  cases o <;> simp [chain]

/-- A primitive followed by a meaning answers a next state exactly where the primitive answers. -/
theorem orFault_eq_next {α : Type} {e : Except Fault α} {k : α → Out} {t : State} :
    orFault e k = .next t ↔ ∃ a, e = .ok a ∧ k a = .next t := by
  cases e <;> simp [orFault]

/-! ### Slots and the page -/

theorem slotOf_eq_some {v : Byte} {k : SlotIx} : slotOf v = some k ↔ v.toNat = k.val := by
  unfold slotOf
  split
  · simp [Fin.ext_iff]
  · simp; omega

theorem slotOf_eq_none {v : Byte} : slotOf v = none ↔ 6 ≤ v.toNat := by
  unfold slotOf
  split <;> simp <;> omega

theorem mem_slots (k : SlotIx) : k ∈ slots := by revert k; decide

@[simp] theorem slots_any (p : SlotIx → Bool) : slots.any p = true ↔ ∃ k, p k = true := by
  constructor
  · intro h
    obtain ⟨k, -, hk⟩ := List.any_eq_true.mp h
    exact ⟨k, hk⟩
  · rintro ⟨k, hk⟩
    exact List.any_eq_true.mpr ⟨k, mem_slots k, hk⟩

/-- The page byte that selects slot `k`. -/
def pageOf (k : SlotIx) : Byte := BitVec.ofNat 4 k.val ++ 0b0000#4

theorem slotOf_mobnb_pageOf (k : SlotIx) : slotOf ((mobnb (pageOf k)).setWidth 8) = some k := by revert k; decide
@[simp] theorem ainc_pageOf (k : SlotIx) : ainc (pageOf k) = false := by revert k; decide
@[simp] theorem indx_pageOf (k : SlotIx) : indx (pageOf k) = 0 := by revert k; decide

/-! ### The stored values -/

@[simp] theorem and_255 (v : Byte) : v &&& 255#8 = v := by revert v; decide

theorem store_rw (old v : Byte) : accessStore (gAccess .gie) old v = v := by
  simp [accessStore, gAccess]

theorem mStore_rw (r : MReg) (h : r ≠ .stmob) (old v : Byte) : accessStore (mAccess r) old v = v := by
  cases r <;> first
    | exact absurd rfl h
    | simp [accessStore, mAccess]

theorem mKeep_rw (r : MReg) (h : r ≠ .stmob) (old : Byte) : accessKeep (mAccess r) old = old := by
  cases r <;> first
    | exact absurd rfl h
    | simp [accessKeep, mAccess]

theorem mStore_stmob (old v : Byte) : accessStore (mAccess .stmob) old v = old &&& v := by
  simp [accessStore, mAccess]

theorem mRead_eq (r : MReg) (old d : Byte) : accessRead (mAccess r) old d = old := by
  cases r <;> simp [accessRead, mAccess]

/-- A per-slot register reads its stored value: none of its bits is ND. -/
@[simp] theorem State.readM_eq (s : State) (k : SlotIx) (r : MReg) : s.readM k r = s.m[k].get r := by
  simp [State.readM, mRead_eq]

theorem store_page (old v : Byte) : accessStore (gAccess .page) old v = v := store_rw old v
theorem keep_page (old : Byte) : accessKeep (gAccess .page) old = old := by
  simp [accessKeep, gAccess]

/-! ### The global registers -/

@[simp] theorem State.writeG_gie (s : State) (v : Byte) : s.writeG .gie v = s.setG { s.g with gie := v } := by
  simp only [State.writeG, State.storeG, State.hwG, store_rw]; rfl

@[simp] theorem State.writeG_bt1 (s : State) (v : Byte) : s.writeG .bt1 v = s.setG { s.g with bt1 := v } := by
  simp only [State.writeG, State.storeG, State.hwG, show gAccess .bt1 = gAccess .gie from rfl, store_rw]; rfl

@[simp] theorem State.writeG_bt2 (s : State) (v : Byte) : s.writeG .bt2 v = s.setG { s.g with bt2 := v } := by
  simp only [State.writeG, State.storeG, State.hwG, show gAccess .bt2 = gAccess .gie from rfl, store_rw]; rfl

@[simp] theorem State.writeG_bt3 (s : State) (v : Byte) : s.writeG .bt3 v = s.setG { s.g with bt3 := v } := by
  simp only [State.writeG, State.storeG, State.hwG, show gAccess .bt3 = gAccess .gie from rfl, store_rw]; rfl

@[simp] theorem State.writeG_page (s : State) (v : Byte) : s.writeG .page v = s.setG { s.g with page := v } := by
  simp only [State.writeG, State.storeG, State.hwG, store_page]; rfl

/-- The W1C register: a one clears its bit, bit 7 is read-only (20_memory.md R47). -/
@[simp] theorem State.writeG_git (s : State) (v : Byte) :
    s.writeG .git v = s.setG { s.g with git := s.g.git &&& (~~~v ||| 0x80#8) } := by
  have h : accessStore (gAccess .git) s.g.git v = s.g.git &&& (~~~v ||| 0x80#8) := by
    generalize s.g.git = old
    apply BitVec.eq_of_getLsbD_eq
    intro i hi
    interval_cases i <;> simp [accessStore, gAccess]
  simp only [State.writeG, State.storeG, State.hwG, Globals.get, h]; rfl

/-- `G.GCON.SWRES <- 1` is the software reset (20_memory.md R49). -/
@[simp] theorem State.writeGField_swres (s : State) : s.writeGField .gcon fSWRES 1#8 = s.softwareReset := by
  have h : ∀ old : Byte, (fieldInsert fSWRES (accessKeep (gAccess .gcon) old) 1#8).getLsbD 0 = true := by decide
  simp only [State.writeGField, State.writeG, Globals.get, h, if_true]
  by_cases he : enastb (fieldInsert fSWRES (accessKeep (gAccess .gcon) s.g.gcon) 1#8) <;> simp only [he] <;> rfl

/-- Setting TTC with the node enable unchanged; an unset `ENASTB` holds `ENFG` at 0 (20_memory.md R43). -/
theorem State.writeGField_ttc (s : State) :
    s.writeGField .gcon fTTC 1#8 = s.setG { s.g with
      gcon := (s.g.gcon &&& 0xFE#8) ||| 0x20#8
      gsta := if enastb s.g.gcon then s.g.gsta else s.g.gsta &&& 0xFB#8 } := by
  have h0 : ∀ old : Byte, (fieldInsert fTTC (accessKeep (gAccess .gcon) old) 1#8).getLsbD 0 = false := by decide
  have h1 : ∀ old : Byte, enastb (fieldInsert fTTC (accessKeep (gAccess .gcon) old) 1#8) = enastb old := by decide
  have h2 : ∀ old : Byte, accessStore (gAccess .gcon) old (fieldInsert fTTC (accessKeep (gAccess .gcon) old) 1#8)
      = (old &&& 0xFE#8) ||| 0x20#8 := by decide
  have h3 : ∀ old : Byte, fieldInsert fENFG old 0 = old &&& 0xFB#8 := by decide
  simp only [State.writeGField, State.writeG, Globals.get, h0, h1, State.storeG, State.hwG, h2, h3]
  by_cases he : enastb s.g.gcon <;> simp only [he] <;> rfl

/-- Setting ENASTB leaves ENFG as it is (20_memory.md R43). -/
theorem State.writeGField_enastb (s : State) :
    s.writeGField .gcon fENASTB 1#8 = s.setG { s.g with gcon := (s.g.gcon &&& 0xFE#8) ||| 0x02#8 } := by
  have h0 : ∀ old : Byte, (fieldInsert fENASTB (accessKeep (gAccess .gcon) old) 1#8).getLsbD 0 = false := by decide
  have h1 : ∀ old : Byte, enastb (fieldInsert fENASTB (accessKeep (gAccess .gcon) old) 1#8) = true := by decide
  have h2 : ∀ old : Byte, accessStore (gAccess .gcon) old (fieldInsert fENASTB (accessKeep (gAccess .gcon) old) 1#8)
      = (old &&& 0xFE#8) ||| 0x02#8 := by decide
  simp only [State.writeGField, State.writeG, Globals.get, h0, h1, State.storeG, State.hwG, h2, if_true]
  rfl

theorem keep_gie (old : Byte) : accessKeep (gAccess .gie) old = old := keep_page old

/-- A field of G.GIE set to 1 (10_state.md R18). -/
theorem State.writeGField_gie (s : State) (f : Field) (v : Byte) :
    s.writeGField .gie f v = s.setG { s.g with gie := fieldInsert f s.g.gie v } := by
  simp [State.writeGField, Globals.get, keep_gie]

/-- A field of G.PAGE (10_state.md R20). -/
theorem State.writeGField_page (s : State) (f : Field) (v : Byte) :
    s.writeGField .page f v = s.setG { s.g with page := fieldInsert f s.g.page v } := by
  simp [State.writeGField, Globals.get, keep_page]

@[simp] theorem fieldInsert_enit (v : Byte) : fieldInsert fENIT v 1#8 = v ||| 0x80#8 := by revert v; decide
@[simp] theorem fieldInsert_enrx (v : Byte) : fieldInsert fENRX v 1#8 = v ||| 0x20#8 := by revert v; decide
@[simp] theorem fieldInsert_entx (v : Byte) : fieldInsert fENTX v 1#8 = v ||| 0x10#8 := by revert v; decide
@[simp] theorem fieldInsert_enfg (v : Byte) : fieldInsert fENFG v 1#8 = v ||| 0x04#8 := by revert v; decide
@[simp] theorem fieldInsert_boff (v : Byte) : fieldInsert fBOFF v 1#8 = v ||| 0x02#8 := by revert v; decide
@[simp] theorem fieldInsert_boffit (v : Byte) : fieldInsert fBOFFIT v 1#8 = v ||| 0x40#8 := by revert v; decide
@[simp] theorem fieldInsert_txok (v : Byte) : fieldInsert fTXOK v 1#8 = v ||| 0x40#8 := by revert v; decide
@[simp] theorem fieldInsert_rxok (v : Byte) : fieldInsert fRXOK v 1#8 = v ||| 0x20#8 := by revert v; decide
@[simp] theorem fieldInsert_indx_zero (v : Byte) : fieldInsert fINDX v 0#8 = v &&& 0xF8#8 := by revert v; decide

/-- ENFG as the wait reads it is the stored bit (10_state.md R16). -/
@[simp] theorem enfg_readG (s : State) : enfg (s.readG .gsta) = enfg s.g.gsta := by
  simp [enfg, State.readG, accessRead, gAccess, Globals.get]

/-- BOFFIT as the dispatcher reads it is the stored bit (10_state.md R17). -/
@[simp] theorem boffit_readG (s : State) : boffit (s.readG .git) = boffit s.g.git := by
  unfold boffit State.readG
  split <;> simp_all [accessRead, gAccess, Globals.get]
  split <;> simp

/-! ### The software reset and the wait -/

/-- The software reset in one update (20_memory.md R49). -/
theorem State.softwareReset_eq (s : State) :
    s.softwareReset = { s with
      g := { s.g with gcon := 0, gsta := 0, git := 0 }
      enmob := if s.env.params.swresDisengages then Vector.replicate 6 false else s.enmob } := by
  have h : ∀ b : Bank Bool, bankSet (bankSet (bankSet (bankSet (bankSet (bankSet b 0 false) 1 false) 2 false) 3 false)
      4 false) 5 false = Vector.replicate 6 false := by
    intro b
    apply Vector.ext
    intro i hi
    interval_cases i <;> simp [bankSet]
  unfold State.softwareReset
  split
  · simp [slots, State.setEnmob, State.setG, h]
  · simp [State.setG]

/-- The node-enable wait in one update (41_controller_init.md R90). -/
theorem State.nodeEnableWait_eq (s : State) :
    s.nodeEnableWait = s.setG { s.g with
      gsta := if enfg s.g.gsta || s.env.draws.wait == .enabled then s.g.gsta ||| 0x04#8 else s.g.gsta } := by
  have h : ∀ v : Byte, enfg v = true → v ||| 0x04#8 = v := by decide
  unfold State.nodeEnableWait
  rw [enfg_readG]
  by_cases he : enfg s.g.gsta
  · have := h _ he
    simp only [he, Bool.true_or, if_true, this]
    rfl
  · cases hw : s.env.draws.wait <;> simp [he, State.setG, State.hwG, Globals.put]

/-! ### The per-slot registers -/

@[simp] theorem State.selectPage_eq (s : State) (k : SlotIx) :
    s.selectPage k = s.setG { s.g with page := pageOf k } := by
  simp [State.selectPage, pageOf]

@[simp] theorem State.selected_setG_pageOf (s : State) (g : Globals) (k : SlotIx) (h : g.page = pageOf k) :
    (s.setG g).selected = some k := by
  simp [State.selected, h, slotOf_mobnb_pageOf]

/-- A software write of a register other than CDMOB and STMOB stores the value. -/
theorem State.writeM_rw (s : State) (k : SlotIx) (r : MReg) (v : Byte) (h : r ≠ .stmob) (hc : r ≠ .cdmob) :
    s.writeM k r v = s.setMob k (s.m[k].put r v) := by
  simp only [State.writeM, mStore_rw r h, State.hwM]

@[simp] theorem State.writeM_idt1 (s : State) (k : SlotIx) (v : Byte) :
    s.writeM k .idt1 v = s.setMob k { s.m[k] with idt1 := v } := State.writeM_rw s k .idt1 v (by decide) (by decide)

@[simp] theorem State.writeM_idt2 (s : State) (k : SlotIx) (v : Byte) :
    s.writeM k .idt2 v = s.setMob k { s.m[k] with idt2 := v } := State.writeM_rw s k .idt2 v (by decide) (by decide)

@[simp] theorem State.writeM_idt4 (s : State) (k : SlotIx) (v : Byte) :
    s.writeM k .idt4 v = s.setMob k { s.m[k] with idt4 := v } := State.writeM_rw s k .idt4 v (by decide) (by decide)

@[simp] theorem State.writeM_idm1 (s : State) (k : SlotIx) (v : Byte) :
    s.writeM k .idm1 v = s.setMob k { s.m[k] with idm1 := v } := State.writeM_rw s k .idm1 v (by decide) (by decide)

@[simp] theorem State.writeM_idm2 (s : State) (k : SlotIx) (v : Byte) :
    s.writeM k .idm2 v = s.setMob k { s.m[k] with idm2 := v } := State.writeM_rw s k .idm2 v (by decide) (by decide)

@[simp] theorem State.writeM_idm4 (s : State) (k : SlotIx) (v : Byte) :
    s.writeM k .idm4 v = s.setMob k { s.m[k] with idm4 := v } := State.writeM_rw s k .idm4 v (by decide) (by decide)

/-- A software write of CDMOB stores the value and sets the engaged bit (10_state.md R30 (a)). -/
@[simp] theorem State.writeM_cdmob (s : State) (k : SlotIx) (v : Byte) :
    s.writeM k .cdmob v = (s.setMob k { s.m[k] with cdmob := v }).setEnmob k (conmob v != 0) := by
  simp only [State.writeM, mStore_rw .cdmob (by decide), State.hwM]; rfl

/-- A software write of STMOB clears the bits written 0 (10_state.md R27). -/
@[simp] theorem State.writeM_stmob (s : State) (k : SlotIx) (v : Byte) :
    s.writeM k .stmob v = s.setMob k { s.m[k] with stmob := s.m[k].stmob &&& v } := by
  simp only [State.writeM, mStore_stmob, State.hwM]; rfl

/-- A field of CDMOB written by software. -/
theorem State.writeMField_cdmob (s : State) (k : SlotIx) (f : Field) (v : Byte) :
    s.writeMField k .cdmob f v = (s.setMob k { s.m[k] with cdmob := fieldInsert f s.m[k].cdmob v }).setEnmob k
      (conmob (fieldInsert f s.m[k].cdmob v) != 0) := by
  simp [State.writeMField, mKeep_rw, Mob.get]

/-- CDMOB with CONMOB replaced. -/
def withConmob (cd : Byte) (c : BitVec 2) : Byte := c ++ cd.extractLsb' 0 6

/-- CDMOB with DLC replaced. -/
def withDlc (cd : Byte) (n : BitVec 4) : Byte := cd.extractLsb' 4 4 ++ n

theorem fieldInsert_conmob : ∀ (cd : Byte) (c : BitVec 2), fieldInsert fCONMOB cd (c.setWidth 8) = withConmob cd c := by
  decide

theorem conmob_withConmob : ∀ (cd : Byte) (c : BitVec 2), conmob (withConmob cd c) = c := by decide
theorem rplv_withConmob : ∀ (cd : Byte) (c : BitVec 2), rplv (withConmob cd c) = rplv cd := by decide
theorem ide_withConmob : ∀ (cd : Byte) (c : BitVec 2), ide (withConmob cd c) = ide cd := by decide
theorem dlc_withConmob : ∀ (cd : Byte) (c : BitVec 2), dlc (withConmob cd c) = dlc cd := by decide

theorem fieldInsert_dlc : ∀ (cd : Byte) (n : BitVec 4), fieldInsert fDLC cd (n.setWidth 8) = withDlc cd n := by decide
theorem dlc_withDlc : ∀ (cd : Byte) (n : BitVec 4), dlc (withDlc cd n) = n := by decide
theorem conmob_withDlc : ∀ (cd : Byte) (n : BitVec 4), conmob (withDlc cd n) = conmob cd := by decide

/-- A write through the page reaches the selected slot's status (20_memory.md R46). -/
theorem State.stClear_eq (s : State) (k : SlotIx) (mask : Byte) (h : s.selected = some k) :
    s.stClear mask = .ok (s.setMob k { s.m[k] with stmob := s.m[k].stmob &&& ~~~mask }) := by
  simp [State.stClear, State.regWrite, h]

/-- Under a page of 6-15 a status clear faults (10_state.md R20). -/
theorem State.stClear_fault (s : State) (mask : Byte) (h : s.selected = none) :
    s.stClear mask = .error .pageRange := by
  simp [State.stClear, State.regWrite, h]

end Sys2Proof.Machine
end

