-- ==== Sys2Proof/Laws/Memory.lean ====
section
/-! SUPPORT. The laws of the message-buffer memory and of the descriptor store: read after write, the canonical forms
kept, the set of handles kept. -/

namespace Sys2Proof.Machine

/-! ### Memory -/

theorem memRead_memCons_ne (a x : Nat) (b : Byte) (m : Memory) (h : x ≠ a) :
    memRead (memCons a b m) x = memRead m x := by
  unfold memCons
  split
  · rfl
  · simp [memRead, Ne.symm h]

/-- A write leaves every other address alone, in any list. -/
theorem memRead_memWrite_ne (m : Memory) (a x : Nat) (b : Byte) (h : x ≠ a) :
    memRead (memWrite m a b) x = memRead m x := by
  induction m with
  | nil => simp [memWrite, memRead_memCons_ne _ _ _ _ h]
  | cons c m ih =>
    simp only [memWrite]
    split
    · rw [memRead_memCons_ne _ _ _ _ h]
    · split
      · rename_i h2
        rw [memRead_memCons_ne _ _ _ _ h]
        simp [memRead, ← h2, Ne.symm h]
      · simp only [memRead, ih]

/-- Below the bound of a canonical list nothing is listed. -/
theorem memRead_below (m : Memory) (lo x : Nat) (hw : memWfFrom lo m) (h : x < lo) : memRead m x = unwrittenByte := by
  induction m generalizing lo with
  | nil => rfl
  | cons c m ih =>
    simp only [memWfFrom, Bool.and_eq_true, decide_eq_true_eq] at hw
    have hne : c.1 ≠ x := by omega
    simp only [memRead, hne, if_false]
    exact ih _ hw.2 (by omega)

theorem memRead_memCons_same (a : Nat) (b : Byte) (m : Memory) (h : memRead m a = unwrittenByte) :
    memRead (memCons a b m) a = b := by
  unfold memCons
  split
  · simp_all
  · simp [memRead]

/-- A read after a write to the same address gives the byte written. -/
theorem memRead_memWrite_same (m : Memory) (lo a : Nat) (b : Byte) (hw : memWfFrom lo m) :
    memRead (memWrite m a b) a = b := by
  induction m generalizing lo with
  | nil => exact memRead_memCons_same a b [] rfl
  | cons c m ih =>
    have hw' := hw
    simp only [memWfFrom, Bool.and_eq_true, decide_eq_true_eq] at hw
    simp only [memWrite]
    split
    · rename_i h1
      apply memRead_memCons_same
      refine memRead_below (c :: m) c.1 a ?_ h1
      simp only [memWfFrom, Bool.and_eq_true, decide_eq_true_eq]
      exact ⟨⟨⟨le_refl _, hw.1.1.2⟩, hw.1.2⟩, hw.2⟩
    · split
      · rename_i h2
        apply memRead_memCons_same
        exact memRead_below m (c.1 + 1) a hw.2 (by omega)
      · rename_i h1 h2
        simp only [memRead, show ¬ c.1 = a from fun e => h2 e.symm, if_false]
        exact ih _ hw.2

theorem memWfFrom_mono (m : Memory) (lo lo' : Nat) (hw : memWfFrom lo m) (h : lo' ≤ lo) : memWfFrom lo' m := by
  cases m with
  | nil => rfl
  | cons c m =>
    simp only [memWfFrom, Bool.and_eq_true, decide_eq_true_eq] at hw ⊢
    exact ⟨⟨⟨by omega, hw.1.1.2⟩, hw.1.2⟩, hw.2⟩

theorem memCons_wf (lo a : Nat) (b : Byte) (m : Memory) (hw : memWfFrom (a + 1) m) (hl : lo ≤ a) (ha : a < 48) :
    memWfFrom lo (memCons a b m) := by
  unfold memCons
  split
  · exact memWfFrom_mono m (a + 1) lo hw (by omega)
  · rename_i hb
    simp only [memWfFrom, Bool.and_eq_true, decide_eq_true_eq, bne_iff_ne]
    exact ⟨⟨⟨hl, ha⟩, hb⟩, hw⟩

/-- A write keeps the canonical form. -/
theorem memWrite_wfFrom (m : Memory) (lo a : Nat) (b : Byte) (hw : memWfFrom lo m) (hl : lo ≤ a) (ha : a < 48) :
    memWfFrom lo (memWrite m a b) := by
  induction m generalizing lo with
  | nil => exact memCons_wf lo a b [] rfl hl ha
  | cons c m ih =>
    have hw' := hw
    simp only [memWfFrom, Bool.and_eq_true, decide_eq_true_eq] at hw
    simp only [memWrite]
    split
    · apply memCons_wf lo a b _ _ hl ha
      simp only [memWfFrom, Bool.and_eq_true, decide_eq_true_eq]
      exact ⟨⟨⟨by omega, hw.1.1.2⟩, hw.1.2⟩, hw.2⟩
    · split
      · rename_i h2
        apply memCons_wf lo a b _ _ hl ha
        rw [h2]; exact hw.2
      · simp only [memWfFrom, Bool.and_eq_true, decide_eq_true_eq]
        exact ⟨hw.1, ih _ hw.2 (by omega)⟩

theorem memWrite_wf (m : Memory) (a : Nat) (b : Byte) (hw : Memory.wf m) (ha : a < 48) :
    Memory.wf (memWrite m a b) := memWrite_wfFrom m 0 a b hw (Nat.zero_le a) ha

/-- The message buffers at reset are in canonical form: nothing is listed. -/
theorem reset_data_wf : Memory.wf State.reset.data = true := rfl

theorem dataAddr_lt (k : SlotIx) (i : BitVec 3) : dataAddr k i < 48 := by
  have := k.isLt; have := i.isLt; unfold dataAddr; omega

/-- Different places of the message buffers have different addresses. -/
theorem dataAddr_inj (k k' : SlotIx) (i i' : BitVec 3) : dataAddr k i = dataAddr k' i' ↔ k = k' ∧ i = i' := by
  have := i.isLt; have := i'.isLt
  constructor
  · intro h
    unfold dataAddr at h
    exact ⟨Fin.ext (by omega), BitVec.eq_of_toNat_eq (by omega)⟩
  · rintro ⟨rfl, rfl⟩; rfl

/-- The memory after a run of message writes from index `i` on. -/
def writeRun (m : Memory) (k : SlotIx) (i : BitVec 3) : List Byte → Memory
  | [] => m
  | b :: bs => writeRun (memWrite m (dataAddr k i) b) k (i + 1) bs

theorem writeRun_wf (m : Memory) (k : SlotIx) (i : BitVec 3) (bs : List Byte) (hw : Memory.wf m) :
    Memory.wf (writeRun m k i bs) := by
  induction bs generalizing m i with
  | nil => exact hw
  | cons b bs ih => exact ih _ _ (memWrite_wf m _ b hw (dataAddr_lt k i))

/-- A run of message writes that does not wrap: the run's bytes, and every other address as before. -/
theorem memRead_writeRun (m : Memory) (k : SlotIx) (i : BitVec 3) (bs : List Byte) (hw : Memory.wf m)
    (hl : i.toNat + bs.length ≤ 8) (x : Nat) :
    memRead (writeRun m k i bs) x
      = if dataAddr k i ≤ x then (bs[x - dataAddr k i]?).getD (memRead m x) else memRead m x := by
  induction bs generalizing m i with
  | nil => simp [writeRun]
  | cons b bs ih =>
    simp only [writeRun]
    simp only [List.length_cons] at hl
    by_cases hz : bs = []
    · subst hz
      simp only [writeRun]
      by_cases hx : x = dataAddr k i
      · subst hx
        simp [memRead_memWrite_same m 0 _ b hw]
      · rw [memRead_memWrite_ne m _ _ b hx]
        split
        · have hne : x - dataAddr k i ≠ 0 := by omega
          obtain ⟨j, hj⟩ := Nat.exists_eq_succ_of_ne_zero hne
          simp [hj]
        · rfl
    · have hpos : 0 < bs.length := List.length_pos_iff.mpr hz
      have hi : (i + 1).toNat = i.toNat + 1 := by
        rw [BitVec.toNat_add]; simp; omega
      have ha : dataAddr k (i + 1) = dataAddr k i + 1 := by unfold dataAddr; omega
      rw [ih _ _ (memWrite_wf m _ b hw (dataAddr_lt k i)) (by omega), ha]
      by_cases h1 : dataAddr k i + 1 ≤ x
      · have h2 : x - dataAddr k i = (x - (dataAddr k i + 1)) + 1 := by omega
        simp only [h1, if_true, show dataAddr k i ≤ x by omega, h2, List.getElem?_cons_succ]
        rw [memRead_memWrite_ne m _ _ b (by omega)]
      · by_cases h2 : x = dataAddr k i
        · subst h2
          simp [memRead_memWrite_same m 0 _ b hw]
        · simp only [h1, if_false, show ¬ dataAddr k i ≤ x by omega]
          rw [memRead_memWrite_ne m _ _ b h2]

/-! ### Descriptors -/

/-- A descriptor read after an update of a handle. -/
theorem descAt_descUpdate (d : DescStore) (h x : Handle) (f : Desc → Desc) :
    descAt (descUpdate d h f) x = if x = h then (descAt d x).map f else descAt d x := by
  induction d with
  | nil => simp [descUpdate, descAt]
  | cons p d ih =>
    have hc : descUpdate (p :: d) h f = (if p.1 = h then (p.1, f p.2) else p) :: descUpdate d h f := rfl
    rw [hc]
    by_cases hp : p.1 = h
    · simp only [hp, if_true, descAt]
      by_cases hx : h = x
      · simp [hx]
      · simp only [hx, if_false, ih, Ne.symm hx]
    · simp only [hp, if_false, descAt]
      by_cases hx : p.1 = x
      · have : x ≠ h := fun e => hp (hx.trans e)
        simp [hx, this]
      · simp only [hx, if_false, ih]

@[simp] theorem descHandles_descUpdate (d : DescStore) (h : Handle) (f : Desc → Desc) :
    descHandles (descUpdate d h f) = descHandles d := by
  simp only [descHandles, descUpdate, List.map_map]
  apply List.map_congr_left
  intro p _
  simp only [Function.comp]
  split <;> rfl

/-- The canonical form depends on the handles alone. -/
theorem descWf_eq_of_handles (d e : DescStore) (h : descHandles d = descHandles e) : descWf d = descWf e := by
  induction d generalizing e with
  | nil => cases e <;> simp_all [descHandles]
  | cons p d ih =>
    cases e with
    | nil => simp [descHandles] at h
    | cons q e =>
      simp only [descHandles, List.map_cons, List.cons.injEq] at h
      have := ih e h.2
      cases d with
      | nil => cases e <;> simp_all [descWf]
      | cons p2 d =>
        cases e with
        | nil => simp at h
        | cons q2 e =>
          simp only [List.map_cons, List.cons.injEq] at h
          simp only [descWf, h.1, h.2.1, this]

@[simp] theorem descWf_descUpdate (d : DescStore) (h : Handle) (f : Desc → Desc) :
    descWf (descUpdate d h f) = descWf d := descWf_eq_of_handles _ _ (descHandles_descUpdate d h f)

theorem descUpdate_descUpdate (d : DescStore) (h : Handle) (f g : Desc → Desc) :
    descUpdate (descUpdate d h f) h g = descUpdate d h (fun x => g (f x)) := by
  simp only [descUpdate, List.map_map]
  apply List.map_congr_left
  intro p _
  simp only [Function.comp]
  split <;> simp_all

end Sys2Proof.Machine
end

