-- ==== Sys2Proof/Laws/Message.lean ====
section
/-! SUPPORT. What runs of message reads and writes do (20_memory.md R45), and when a descriptor operand is accepted
(42_configurator.md R97). -/

namespace Sys2Proof.Machine

/-- PAGE with INDX replaced. -/
def withIndx (p : Byte) (i : BitVec 3) : Byte := p.extractLsb' 3 5 ++ i

theorem fieldInsert_indx : ∀ (p : Byte) (i : BitVec 3), fieldInsert fINDX p (i.setWidth 8) = withIndx p i := by decide
@[simp] theorem mobnb_withIndx : ∀ (p : Byte) (i : BitVec 3), mobnb (withIndx p i) = mobnb p := by decide
@[simp] theorem ainc_withIndx : ∀ (p : Byte) (i : BitVec 3), ainc (withIndx p i) = ainc p := by decide
@[simp] theorem indx_withIndx : ∀ (p : Byte) (i : BitVec 3), indx (withIndx p i) = i := by decide
@[simp] theorem withIndx_withIndx : ∀ (p : Byte) (i : BitVec 3), withIndx (withIndx p i) 0 = withIndx p 0 := by decide
@[simp] theorem withIndx_indx : ∀ p : Byte, withIndx p (indx p) = p := by decide
theorem and_F8_eq : ∀ p : Byte, p &&& 0xF8#8 = withIndx p 0 := by decide

theorem withIndx_twice (p : Byte) (i j : BitVec 3) : withIndx (withIndx p i) j = withIndx p j := by
  have h : ∀ (p : Byte) (i : BitVec 3), (withIndx p i).extractLsb' 3 5 = p.extractLsb' 3 5 := by decide
  show (withIndx p i).extractLsb' 3 5 ++ j = _
  rw [h]
  rfl

/-- With AINC = 0 an access moves the index one further. -/
theorem State.advanceIndex_eq (s : State) (h : ainc s.g.page = false) :
    s.advanceIndex = s.setG { s.g with page := withIndx s.g.page (indx s.g.page + 1) } := by
  simp [State.advanceIndex, h, State.writeGField_page, ← fieldInsert_indx]

theorem State.selected_setG (s : State) (g : Globals) (h : mobnb g.page = mobnb s.g.page) :
    (s.setG g).selected = s.selected := by
  simp [State.selected, h]

@[simp] theorem State.selected_setData (s : State) (m : Memory) : (s.setData m).selected = s.selected := rfl

/-- `n` message reads from the selected slot: its bytes from the index on, and the index moved. -/
theorem State.msgReadMany_eq (s : State) (k : SlotIx) (n : Nat) (hk : s.selected = some k)
    (ha : ainc s.g.page = false) :
    s.msgReadMany n = .ok ((List.range n).map fun j => s.dataByte k (indx s.g.page + BitVec.ofNat 3 j),
      s.setG { s.g with page := withIndx s.g.page (indx s.g.page + BitVec.ofNat 3 n) }) := by
  induction n generalizing s with
  | zero => simp [State.msgReadMany, State.setG]
  | succ n ih =>
    have hs : s.msgRead = .ok (s.dataByte k (indx s.g.page),
        s.setG { s.g with page := withIndx s.g.page (indx s.g.page + 1) }) := by
      simp [State.msgRead, hk, State.advanceIndex_eq s ha]
    have h2 := ih (s.setG { s.g with page := withIndx s.g.page (indx s.g.page + 1) })
      (by rw [State.selected_setG _ _ (by simp)]; exact hk) (by simpa using ha)
    simp only [State.msgReadMany, hs, h2, Except.ok.injEq, Prod.mk.injEq]
    constructor
    · rw [List.range_succ_eq_map, List.map_cons, List.map_map]
      simp only [State.setG_g, indx_withIndx, BitVec.ofNat_eq_ofNat, BitVec.add_zero]
      congr 1
      apply List.map_congr_left
      intro j _
      simp only [Function.comp, State.dataByte, State.setG_data, Nat.succ_eq_add_one, BitVec.ofNat_add]
      congr 2
      rw [BitVec.add_assoc, BitVec.add_comm 1#3]
    · simp only [indx_withIndx, withIndx_twice, State.setG, BitVec.ofNat_add]
      congr 2
      rw [BitVec.add_assoc, BitVec.add_comm (1 : BitVec 3)]
      simp

/-- Under a page of 6-15 a message read faults (10_state.md R20). -/
theorem State.msgReadMany_fault (s : State) (n : Nat) (hk : s.selected = none) :
    s.msgReadMany (n + 1) = .error .pageRange := by
  simp [State.msgReadMany, State.msgRead, hk]

/-- Message writes to the selected slot: the run in memory, and the index moved. -/
theorem State.msgWriteMany_eq (s : State) (k : SlotIx) (bs : List Byte) (hk : s.selected = some k)
    (ha : ainc s.g.page = false) :
    s.msgWriteMany bs = .ok ((s.setData (writeRun s.data k (indx s.g.page) bs)).setG
      { s.g with page := withIndx s.g.page (indx s.g.page + BitVec.ofNat 3 bs.length) }) := by
  induction bs generalizing s with
  | nil => simp [State.msgWriteMany, writeRun, State.setG, State.setData]
  | cons b bs ih =>
    have hs : s.msgWrite b = .ok ((s.setData (memWrite s.data (dataAddr k (indx s.g.page)) b)).setG
        { s.g with page := withIndx s.g.page (indx s.g.page + 1) }) := by
      have ha' : ∀ m, ainc (s.setData m).g.page = false := fun _ => ha
      simp only [State.msgWrite, hk, State.advanceIndex_eq _ (ha' _)]
      rfl
    have h2 := ih ((s.setData (memWrite s.data (dataAddr k (indx s.g.page)) b)).setG
        { s.g with page := withIndx s.g.page (indx s.g.page + 1) })
      (by rw [State.selected_setG _ _ (by simp)]; exact hk) (by simpa using ha)
    simp only [State.msgWriteMany, hs, h2, Except.ok.injEq]
    simp only [State.setG, State.setData, indx_withIndx, withIndx_twice, writeRun, List.length_cons, BitVec.ofNat_add]
    congr 3
    rw [BitVec.add_assoc, BitVec.add_comm (1 : BitVec 3)]
    simp

/-! ### The operand checks -/

/-- `CheckSlot` accepts exactly an initialised controller, a handle of D and a slot number of 0-5. -/
theorem checkSlot_eq_ok {h : Handle} {s : State} {d : Desc} {k : SlotIx} :
    checkSlot h s = .ok (d, k) ↔ s.init = true ∧ descAt s.d h = some d ∧ slotOf d.slotId = some k := by
  unfold checkSlot
  cases hi : s.init
  · simp
  · cases hd : descAt s.d h with
    | none => simp
    | some e =>
      cases hs : slotOf e.slotId with
      | none => simp only [Bool.not_true, Bool.false_eq_true, if_false, hs]; grind
      | some j => simp only [Bool.not_true, Bool.false_eq_true, if_false, hs]; grind

/-- `CheckDesc` accepts what `CheckSlot` accepts, of the right kind. -/
theorem checkDesc_eq_ok {h : Handle} {kind : Kind} {s : State} {d : Desc} {k : SlotIx} :
    checkDesc h kind s = .ok (d, k)
      ↔ s.init = true ∧ descAt s.d h = some d ∧ slotOf d.slotId = some k ∧ d.kind = kind := by
  unfold checkDesc
  cases hc : checkSlot h s with
  | error f =>
    simp only [reduceCtorEq, false_iff]
    rintro ⟨h1, h2, h3, -⟩
    rw [checkSlot_eq_ok.mpr ⟨h1, h2, h3⟩] at hc
    cases hc
  | ok p =>
    obtain ⟨e, j⟩ := p
    have he := checkSlot_eq_ok.mp hc
    simp only
    split
    · rename_i hk
      constructor
      · intro h; cases h; exact ⟨he.1, he.2.1, he.2.2, hk⟩
      · rintro ⟨-, h2, h3, -⟩
        rw [he.2.1] at h2; cases h2
        rw [he.2.2] at h3; cases h3
        rfl
    · rename_i hk
      simp only [reduceCtorEq, false_iff]
      rintro ⟨-, h2, -, h4⟩
      rw [he.2.1] at h2; cases h2
      exact hk h4

end Sys2Proof.Machine
end

