-- ==== Sys2Proof/Laws/Bytes.lean ====
section
/-! SUPPORT. The packed bytes of the model and the arithmetic bytes of Safety are the same. -/

namespace Sys2Proof.Machine

open Sys2Proof.Safety

/-- The wire bytes of an identifier or mask (10_state.md R22). -/
theorem encId_eq (v : Ident) : encId v = (wireHigh v, wireLow v) := by
  have hv := v.isLt
  simp only [encId, wireHigh, wireLow, Prod.mk.injEq]
  constructor
  · apply BitVec.eq_of_toNat_eq
    simp [Nat.shiftRight_eq_div_pow]
  · apply BitVec.eq_of_toNat_eq
    simp only [BitVec.toNat_append, BitVec.extractLsb'_toNat, BitVec.toNat_ofNat, Nat.shiftRight_zero]
    rw [Nat.shiftLeft_eq, Nat.or_zero]
    omega

/-- The identifier of two wire bytes (40_codec.md R81). -/
theorem decId_eq (hi lo : Byte) : decId hi lo = BitVec.ofNat 11 (hi.toNat * 8 + lo.toNat / 32) := by
  have h1 := hi.isLt
  have h2 := lo.isLt
  apply BitVec.eq_of_toNat_eq
  simp only [decId, BitVec.toNat_append, BitVec.extractLsb'_toNat, BitVec.toNat_ofNat, Nat.shiftRight_eq_div_pow]
  rw [← Nat.shiftLeft_add_eq_or_of_lt (by omega), Nat.shiftLeft_eq]
  omega

/-- IDT4 of the control flags (10_state.md R23). -/
theorem encTagFlags_eq (f : ControlFlags) : encTagFlags f = tagByte f := by
  rcases f with ⟨_ | _, _ | _, _ | _, _ | _, _ | _, _ | _⟩ <;> decide

/-- IDM4 of the control flags (10_state.md R25). -/
theorem encMaskFlags_eq (f : ControlFlags) : encMaskFlags f = maskFlagByte f := by
  rcases f with ⟨_ | _, _ | _, _ | _, _ | _, _ | _, _ | _⟩ <;> decide

/-- CDMOB from its fields (10_state.md R26). -/
theorem encCtrl_eq : ∀ (con : BitVec 2) (r i : Bool) (n : BitVec 4),
    encCtrl con r i n = controlByte con.toNat r i n.toNat := by decide

theorem rplv_encControlFlags (f : ControlFlags) : rplv (encControlFlags f) = f.autoReplyValid := by
  rcases f with ⟨_ | _, _ | _, _ | _, _ | _, _ | _, _ | _⟩ <;> rfl

theorem ide_encControlFlags (f : ControlFlags) : ide (encControlFlags f) = f.extendedId := by
  rcases f with ⟨_ | _, _ | _, _ | _, _ | _, _ | _, _ | _⟩ <;> rfl

/-- CDMOB with CONMOB replaced, by fields. -/
theorem withConmob_eq : ∀ (cd : Byte) (c : BitVec 2),
    withConmob cd c = controlByte c.toNat (rplv cd) (ide cd) (dlc cd).toNat := by decide

/-- CDMOB with DLC replaced, by fields. -/
theorem withDlc_eq : ∀ (cd : Byte) (n : BitVec 4),
    withDlc cd n = controlByte (conmob cd).toNat (rplv cd) (ide cd) n.toNat := by decide

theorem rplv_withDlc (cd : Byte) (n : BitVec 4) : rplv (withDlc cd n) = rplv cd := by
  revert cd n; decide

theorem ide_withDlc (cd : Byte) (n : BitVec 4) : ide (withDlc cd n) = ide cd := by
  revert cd n; decide

theorem withConmob_withDlc (cd : Byte) (c : BitVec 2) (n : BitVec 4) :
    withConmob (withDlc cd n) c = controlByte c.toNat (rplv cd) (ide cd) n.toNat := by
  rw [withConmob_eq, rplv_withDlc, ide_withDlc, dlc_withDlc]

theorem withConmob_encCtrl : ∀ (c0 c : BitVec 2) (r i : Bool) (n : BitVec 4),
    withConmob (encCtrl c0 r i n) c = controlByte c.toNat r i n.toNat := by decide

/-- The clamped length (40_codec.md R88). -/
theorem clamp8_eq (x : Byte) : clamp8 x = BitVec.ofNat 8 (minEight x) := by
  revert x; decide

theorem clamp8_toNat (x : Byte) : (clamp8 x).toNat = minEight x := by
  revert x; decide

theorem minEight_le (x : Byte) : minEight x ≤ 8 := Nat.min_le_right _ _

theorem clamp8_low (x : Byte) : ((clamp8 x).extractLsb' 0 4).toNat = minEight x := by
  revert x; decide

/-- The page byte of a slot (10_state.md R20). -/
theorem pageOf_eq (k : SlotIx) : pageOf k = pageByte k 0 := by revert k; decide

theorem withIndx_pageOf (k : SlotIx) (i : Nat) : withIndx (pageOf k) (BitVec.ofNat 3 i) = pageByte k i := by
  have h : ∀ (k : SlotIx) (j : Fin 8), withIndx (pageOf k) (BitVec.ofNat 3 j.val) = pageByte k j.val := by decide
  have hj := h k ⟨i % 8, Nat.mod_lt _ (by decide)⟩
  have e1 : BitVec.ofNat 3 i = BitVec.ofNat 3 (i % 8) := by
    apply BitVec.eq_of_toNat_eq; simp
  have e2 : pageByte k i = pageByte k (i % 8) := by simp [pageByte]
  rw [e1, e2]
  exact hj

/-- A page that selects `k` with AINC = 0, its index replaced. -/
theorem withIndx_selected (p : Byte) (k : SlotIx) (i : Nat) (hk : slotOf ((mobnb p).setWidth 8) = some k)
    (ha : ainc p = false) : withIndx p (BitVec.ofNat 3 i) = pageByte k i := by
  have h : ∀ (p : Byte) (k : SlotIx), slotOf ((mobnb p).setWidth 8) = some k → ainc p = false →
      withIndx p 0 = pageOf k := by decide
  rw [← withIndx_pageOf, ← h p k hk ha, withIndx_twice]

theorem selected_pageByte (s : State) (k : SlotIx) (i : Nat) (hp : s.g.page = pageByte k i) : s.selected = some k := by
  rw [State.selected, hp, ← withIndx_pageOf, mobnb_withIndx, slotOf_mobnb_pageOf]

theorem ainc_pageByte (k : SlotIx) (i : Nat) : ainc (pageByte k i) = false := by
  rw [← withIndx_pageOf, ainc_withIndx, ainc_pageOf]

theorem indx_pageByte (k : SlotIx) (i : Nat) : indx (pageByte k i) = BitVec.ofNat 3 i := by
  rw [← withIndx_pageOf, indx_withIndx]

/-- The slot an event word's three bits name. -/
theorem slotOf_event (k : SlotIx) : slotOf ((BitVec.ofNat 3 k.val).setWidth 8) = some k := by
  revert k; decide

theorem dataAddr_ofNat (k : SlotIx) (i : Nat) (h : i < 8) : dataAddr k (BitVec.ofNat 3 i) = 8 * k.val + i := by
  simp [dataAddr, Nat.mod_eq_of_lt h]

/-- The arming of a slot, in one update (10_state.md R30 (a)). -/
theorem writeConmob_eq (s : State) (k : SlotIx) (c : BitVec 2) :
    s.writeMField k .cdmob fCONMOB (c.setWidth 8)
      = (s.setMob k { s.m[k] with cdmob := withConmob s.m[k].cdmob c }).setEnmob k (c != 0) := by
  rw [State.writeMField_cdmob, fieldInsert_conmob, conmob_withConmob]

end Sys2Proof.Machine
end

