-- ==== Sys2Proof/Laws/Decode.lean ====
section
/-! SUPPORT. The parts of a word, and what the decoders accept, as case lists (30_encoding.md R59-R64). -/

namespace Sys2Proof

/-- A word of a code and an argument. -/
def wordOf (op : Byte) (a : BitVec 24) : Word := op ++ a

theorem encode_eq (i : Instr) : encode i = wordOf (opcode i) (argBits i) := rfl

@[simp] theorem opOf_wordOf (op : Byte) (a : BitVec 24) : opOf (wordOf op a) = op := by
  apply BitVec.eq_of_toNat_eq
  have := a.isLt
  have := op.isLt
  have e : (wordOf op a).toNat = op.toNat <<< 24 ||| a.toNat := BitVec.toNat_append op a
  simp only [opOf, BitVec.extractLsb'_toNat, e]
  rw [← Nat.shiftLeft_add_eq_or_of_lt (by omega), Nat.shiftLeft_eq, Nat.shiftRight_eq_div_pow]
  omega

@[simp] theorem argOf_wordOf (op : Byte) (a : BitVec 24) : argOf (wordOf op a) = a := by
  apply BitVec.eq_of_toNat_eq
  have := a.isLt
  have := op.isLt
  have e : (wordOf op a).toNat = op.toNat <<< 24 ||| a.toNat := BitVec.toNat_append op a
  simp only [argOf, BitVec.extractLsb'_toNat, e]
  rw [← Nat.shiftLeft_add_eq_or_of_lt (by omega), Nat.shiftLeft_eq]
  omega

/-- A word is its code and its argument: no bit lies elsewhere (30_encoding.md R59). -/
theorem wordOf_parts (w : Word) : wordOf (opOf w) (argOf w) = w := by
  apply BitVec.eq_of_toNat_eq
  have := w.isLt
  have e : (wordOf (opOf w) (argOf w)).toNat = (opOf w).toNat <<< 24 ||| (argOf w).toNat :=
    BitVec.toNat_append (opOf w) (argOf w)
  rw [e, ← Nat.shiftLeft_add_eq_or_of_lt (argOf w).isLt, Nat.shiftLeft_eq]
  simp only [opOf, argOf, BitVec.extractLsb'_toNat, Nat.shiftRight_eq_div_pow]
  omega

theorem ite_ok {ε α : Type} {c : Prop} [Decidable c] {a b : Except ε α} {i : α}
    (h : (if c then a else b) = .ok i) : (c ∧ a = .ok i) ∨ (¬ c ∧ b = .ok i) := by
  by_cases hc : c
  · rw [if_pos hc] at h; exact .inl ⟨hc, h⟩
  · rw [if_neg hc] at h; exact .inr ⟨hc, h⟩

/-- What `operation` answers, row by row (30_encoding.md R61). -/
theorem operation_cases {op : Byte} {a : BitVec 24} {i : Instr} (h : operation op a = .ok i) :
    (op = 0x01 ∧ argPreset a ≤ 4 ∧ i = .initCan (argPreset a))
      ∨ (op = 0x02 ∧ i = .cfgRx (argHandle a)) ∨ (op = 0x03 ∧ i = .cfgTx (argHandle a))
      ∨ (op = 0x04 ∧ i = .cfgAuto (argHandle a)) ∨ (op = 0x05 ∧ i = .resume (argHandle a))
      ∨ (op = 0x06 ∧ i = .pause (argHandle a)) ∨ (op = 0x07 ∧ i = .isPaused (argHandle a))
      ∨ (op = 0x08 ∧ i = .status (argHandle a)) ∨ (op = 0x10 ∧ i = .encId (argIdent a))
      ∨ (op = 0x11 ∧ i = .decId (argByte1 a) (argByte0 a)) ∨ (op = 0x12 ∧ i = .encMask (argIdent a))
      ∨ (op = 0x13 ∧ i = .decMask (argByte1 a) (argByte0 a))
      ∨ (op = 0x14 ∧ i = .encFlags (a.getLsbD 0) (a.getLsbD 1) (a.getLsbD 2) (a.getLsbD 3) (a.getLsbD 4) (a.getLsbD 5))
      ∨ (op = 0x15 ∧ i = .decFlags (argByte0 a) (argByte1 a) (argByte2 a)) ∨ (op = 0x16 ∧ i = .classify (argByte0 a))
      ∨ (op = 0x20 ∧ i = .sei) ∨ (op = 0x21 ∧ i = .cli) := by
  unfold operation at h
  rcases ite_ok h with ⟨h1, h⟩ | ⟨-, h⟩
  · rcases ite_ok h with ⟨h2, h⟩ | ⟨-, h⟩
    · cases h; exact .inl ⟨h1, h2, rfl⟩
    · cases h
  refine .inr ?_
  iterate 15
    rcases ite_ok h with ⟨h1, h⟩ | ⟨-, h⟩
    · injection h with h
      exact .inl ⟨h1, h.symm⟩
    refine .inr ?_
  rcases ite_ok h with ⟨h1, h⟩ | ⟨-, h⟩
  · injection h with h
    exact ⟨h1, h.symm⟩
  · cases h

/-- What the event reader answers, row by row (30_encoding.md R64). -/
theorem decodeEvent_cases {w : Word} {i : Instr} (h : decodeEvent w = .ok i) :
    (∃ mk : BitVec 3 → Instr, argOf w &&& 0xFFFFF8 = 0 ∧ argSlot (argOf w) ≤ 5 ∧ i = mk (argSlot (argOf w))
        ∧ ((opOf w = 0x80 ∧ mk = .evRx) ∨ (opOf w = 0x81 ∧ mk = .evTxDone) ∨ (opOf w = 0x82 ∧ mk = .evMobErr)))
      ∨ (argOf w = 0 ∧ ((opOf w = 0x83 ∧ i = .evBusOff) ∨ (opOf w = 0x84 ∧ i = .evNodeEn)
        ∨ (opOf w = 0x90 ∧ i = .dispatch))) := by
  have hs : ∀ mk, slotLabel mk (argOf w) = .ok i →
      argOf w &&& 0xFFFFF8 = 0 ∧ argSlot (argOf w) ≤ 5 ∧ i = mk (argSlot (argOf w)) := by
    intro mk hm
    unfold slotLabel at hm
    rcases ite_ok hm with ⟨-, hm⟩ | ⟨h1, hm⟩
    · cases hm
    rcases ite_ok hm with ⟨h2, hm⟩ | ⟨-, hm⟩
    · injection hm with hm
      exact ⟨not_not.mp h1, h2, hm.symm⟩
    · cases hm
  have hb : ∀ j, bareLabel j (argOf w) = .ok i → argOf w = 0 ∧ i = j := by
    intro j hm
    unfold bareLabel at hm
    rcases ite_ok hm with ⟨-, hm⟩ | ⟨h1, hm⟩
    · cases hm
    · injection hm with hm
      exact ⟨not_not.mp h1, hm.symm⟩
  unfold decodeEvent at h
  rcases ite_ok h with ⟨h1, h⟩ | ⟨-, h⟩
  · obtain ⟨a, b, c⟩ := hs _ h; exact .inl ⟨_, a, b, c, .inl ⟨h1, rfl⟩⟩
  rcases ite_ok h with ⟨h1, h⟩ | ⟨-, h⟩
  · obtain ⟨a, b, c⟩ := hs _ h; exact .inl ⟨_, a, b, c, .inr (.inl ⟨h1, rfl⟩)⟩
  rcases ite_ok h with ⟨h1, h⟩ | ⟨-, h⟩
  · obtain ⟨a, b, c⟩ := hs _ h; exact .inl ⟨_, a, b, c, .inr (.inr ⟨h1, rfl⟩)⟩
  rcases ite_ok h with ⟨h1, h⟩ | ⟨-, h⟩
  · obtain ⟨a, b⟩ := hb _ h; exact .inr ⟨a, .inl ⟨h1, b⟩⟩
  rcases ite_ok h with ⟨h1, h⟩ | ⟨-, h⟩
  · obtain ⟨a, b⟩ := hb _ h; exact .inr ⟨a, .inr (.inl ⟨h1, b⟩)⟩
  rcases ite_ok h with ⟨h1, h⟩ | ⟨-, h⟩
  · obtain ⟨a, b⟩ := hb _ h; exact .inr ⟨a, .inr (.inr ⟨h1, b⟩)⟩
  · cases h

/-- What the foreground decoder accepts: a form, its reserved bits 0, and a row of `operation` (30_encoding.md R62). -/
theorem decodeForeground_ok {w : Word} {i : Instr} :
    decodeForeground w = .ok i
      ↔ ∃ f, formOf (opOf w) = some f ∧ argOf w &&& f.reserved = 0 ∧ operation (opOf w) (argOf w) = .ok i := by
  unfold decodeForeground
  cases formOf (opOf w) with
  | none => simp
  | some f =>
    by_cases h : argOf w &&& f.reserved = 0
    · simp [h]
    · simp only [ne_eq, h, not_false_eq_true, if_true, reduceCtorEq, Option.some.injEq, false_iff]
      rintro ⟨f', rfl, h', -⟩
      exact h h'

/-- The word of an instruction decodes to it where its form leaves the reserved bits 0 and its row reads its fields back
(30_encoding.md R62). -/
theorem decodeForeground_encode (i : Instr) (f : Form) (hf : formOf (opcode i) = some f)
    (hr : argBits i &&& f.reserved = 0) (ho : operation (opcode i) (argBits i) = .ok i) :
    decodeForeground (encode i) = .ok i := by
  rw [encode_eq, decodeForeground_ok, opOf_wordOf, argOf_wordOf]
  exact ⟨f, hf, hr, ho⟩

/-! ### The operand fields of an argument, both ways (30_encoding.md R60) -/

theorem argHandle_append (x : Handle) : argHandle (0#8 ++ x) = x ∧ (0#8 ++ x : BitVec 24) &&& 0xFF0000 = 0 := by
  constructor
  · apply BitVec.eq_of_getLsbD_eq
    intro i hi
    unfold argHandle
    rw [BitVec.getLsbD_extractLsb', BitVec.getLsbD_append]
    interval_cases i <;> simp
  · apply BitVec.eq_of_getLsbD_eq
    intro i hi
    rw [BitVec.getLsbD_and, BitVec.getLsbD_append]
    interval_cases i <;> simp

theorem argIdent_append (x : Ident) : argIdent (0#13 ++ x) = x ∧ (0#13 ++ x : BitVec 24) &&& 0xFFF800 = 0 := by
  constructor
  · apply BitVec.eq_of_getLsbD_eq
    intro i hi
    unfold argIdent
    rw [BitVec.getLsbD_extractLsb', BitVec.getLsbD_append]
    interval_cases i <;> simp
  · apply BitVec.eq_of_getLsbD_eq
    intro i hi
    rw [BitVec.getLsbD_and, BitVec.getLsbD_append]
    interval_cases i <;> simp

theorem argSlot_append : ∀ x : BitVec 3,
    argSlot (0#21 ++ x) = x ∧ argPreset (0#21 ++ x) = x ∧ (0#21 ++ x : BitVec 24) &&& 0xFFFFF8 = 0 := by decide

theorem argByte_append (b : Byte) : argByte0 (0#16 ++ b) = b ∧ (0#16 ++ b : BitVec 24) &&& 0xFFFF00 = 0 := by
  revert b; decide

theorem argTriple_append (c m t : Byte) :
    argByte0 (c ++ m ++ t) = t ∧ argByte1 (c ++ m ++ t) = m ∧ argByte2 (c ++ m ++ t) = c := by
  refine ⟨?_, ?_, ?_⟩
  · apply BitVec.eq_of_getLsbD_eq
    intro i hi
    unfold argByte0
    rw [BitVec.getLsbD_extractLsb', BitVec.getLsbD_append, BitVec.getLsbD_append]
    interval_cases i <;> simp
  · apply BitVec.eq_of_getLsbD_eq
    intro i hi
    unfold argByte1
    rw [BitVec.getLsbD_extractLsb', BitVec.getLsbD_append, BitVec.getLsbD_append]
    interval_cases i <;> simp
  · apply BitVec.eq_of_getLsbD_eq
    intro i hi
    unfold argByte2
    rw [BitVec.getLsbD_extractLsb', BitVec.getLsbD_append, BitVec.getLsbD_append]
    interval_cases i <;> simp

theorem argPair_append (h l : Byte) :
    argByte1 (0#8 ++ h ++ l) = h ∧ argByte0 (0#8 ++ h ++ l) = l ∧ (0#8 ++ h ++ l : BitVec 24) &&& 0xFF0000 = 0 := by
  refine ⟨(argTriple_append 0 h l).2.1, (argTriple_append 0 h l).1, ?_⟩
  apply BitVec.eq_of_getLsbD_eq
  intro i hi
  rw [BitVec.getLsbD_and, BitVec.getLsbD_append, BitVec.getLsbD_append]
  interval_cases i <;> simp

/-- A bit that a zero mask result covers is 0. -/
theorem bit_of_mask {a m : BitVec 24} (h : a &&& m = 0) (i : Nat) (hm : m.getLsbD i = true) : a.getLsbD i = false := by
  have := congrArg (fun x => x.getLsbD i) h
  simpa [hm] using this

theorem append_argHandle (a : BitVec 24) (h : a &&& 0xFF0000 = 0) : 0#8 ++ argHandle a = a := by
  apply BitVec.eq_of_getLsbD_eq
  intro i hi
  unfold argHandle
  rw [BitVec.getLsbD_append, BitVec.getLsbD_extractLsb']
  by_cases h1 : i < 16
  · simp [h1]
  · simp [h1, bit_of_mask h i (by interval_cases i <;> rfl)]

theorem append_argIdent (a : BitVec 24) (h : a &&& 0xFFF800 = 0) : 0#13 ++ argIdent a = a := by
  apply BitVec.eq_of_getLsbD_eq
  intro i hi
  unfold argIdent
  rw [BitVec.getLsbD_append, BitVec.getLsbD_extractLsb']
  by_cases h1 : i < 11
  · simp [h1]
  · simp [h1, bit_of_mask h i (by interval_cases i <;> rfl)]

theorem append_argSlot (a : BitVec 24) (h : a &&& 0xFFFFF8 = 0) : 0#21 ++ argSlot a = a := by
  apply BitVec.eq_of_getLsbD_eq
  intro i hi
  unfold argSlot
  rw [BitVec.getLsbD_append, BitVec.getLsbD_extractLsb']
  by_cases h1 : i < 3
  · simp [h1]
  · simp [h1, bit_of_mask h i (by interval_cases i <;> rfl)]

theorem append_argByte (a : BitVec 24) (h : a &&& 0xFFFF00 = 0) : 0#16 ++ argByte0 a = a := by
  apply BitVec.eq_of_getLsbD_eq
  intro i hi
  unfold argByte0
  rw [BitVec.getLsbD_append, BitVec.getLsbD_extractLsb']
  by_cases h1 : i < 8
  · simp [h1]
  · simp [h1, bit_of_mask h i (by interval_cases i <;> rfl)]

theorem append_argTriple (a : BitVec 24) : argByte2 a ++ argByte1 a ++ argByte0 a = a := by
  apply BitVec.eq_of_getLsbD_eq
  intro i hi
  unfold argByte0 argByte1 argByte2
  rw [BitVec.getLsbD_append, BitVec.getLsbD_append, BitVec.getLsbD_extractLsb', BitVec.getLsbD_extractLsb',
    BitVec.getLsbD_extractLsb']
  interval_cases i <;> simp

theorem append_argPair (a : BitVec 24) (h : a &&& 0xFF0000 = 0) : 0#8 ++ argByte1 a ++ argByte0 a = a := by
  have h2 : argByte2 a = 0#8 := by
    apply BitVec.eq_of_getLsbD_eq
    intro i hi
    unfold argByte2
    rw [BitVec.getLsbD_extractLsb', bit_of_mask h _ (by interval_cases i <;> rfl)]
    simp
  rw [← h2, append_argTriple]

/-- The six flag bits of form `F6` (30_encoding.md R60). -/
theorem flagBits_getLsbD (i : Nat) (hi : i < 24) : ∀ a b c d e f : Bool,
    (argBits (.encFlags a b c d e f)).getLsbD i
      = if i = 0 then a else if i = 1 then b else if i = 2 then c else if i = 3 then d else if i = 4 then e
        else if i = 5 then f else false := by
  revert i; decide

end Sys2Proof
end

