-- ==== Sys2Proof/Laws/Transfer.lean ====
section
/-! SUPPORT. What the transfer engine's shared operations do (43_transfer_engine.md R100-R105). -/

namespace Sys2Proof.Machine

open Sys2Proof.Safety

/-- The arming of a slot in one update, CDMOB by its fields (10_state.md R30 (a)). -/
theorem setConmob_eq (k : SlotIx) (c : BitVec 2) (s : State) : setConmob k c s = { s with
    m := bankSet s.m k { s.m[k] with
      cdmob := controlByte c.toNat (rplv s.m[k].cdmob) (ide s.m[k].cdmob) (dlc s.m[k].cdmob).toNat }
    enmob := bankSet s.enmob k (c != 0) } := by
  rw [setConmob, writeConmob_eq, withConmob_eq]
  rfl

/-- `PauseBody` of a Transmit descriptor in one update. -/
theorem pauseBody_transmit (k : SlotIx) (s : State) : pauseBody .transmit k s = { s with
    g := { s.g with page := pageByte k 0 }
    m := bankSet s.m k { s.m[k] with
      cdmob := controlByte 0 (rplv s.m[k].cdmob) (ide s.m[k].cdmob) (dlc s.m[k].cdmob).toNat }
    enmob := bankSet s.enmob k false } := by
  rw [pauseBody, setConmob_eq, State.selectPage_eq, pageOf_eq]
  rfl

/-- RESUME's arming for reception in one update. -/
theorem resumeReceive_eq (k : SlotIx) (s : State) : resumeReceive k s = { s with
    g := { s.g with page := pageByte k 0 }
    m := bankSet s.m k { s.m[k] with
      cdmob := controlByte 2 (rplv s.m[k].cdmob) (ide s.m[k].cdmob) (dlc s.m[k].cdmob).toNat }
    enmob := bankSet s.enmob k true } := by
  rw [resumeReceive, setConmob_eq, State.selectPage_eq, pageOf_eq]
  rfl

/-- A write of DLC: the field, and the engaged bit from the unchanged CONMOB (20_memory.md R48, 10_state.md R30 (a)). -/
theorem writeDlc_eq (k : SlotIx) (len : Byte) (s : State) :
    s.writeMField k .cdmob fDLC (clamp8 len)
      = (s.setMob k { s.m[k] with cdmob := withDlc s.m[k].cdmob ((clamp8 len).extractLsb' 0 4) }).setEnmob k
        (conmob s.m[k].cdmob != 0) := by
  have h : ∀ v : Byte, clamp8 v = ((clamp8 v).extractLsb' 0 4).setWidth 8 := by decide
  rw [h len, State.writeMField_cdmob, fieldInsert_dlc, conmob_withDlc, ← h len]

/-- RESUME's loading and arming for transmission in one update; it never faults. -/
theorem loadAndArm_eq (k : SlotIx) (buf : Bytes8) (len : Byte) (s : State) :
    loadAndArm k buf (clamp8 len) s = .next { s with
      g := { s.g with page := pageByte k (minEight len) }
      m := bankSet s.m k { s.m[k] with
        cdmob := controlByte 1 (rplv s.m[k].cdmob) (ide s.m[k].cdmob) (minEight len) }
      enmob := bankSet s.enmob k true
      data := writeRun s.data k 0 (buf.toList.take (minEight len)) } := by
  have hle := minEight_le len
  have hl : (buf.toList.take (minEight len)).length = minEight len := by
    rw [List.length_take]; simpa using hle
  simp only [loadAndArm, writeDlc_eq, clamp8_toNat]
  rw [State.msgWriteMany_eq _ k _ (by simp [State.selected, slotOf_mobnb_pageOf]) (by simp), orFault_ok, setConmob,
    writeConmob_eq]
  simp [State.setMob, State.setEnmob, State.setData, State.setG, withConmob_withDlc, clamp8_toNat, hl, withIndx_pageOf,
    Nat.mod_eq_of_lt (show minEight len < 16 by omega)]

/-- The message buffer after RESUME: the loaded bytes, and every other byte as before. -/
theorem memRead_loaded (m : Memory) (k : SlotIx) (buf : Bytes8) (n : Nat) (hn : n ≤ 8) (hw : Memory.wf m) (a : Nat) :
    memRead (writeRun m k 0 (buf.toList.take n)) a
      = if 8 * k.val ≤ a ∧ a < 8 * k.val + n then buf.toList.getD (a - 8 * k.val) 0 else memRead m a := by
  have hl : (buf.toList.take n).length = n := by rw [List.length_take]; simpa using hn
  rw [memRead_writeRun _ _ _ _ hw (by rw [hl]; simpa using hn)]
  have hz : dataAddr k 0 = 8 * k.val := by simp [dataAddr]
  rw [hz]
  by_cases h1 : 8 * k.val ≤ a
  · by_cases h2 : a < 8 * k.val + n
    · simp [h1, h2, show a - 8 * k.val < n by omega, show a - 8 * k.val < 8 by omega]
    · simp [h1, h2, show ¬ a - 8 * k.val < n by omega]
  · simp [h1]

/-- The status clear of an error action (45_error_recovery.md R120). -/
theorem classifyAndClear_eq (k : SlotIx) (st : Byte) (s : State) (he : classify st ≠ 0) (hs : s.selected = some k) :
    classifyAndClear k st s = .next { s with
      m := bankSet s.m k { s.m[k] with stmob := s.m[k].stmob &&& 0x60 }
      obs := s.obs ++ [.errReport k (classify st)] } := by
  simp only [classifyAndClear, he, if_false, State.stClear_eq _ k _ hs, orFault_ok]
  rfl

/-- Everything RESUME can do where it answers a next state. -/
theorem execResume_next {h : Handle} {s t : State} (hs : execResume h s = .next t) :
    ∃ d k, s.init = true ∧ descAt s.d h = some d ∧ slotOf d.slotId = some k
      ∧ ((d.kind ≠ .transmit ∧ t = resumeReceive k s)
        ∨ ∃ buf len, d.kind = .transmit ∧ s.env.draws.fill = .answer buf len ∧ resumeTransmit h k buf len s = .next t) := by
  unfold execResume at hs
  split at hs
  · cases hs
  · rename_i d k hc
    have hk := checkSlot_eq_ok.mp hc
    refine ⟨d, k, hk.1, hk.2.1, hk.2.2, ?_⟩
    cases hd : d.kind <;> simp only [hd] at hs
    · cases hf : s.env.draws.fill <;> simp only [hf] at hs
      · exact .inr ⟨_, _, rfl, rfl, hs⟩
      · cases hs
    · cases hs; exact .inl ⟨by decide, rfl⟩
    · cases hs; exact .inl ⟨by decide, rfl⟩

/-- Everything PAUSE can do where it answers a next state. -/
theorem execPause_next {h : Handle} {s t : State} (hs : execPause h s = .next t) :
    ∃ d k, s.init = true ∧ descAt s.d h = some d ∧ slotOf d.slotId = some k ∧ t = pauseBody d.kind k s := by
  unfold execPause at hs
  split at hs
  · cases hs
  · rename_i d k hc
    have hk := checkSlot_eq_ok.mp hc
    cases hs
    exact ⟨d, k, hk.1, hk.2.1, hk.2.2, rfl⟩

/-- Everything IS_PAUSED can do where it answers a next state. -/
theorem execIsPaused_next {h : Handle} {s t : State} (hs : execIsPaused h s = .next t) :
    ∃ d k, s.init = true ∧ descAt s.d h = some d ∧ slotOf d.slotId = some k
      ∧ t = (s.selectPage k).result .isPaused (if conmob s.m[k].cdmob = 0b00 then 1 else 0) := by
  unfold execIsPaused at hs
  split at hs
  · cases hs
  · rename_i d k hc
    have hk := checkSlot_eq_ok.mp hc
    refine ⟨d, k, hk.1, hk.2.1, hk.2.2, ?_⟩
    simp only [State.readM_eq, State.selectPage_eq] at hs
    cases hs
    rw [State.selectPage_eq]
    rfl

/-- Everything STATUS can do where it answers a next state. -/
theorem execStatus_next {h : Handle} {s t : State} (hs : execStatus h s = .next t) :
    ∃ d k, s.init = true ∧ descAt s.d h = some d ∧ slotOf d.slotId = some k
      ∧ t = (s.selectPage k).result .status (s.m[k].stmob.setWidth 32) := by
  unfold execStatus at hs
  split at hs
  · cases hs
  · rename_i d k hc
    have hk := checkSlot_eq_ok.mp hc
    refine ⟨d, k, hk.1, hk.2.1, hk.2.2, ?_⟩
    simp only [State.readM_eq, State.selectPage_eq] at hs
    cases hs
    simp [Mob.get]

end Sys2Proof.Machine
end

