-- ==== Sys2Proof/Laws/Dispatcher.lean ====
section
/-! SUPPORT. What each dispatcher micro-step does (44_dispatcher.md R107-R115), and induction over an invocation. -/

namespace Sys2Proof.Machine

open Sys2Proof.Safety

/-- Bus-off recovery in one update (45_error_recovery.md R121). -/
theorem busOffRecover_eq (s : State) : busOffRecover s = { s with
    g := { s.g with gcon := 0x02, gsta := if s.env.draws.wait = .enabled then 0x04 else 0x00, git := 0 }
    enmob := if s.env.params.swresDisengages then Vector.replicate 6 false else s.enmob } := by
  have h : ∀ w : WaitOutcome,
      (if (enfg 0 || w == .enabled) = true then (0 : Byte) ||| 0x04#8 else 0)
        = if w = .enabled then 0x04 else 0x00 := by
    intro w; cases w <;> decide
  simp only [busOffRecover]
  rw [show (1 : Byte) = 1#8 from rfl, State.writeGField_swres, State.writeGField_enastb, State.nodeEnableWait_eq]
  simp only [State.gitClear, State.writeG_git, State.softwareReset_eq, State.setG]
  rw [h, show ((0 : Byte) &&& 0xFE#8) ||| 0x02#8 = 0x02 by decide]

/-- The `Entry` micro-step in one update, with `BOFFIT` set (44_dispatcher.md R109). -/
theorem dispBusOff_set (s : State) (hb : boffit s.g.git = true) : dispBusOff s = { s with
    g := { s.g with gcon := 0x02, gsta := if s.env.draws.wait = .enabled then 0x04 else 0x00, git := 0 }
    enmob := if s.env.params.swresDisengages then Vector.replicate 6 false else s.enmob
    boc := bocNext s.env.params.bocWidth s.boc
    obs := s.obs ++ [.busOff (bocNext s.env.params.bocWidth s.boc)]
    disp := .slot 0 } := by
  simp only [dispBusOff, boffit_readG, hb, if_true, busOffRecover_eq, State.gitClear, State.writeG_git, State.setG,
    State.setBoc, State.emit, State.setDisp]

/-- The `Entry` micro-step without `BOFFIT`: the phase alone. -/
theorem dispBusOff_clear (s : State) (hb : boffit s.g.git = false) : dispBusOff s = { s with disp := .slot 0 } := by
  simp [dispBusOff, hb, State.setDisp]

/-- The `Slot` micro-step of a registered slot in one update (44_dispatcher.md R110). -/
theorem dispSlot_some (k : SlotIx) (s : State) (h : Handle) (hr : s.reg[k] = some h) : dispSlot k s = { s with
    g := { s.g with page := pageByte k 0 }
    disp := .act k s.m[k].stmob } := by
  simp only [dispSlot, hr, State.readM_eq, State.selectPage_eq, pageOf_eq]
  rfl

/-- The `Slot` micro-step of a slot without an entry: the phase alone. -/
theorem dispSlot_none (k : SlotIx) (s : State) (hr : s.reg[k] = none) :
    dispSlot k s = { s with disp := nextPhase k } := by
  simp only [dispSlot, hr]
  rfl

theorem registered_eq_ok {k : SlotIx} {s : State} {h : Handle} {d : Desc} :
    registered k s = .ok (h, d) ↔ s.reg[k] = some h ∧ descAt s.d h = some d := by
  unfold registered
  split
  · rename_i hn
    constructor
    · intro hh; cases hh
    · rintro ⟨h1, -⟩; rw [hn] at h1; cases h1
  · rename_i h' hs
    split
    · rename_i hn
      constructor
      · intro hh; cases hh
      · rintro ⟨h1, h2⟩; rw [hs] at h1; cases h1; rw [hn] at h2; cases h2
    · rename_i d' hd
      constructor
      · intro hh; cases hh; exact ⟨hs, hd⟩
      · rintro ⟨h1, h2⟩; rw [hs] at h1; cases h1; rw [hd] at h2; cases h2; rfl

/-- Message reads from a selected slot never fault and change PAGE alone, whatever AINC is (20_memory.md R45). -/
theorem msgReadMany_ok (n : Nat) (s : State) (k : SlotIx) (hk : s.selected = some k) :
    ∃ bs p, s.msgReadMany n = .ok (bs, s.setG { s.g with page := p }) ∧ bs.length = n ∧ mobnb p = mobnb s.g.page
      ∧ ainc p = ainc s.g.page := by
  induction n generalizing s with
  | zero => exact ⟨[], s.g.page, rfl, rfl, rfl, rfl⟩
  | succ n ih =>
    have h1 : ∃ p, s.msgRead = .ok (s.dataByte k (indx s.g.page), s.setG { s.g with page := p })
        ∧ mobnb p = mobnb s.g.page ∧ ainc p = ainc s.g.page := by
      cases ha : ainc s.g.page
      · exact ⟨withIndx s.g.page (indx s.g.page + 1), by simp [State.msgRead, hk, State.advanceIndex_eq s ha],
          by simp, by simp [ha]⟩
      · exact ⟨s.g.page, by simp [State.msgRead, hk, State.advanceIndex, ha, State.setG], rfl, ha⟩
    obtain ⟨p, hp, hm, ha⟩ := h1
    obtain ⟨bs, q, hq, hl, hm2, ha2⟩ := ih (s.setG { s.g with page := p })
      (by rw [State.selected_setG _ _ hm]; exact hk)
    refine ⟨s.dataByte k (indx s.g.page) :: bs, q, ?_, by simp [hl], hm2.trans hm, ha2.trans ha⟩
    simp only [State.msgReadMany, hp, hq]
    rfl

/-- A selected slot from a page with the same MOBNB. -/
theorem selected_of_mobnb {s t : State} (h : mobnb t.g.page = mobnb s.g.page) : t.selected = s.selected := by
  simp [State.selected, h]

/-- The reception action on a selected slot, before the delivery: the bytes read, and PAGE alone changed. -/
theorem reception_reads (s : State) (k : SlotIx) (n : Nat) (hs : s.selected = some k) :
    ∃ bs p, (s.writeGField .page fINDX 0).msgReadMany n = .ok (bs, s.setG { s.g with page := p })
      ∧ bs.length = n ∧ mobnb p = mobnb s.g.page ∧ ainc p = ainc s.g.page := by
  have hw : s.writeGField .page fINDX 0 = s.setG { s.g with page := withIndx s.g.page 0 } := by
    rw [show (0 : Byte) = 0#8 from rfl, State.writeGField_page, fieldInsert_indx_zero, and_F8_eq]
  obtain ⟨bs, p, hr, hl, hm, ha⟩ := msgReadMany_ok n (s.setG { s.g with page := withIndx s.g.page 0 }) k
    (by rw [State.selected_setG _ _ (by simp)]; exact hs)
  refine ⟨bs, p, ?_, hl, hm.trans (by simp), ha.trans (by simp)⟩
  rw [hw, hr]
  rfl

/-- The reception's bytes with AINC = 0: the slot's buffer from index 0 on (44_dispatcher.md R112). -/
theorem reception_bytes (s : State) (k : SlotIx) (n : Nat) (hn : n ≤ 8) (hs : s.selected = some k)
    (ha : ainc s.g.page = false) :
    (s.writeGField .page fINDX 0).msgReadMany n
      = .ok ((List.range n).map fun i => memRead s.data (8 * k.val + i),
        s.setG { s.g with page := pageByte k n }) := by
  have hw : s.writeGField .page fINDX 0 = s.setG { s.g with page := withIndx s.g.page 0 } := by
    rw [show (0 : Byte) = 0#8 from rfl, State.writeGField_page, fieldInsert_indx_zero, and_F8_eq]
  rw [hw, State.msgReadMany_eq _ k n (by rw [State.selected_setG _ _ (by simp)]; exact hs) (by simpa using ha)]
  have hz : ∀ x : BitVec 3, 0 + x = x := BitVec.zero_add
  have hb : ((List.range n).map fun j => memRead s.data (dataAddr k (0 + BitVec.ofNat 3 j)))
      = (List.range n).map fun i => memRead s.data (8 * k.val + i) := by
    apply List.map_congr_left
    intro j hj
    rw [hz, dataAddr_ofNat k j (by have := List.mem_range.mp hj; omega)]
  have hp : withIndx (withIndx s.g.page 0) (0 + BitVec.ofNat 3 n) = pageByte k n := by
    rw [withIndx_twice, hz, withIndx_selected _ k n hs ha]
  simp only [State.setG_g, indx_withIndx, hp, State.dataByte, State.setG_data, hb]
  rfl

/-- The status and control of a slot after a reception (44_dispatcher.md R112). -/
theorem afterReception_eq (kind : Kind) (k : SlotIx) (s : State) : afterReception kind k s = { s with
    g := { s.g with page := if kind = .transmit then pageByte k 0 else s.g.page }
    m := bankSet s.m k { s.m[k] with
      cdmob := controlByte (if kind = .transmit then 0 else 2) (rplv s.m[k].cdmob) (ide s.m[k].cdmob)
        (dlc s.m[k].cdmob).toNat }
    enmob := bankSet s.enmob k (kind != .transmit) } := by
  cases kind
  · simp only [afterReception, pauseBody_transmit]; rfl
  · simp only [afterReception, setConmob_eq]; rfl
  · simp only [afterReception, setConmob_eq]; rfl

/-- A state after the delivery and the status clear of a reception: slot `j` is the selected one. -/
def received (j : SlotIx) (h : Handle) (n : Byte) (bs : List Byte) (p : Byte) (s : State) : State := { s with
  g := { s.g with page := p }
  m := bankSet s.m j { s.m[j] with stmob := s.m[j].stmob &&& 0xDF }
  d := descUpdate s.d h fun x => { x with buffer := overlay bs x.buffer }
  obs := s.obs ++ [.rxDeliver h bs n] }

/-- The reception action of a registered slot `k` under a page that selects `j`, whatever AINC is. -/
theorem actReception_eq (k j : SlotIx) (s : State) (h : Handle) (d : Desc) (hr : s.reg[k] = some h)
    (hd : descAt s.d h = some d) (hs : s.selected = some j) :
    ∃ bs p, (s.writeGField .page fINDX 0).msgReadMany (minEight d.dataLength) = .ok (bs, s.setG { s.g with page := p })
      ∧ bs.length = minEight d.dataLength ∧ mobnb p = mobnb s.g.page ∧ ainc p = ainc s.g.page
      ∧ actReception k s = match s.env.draws.deliver with
        | .misbehave => .refused .callbackReentry
        | .accept => .next
          ((afterReception d.kind k (received j h (clamp8 d.dataLength) bs p s)).setDisp (nextPhase k)) := by
  obtain ⟨bs, p, hq, hl, hm, ha⟩ := reception_reads s j (minEight d.dataLength) hs
  refine ⟨bs, p, hq, hl, hm, ha, ?_⟩
  have hreg := registered_eq_ok.mpr ⟨hr, hd⟩
  simp only [actReception, hreg, orFault_ok, clamp8_toNat, hq, deliver, State.updateDesc, State.setD_env,
    State.setG_env]
  cases s.env.draws.deliver
  · simp only [chain_next]
    rw [State.stClear_eq _ j _ (by rw [← hs]; exact selected_of_mobnb hm), orFault_ok]
    rfl
  · rfl

/-- The reception action where the page selects the slot itself, in one update. -/
theorem actReception_own (k : SlotIx) (s : State) (h : Handle) (d : Desc) (hr : s.reg[k] = some h)
    (hd : descAt s.d h = some d) (hs : s.selected = some k) (hv : s.env.draws.deliver = .accept) :
    ∃ bs p, (s.writeGField .page fINDX 0).msgReadMany (minEight d.dataLength) = .ok (bs, s.setG { s.g with page := p })
      ∧ actReception k s = .next { s with
        g := { s.g with page := if d.kind = .transmit then pageByte k 0 else p }
        m := bankSet s.m k { s.m[k] with
          stmob := s.m[k].stmob &&& 0xDF
          cdmob := controlByte (if d.kind = .transmit then 0 else 2) (rplv s.m[k].cdmob) (ide s.m[k].cdmob)
            (dlc s.m[k].cdmob).toNat }
        enmob := bankSet s.enmob k (d.kind != .transmit)
        d := descUpdate s.d h fun x => { x with buffer := overlay bs x.buffer }
        obs := s.obs ++ [.rxDeliver h bs (clamp8 d.dataLength)]
        disp := nextPhase k } := by
  obtain ⟨bs, p, hq, -, -, -, hx⟩ := actReception_eq k k s h d hr hd hs
  refine ⟨bs, p, hq, ?_⟩
  rw [hx, hv, afterReception_eq]
  simp [received, State.setDisp]

/-- The transmission action of a registered slot `k` under a page that selects `j` (44_dispatcher.md R113). -/
theorem actTransmission_eq (k j : SlotIx) (s : State) (h : Handle) (d : Desc) (hr : s.reg[k] = some h)
    (hd : descAt s.d h = some d) (hs : s.selected = some j) :
    actTransmission k s = .next ((pauseBody d.kind k (s.setMob j { s.m[j] with
      stmob := s.m[j].stmob &&& 0xBF })).setDisp (nextPhase k)) := by
  simp only [actTransmission, registered_eq_ok.mpr ⟨hr, hd⟩, orFault_ok, State.stClear_eq _ j _ hs]
  rfl

/-- What an `Act` micro-step can do where it answers a next state: `j` is the slot the page selects. -/
theorem dispAct_next {k : SlotIx} {st : Byte} {s t : State} (h : dispAct k st s = .next t) :
    t = s.setDisp (nextPhase k)
      ∨ (∃ j, s.selected = some j ∧ classify st ≠ 0 ∧ t = { s with
          m := bankSet s.m j { s.m[j] with stmob := s.m[j].stmob &&& 0x60 }
          obs := s.obs ++ [.errReport k (classify st)]
          disp := nextPhase k })
      ∨ (∃ x d j bs p, s.reg[k] = some x ∧ descAt s.d x = some d ∧ s.selected = some j
          ∧ bs.length = minEight d.dataLength ∧ mobnb p = mobnb s.g.page ∧ ainc p = ainc s.g.page
          ∧ t = (afterReception d.kind k (received j x (clamp8 d.dataLength) bs p s)).setDisp (nextPhase k))
      ∨ ∃ x d j, s.reg[k] = some x ∧ descAt s.d x = some d ∧ s.selected = some j
          ∧ t = (pauseBody d.kind k (s.setMob j { s.m[j] with
            stmob := s.m[j].stmob &&& 0xBF })).setDisp (nextPhase k) := by
  unfold dispAct at h
  split at h
  · rename_i he
    have he' : classify st ≠ 0 := by simpa [classify] using he
    obtain ⟨u, hu, ht⟩ := chain_eq_next.mp h
    cases ht
    cases hs : s.selected with
    | none => simp only [classifyAndClear, he', if_false, State.stClear_fault _ _ hs, orFault_error, reduceCtorEq] at hu
    | some j =>
      refine .inr (.inl ⟨j, rfl, he', ?_⟩)
      simp only [classifyAndClear, he', if_false, State.stClear_eq _ j _ hs, orFault_ok] at hu
      cases hu
      rfl
  · split at h
    · unfold actReception at h
      obtain ⟨⟨x, d⟩, hreg, hh⟩ := orFault_eq_next.mp h
      obtain ⟨hr, hd⟩ := registered_eq_ok.mp hreg
      cases hs : s.selected with
      | some j =>
        obtain ⟨bs, p, -, hl, hm, ha, hx⟩ := actReception_eq k j s x d hr hd hs
        refine .inr (.inr (.inl ⟨x, d, j, bs, p, hr, hd, rfl, hl, hm, ha, ?_⟩))
        unfold actReception at hx
        rw [h] at hx
        cases hv : s.env.draws.deliver <;> rw [hv] at hx
        · cases hx; rfl
        · cases hx
      | none =>
        exfalso
        have hw : (s.writeGField .page fINDX 0).selected = none := by
          rw [State.writeGField_page, State.selected_setG _ _ (by
            rw [show (0 : Byte) = 0#8 from rfl, fieldInsert_indx_zero, and_F8_eq]; simp)]
          exact hs
        obtain ⟨⟨bs, u⟩, hq, hh⟩ := orFault_eq_next.mp hh
        obtain ⟨v, hv, hh⟩ := chain_eq_next.mp hh
        obtain ⟨y, hy, hh⟩ := orFault_eq_next.mp hh
        cases hn : (clamp8 d.dataLength).toNat with
        | succ n =>
          rw [show (clamp8 (x, d).2.dataLength).toNat = n + 1 from hn, State.msgReadMany_fault _ _ hw] at hq
          cases hq
        | zero =>
          rw [show (clamp8 (x, d).2.dataLength).toNat = 0 from hn] at hq
          cases hq
          have hvs : v.selected = none := by
            unfold deliver at hv
            split at hv
            · cases hv; exact hw
            · cases hv
          rw [State.stClear_fault _ _ hvs] at hy
          cases hy
    · split at h
      · unfold actTransmission at h
        obtain ⟨⟨x, d⟩, hreg, hh⟩ := orFault_eq_next.mp h
        obtain ⟨hr, hd⟩ := registered_eq_ok.mp hreg
        obtain ⟨u, hu, ht⟩ := orFault_eq_next.mp hh
        cases hs : s.selected with
        | none => rw [State.stClear_fault _ _ hs] at hu; cases hu
        | some j =>
          refine .inr (.inr (.inr ⟨x, d, j, hr, hd, rfl, ?_⟩))
          rw [State.stClear_eq _ j _ hs] at hu
          cases hu
          cases ht
          rfl
      · cases h; exact .inl rfl

/-- What a micro-step can do where it answers a next state. -/
theorem microStep_next {s t : State} (h : microStep s = .next t) :
    (s.disp = .idle ∧ (t = s ∨ (entryGuard s = true ∧ t = s.dispEnter)))
      ∨ (s.disp = .entry ∧ t = dispBusOff s)
      ∨ (∃ k, s.disp = .slot k ∧ t = dispSlot k s)
      ∨ (∃ k st, s.disp = .act k st ∧ dispAct k st s = .next t)
      ∨ (s.disp = .exit ∧ t = s.dispExit) := by
  unfold microStep at h
  cases hd : s.disp <;> simp only [hd] at h
  · refine .inl ⟨rfl, ?_⟩
    cases h
    split
    · exact .inr ⟨‹_›, rfl⟩
    · exact .inl rfl
  · cases h; exact .inr (.inl ⟨rfl, rfl⟩)
  · cases h; exact .inr (.inr (.inl ⟨_, rfl, rfl⟩))
  · exact .inr (.inr (.inr (.inl ⟨_, _, rfl, h⟩)))
  · cases h; exact .inr (.inr (.inr (.inr ⟨rfl, rfl⟩)))

/-! ### Whole invocations -/

/-- What one micro-step keeps, a whole invocation keeps. -/
theorem microSteps_keep {P : State → Prop} (hP : ∀ s t, P s → microStep s = .next t → P t) :
    ∀ (n : Nat) (s t : State), P s → microSteps n s = .next t → P t := by
  intro n
  induction n with
  | zero => intro s t hs h; cases h; exact hs
  | succ n ih =>
    intro s t hs h
    simp only [microSteps] at h
    split at h
    · cases h; exact hs
    · obtain ⟨u, hu, ht⟩ := chain_eq_next.mp h
      exact ih u t (hP s u hs hu) ht

/-- A property that interrupt entry and every micro-step keep, DISPATCH keeps. -/
theorem execDispatch_keep {P : State → Prop} (hE : ∀ s, P s → entryGuard s = true → P s.dispEnter)
    (hP : ∀ s t, P s → microStep s = .next t → P t) (s t : State) (hs : P s) (h : execDispatch s = .next t) : P t := by
  unfold execDispatch at h
  split at h
  · rename_i hg
    exact microSteps_keep hP _ _ t (hE s hs hg) h
  · cases h; exact hs

theorem microSteps_idle (n : Nat) (s : State) (h : s.disp = .idle) : microSteps n s = .next s := by
  cases n <;> simp [microSteps, h]

theorem microSteps_succ (n : Nat) (s : State) (h : s.disp ≠ .idle) :
    microSteps (n + 1) s = chain (microStep s) (microSteps n) := by
  simp [microSteps, h]

/-- The last micro-step of a slot is followed by the exit exactly after slot 5 (44_dispatcher.md R108). -/
theorem nextPhase_eq (k : SlotIx) : nextPhase k = if h : k.val + 1 < 6 then .slot ⟨k.val + 1, h⟩ else .exit := rfl

end Sys2Proof.Machine
end

