-- ==== Sys2Proof/Laws/Events.lean ====
section
/-! SUPPORT. What each hardware event does, in one update (46_bus_events.md R126-R131). -/

namespace Sys2Proof.Machine

open Sys2Proof.Safety

/-- A hardware fill keeps the canonical form. -/
theorem hwFill_wf (k : SlotIx) (b : Bytes8) (n : Nat) (m : Memory) (hw : Memory.wf m) : Memory.wf (hwFill k b n m) := by
  induction n with
  | zero => exact hw
  | succ n ih => exact memWrite_wf _ _ _ ih (dataAddr_lt k _)

/-- A hardware fill of at most eight bytes: those bytes, and every other address as before. -/
theorem memRead_hwFill (k : SlotIx) (b : Bytes8) (n : Nat) (m : Memory) (hn : n ≤ 8) (hw : Memory.wf m) (a : Nat) :
    memRead (hwFill k b n m) a
      = if 8 * k.val ≤ a ∧ a < 8 * k.val + n then b.toList.getD (a - 8 * k.val) 0 else memRead m a := by
  induction n with
  | zero => rw [if_neg (by omega)]; rfl
  | succ n ih =>
    have ih := ih (by omega)
    have hd := dataAddr_ofNat k n (by omega)
    simp only [hwFill, hd]
    by_cases ha : a = 8 * k.val + n
    · subst ha
      rw [memRead_memWrite_same _ 0 _ _ (hwFill_wf k b n m hw), if_pos (by omega)]
      congr 1
      omega
    · rw [memRead_memWrite_ne _ _ _ _ ha, ih]
      by_cases h1 : 8 * k.val ≤ a ∧ a < 8 * k.val + n
      · rw [if_pos h1, if_pos (by omega)]
      · rw [if_neg h1, if_neg (by omega)]

/-- A slot's registers after a reception (46_bus_events.md R127). -/
def receivedMob (p : RxPayload) (x : Mob) : Mob :=
  { x with
    idt1 := wireHigh p.rid
    idt2 := wireLow p.rid
    idt4 := (x.idt4 &&& 0xFB) ||| (if p.rtr then 0x04 else 0x00)
    cdmob := controlByte (conmob x.cdmob).toNat (rplv x.cdmob) (ide x.cdmob) p.dlc.toNat
    stmob := (x.stmob &&& 0x7F) ||| (if p.dlc = dlc x.cdmob then 0x20 else 0xA0) }

/-- The effect of EV_RX in one update. -/
theorem rxEffect_eq (k : SlotIx) (s : State) : rxEffect k s = { s with
    data := hwFill k s.env.draws.rx.bytes (min s.env.draws.rx.dlc.toNat 8) s.data
    m := bankSet s.m k (receivedMob s.env.draws.rx s.m[k])
    enmob := bankSet s.enmob k false } := by
  have h1 : ∀ d : BitVec 4, (if d ≤ 8 then d.toNat else 8) = min d.toNat 8 := by decide
  have h2 : ∀ v : Byte, fieldInsert fRXOK (fieldInsert fDLCW v 0) 1 = (v &&& 0x7F) ||| 0x20 := by decide
  have h3 : ∀ v : Byte, fieldInsert fRXOK (fieldInsert fDLCW v 1) 1 = (v &&& 0x7F) ||| 0xA0 := by decide
  have h4 : ∀ v : Byte, fieldInsert fRTRTAG v 1 = (v &&& 0xFB) ||| 0x04 := by decide
  have h5 : ∀ v : Byte, fieldInsert fRTRTAG v 0 = (v &&& 0xFB) ||| 0x00 := by decide
  simp only [rxEffect, h1, State.setData, State.hwM, State.setMob, State.setEnmob, Mob.put, bankSet_get_same,
    bankSet_bankSet, receivedMob, fieldInsert_dlc, withDlc_eq, encId_eq]
  by_cases hd : s.env.draws.rx.dlc = dlc s.m[k].cdmob <;> by_cases hr : s.env.draws.rx.rtr = true <;>
    simp only [hd, hr, if_true, if_false, Bool.false_eq_true, h2, h3, h4, h5]

/-- The effect of EV_TX_DONE in one update. -/
theorem txEffect_eq (k : SlotIx) (s : State) : txEffect k s = { s with
    m := bankSet s.m k { s.m[k] with stmob := s.m[k].stmob ||| 0x40 }
    enmob := bankSet s.enmob k false } := by
  have h : ∀ v : Byte, fieldInsert fTXOK v 1 = v ||| 0x40 := by decide
  simp only [txEffect, State.hwM, State.setMob, State.setEnmob, Mob.put, h]

/-- The effect of EV_MOB_ERR in one update. -/
theorem errEffect_eq (k : SlotIx) (s : State) : errEffect k s = { s with
    m := bankSet s.m k { s.m[k] with stmob := s.m[k].stmob ||| s.env.draws.errBits }
    enmob := if ttc s.g.gcon && conmob s.m[k].cdmob == 0b01 then bankSet s.enmob k false else s.enmob } := by
  simp only [errEffect, State.hwM, State.setMob, State.setEnmob, Mob.put, bankSet_get_same]
  split <;> simp_all

/-- The effect of EV_BUS_OFF in one update. -/
theorem busOffEffect_eq (s : State) : busOffEffect s = { s with
    g := { s.g with git := s.g.git ||| 0x40, gsta := s.g.gsta ||| 0x02 } } := by
  have h1 : ∀ v : Byte, fieldInsert fBOFFIT v 1 = v ||| 0x40 := by decide
  have h2 : ∀ v : Byte, fieldInsert fBOFF v 1 = v ||| 0x02 := by decide
  simp only [busOffEffect, State.hwG, State.setG, Globals.put, h1, h2]

/-- The effect of EV_NODE_EN in one update. -/
theorem nodeEnEffect_eq (s : State) : nodeEnEffect s = { s with g := { s.g with gsta := s.g.gsta ||| 0x04 } } := by
  have h1 : ∀ v : Byte, fieldInsert fENFG v 1 = v ||| 0x04 := by decide
  simp only [nodeEnEffect, State.hwG, State.setG, Globals.put, h1]

/-- A slot event answers the state or its effect on the named slot, and never stops. -/
theorem slotEvent_cases (v : BitVec 3) (guard : SlotIx → State → Bool) (effect : SlotIx → State → State) (s : State) :
    slotEvent v guard effect s = .next s
      ∨ ∃ k : SlotIx, v = BitVec.ofNat 3 k.val ∧ guard k s = true ∧ slotEvent v guard effect s = .next (effect k s) := by
  unfold slotEvent
  cases hv : slotOf (v.setWidth 8) with
  | none => exact .inl rfl
  | some k =>
    simp only
    cases hg : guard k s
    · exact .inl (by simp)
    · refine .inr ⟨k, ?_, hg, by simp⟩
      have h1 := slotOf_eq_some.mp hv
      have h2 := v.isLt
      apply BitVec.eq_of_toNat_eq
      simp only [BitVec.toNat_setWidth, BitVec.toNat_ofNat] at h1 ⊢
      omega

/-- A slot event on a named slot. -/
theorem slotEvent_eq (k : SlotIx) (guard : SlotIx → State → Bool) (effect : SlotIx → State → State) (s : State) :
    slotEvent (BitVec.ofNat 3 k.val) guard effect s = .next (if guard k s then effect k s else s) := by
  simp only [slotEvent, slotOf_event]

end Sys2Proof.Machine
end

