-- ==== Sys2Proof/Laws/PerInstr.lean ====
section
/-! SUPPORT. The per-instruction family `OpByte`: the code byte and the argument of an instruction's word
(30_encoding.md R59, R61). -/

namespace Sys2Proof.Laws.OpByte

/-- Bits 31:24 of the word are the instruction's code and bits 23:0 its argument, none of it lost, and the code is an event
code exactly where the instruction is no foreground operation. -/
def Statement (i : Instr) : Prop :=
  opOf (encode i) = opcode i ∧ argOf (encode i) = argBits i ∧ isEventCode (opcode i) = !i.isForeground

/-- The first two parts hold of every word; the third is read off the instruction. -/
theorem of_word (i : Instr) (h : isEventCode (opcode i) = !i.isForeground) : Statement i :=
  ⟨opOf_wordOf (opcode i) (argBits i), argOf_wordOf (opcode i) (argBits i), h⟩

theorem initCan (p : BitVec 3) : Statement (.initCan p) := of_word _ rfl
theorem cfgRx (h : Handle) : Statement (.cfgRx h) := of_word _ rfl
theorem cfgTx (h : Handle) : Statement (.cfgTx h) := of_word _ rfl
theorem cfgAuto (h : Handle) : Statement (.cfgAuto h) := of_word _ rfl
theorem resume (h : Handle) : Statement (.resume h) := of_word _ rfl
theorem pause (h : Handle) : Statement (.pause h) := of_word _ rfl
theorem isPaused (h : Handle) : Statement (.isPaused h) := of_word _ rfl
theorem status (h : Handle) : Statement (.status h) := of_word _ rfl
theorem encId (v : Ident) : Statement (.encId v) := of_word _ rfl
theorem decId (hi lo : Byte) : Statement (.decId hi lo) := of_word _ rfl
theorem encMask (v : Ident) : Statement (.encMask v) := of_word _ rfl
theorem decMask (hi lo : Byte) : Statement (.decMask hi lo) := of_word _ rfl
theorem encFlags (rtr ide idemsk rtrmsk rb0 rplv : Bool) : Statement (.encFlags rtr ide idemsk rtrmsk rb0 rplv) :=
  of_word _ rfl
theorem decFlags (t4 m4 cd : Byte) : Statement (.decFlags t4 m4 cd) := of_word _ rfl
theorem classify (st : Byte) : Statement (.classify st) := of_word _ rfl
theorem sei : Statement .sei := of_word _ rfl
theorem cli : Statement .cli := of_word _ rfl
theorem evRx (s : BitVec 3) : Statement (.evRx s) := of_word _ rfl
theorem evTxDone (s : BitVec 3) : Statement (.evTxDone s) := of_word _ rfl
theorem evMobErr (s : BitVec 3) : Statement (.evMobErr s) := of_word _ rfl
theorem evBusOff : Statement .evBusOff := of_word _ rfl
theorem evNodeEn : Statement .evNodeEn := of_word _ rfl
theorem dispatch : Statement .dispatch := of_word _ rfl

end Sys2Proof.Laws.OpByte
end

