-- ==== Sys2Proof/Laws/Setup.lean ====
section
/-! SUPPORT. What INIT_CAN's body and the shared configure operation do, each in one update (41_controller_init.md R89,
42_configurator.md R94-R96). -/

namespace Sys2Proof.Machine

open Sys2Proof.Safety

/-! ### Loops over the six slots -/

/-- Rewriting every slot's entry, slot by slot, maps the bank. -/
theorem bank_fold_map {α : Type} (f : α → α) (b : Bank α) :
    slots.foldl (fun b k => bankSet b k (f b[k])) b = b.map f := by
  apply Vector.ext
  intro i hi
  interval_cases i <;> simp [bankSet, slots]

/-- Writing one value to every slot, slot by slot. -/
theorem bank_fold_const {α : Type} (v : α) (b : Bank α) :
    slots.foldl (fun b k => bankSet b k v) b = Vector.replicate 6 v := by
  apply Vector.ext
  intro i hi
  interval_cases i <;> simp [bankSet, slots]

theorem initSlot_eq (s : State) (k : SlotIx) : initSlot s k = { s with
    g := { s.g with page := pageOf k }
    m := bankSet s.m k { s.m[k] with cdmob := 0, stmob := 0 }
    enmob := bankSet s.enmob k false } := by
  have : (conmob 0#8 != 0#2) = false := by decide
  simp [initSlot, this, State.setG, State.setMob, State.setEnmob]

theorem foldl_initSlot (l : List SlotIx) (s : State) : l.foldl initSlot s = { s with
    g := l.foldl (fun g k => { g with page := pageOf k }) s.g
    m := l.foldl (fun b k => bankSet b k { b[k] with cdmob := 0, stmob := 0 }) s.m
    enmob := l.foldl (fun b k => bankSet b k false) s.enmob } := by
  induction l generalizing s with
  | nil => rfl
  | cons k l ih => simp only [List.foldl_cons, ih, initSlot_eq]

/-- INIT_CAN's loop over the slots (41_controller_init.md R89). -/
theorem slots_initSlot (s : State) : slots.foldl initSlot s = { s with
    g := { s.g with page := 0x50 }
    m := s.m.map fun x => { x with cdmob := 0, stmob := 0 }
    enmob := Vector.replicate 6 false } := by
  rw [foldl_initSlot, ← bank_fold_map, ← bank_fold_const false s.enmob]
  simp only [slots, List.foldl_cons, List.foldl_nil, show pageOf 5 = 0x50 by decide]

theorem slots_setReg_none (s : State) :
    slots.foldl (fun u k => u.setReg k none) s = { s with reg := Vector.replicate 6 none } := by
  rw [← bank_fold_const none s.reg]
  simp only [slots, List.foldl_cons, List.foldl_nil, State.setReg]

/-- The body of INIT_CAN in one update. -/
theorem initBody_eq (t : Timing) (s : State) : initBody t s = { s with
    g :=
      { gcon := 0x22
        gsta := if s.env.draws.wait = .enabled then 0x04 else 0x00
        git := 0x00
        gie := 0xF8
        bt1 := t.bt1
        bt2 := t.bt2
        bt3 := t.bt3
        page := 0x50 }
    m := s.m.map fun x => { x with cdmob := 0, stmob := 0 }
    enmob := Vector.replicate 6 false
    reg := Vector.replicate 6 none
    init := true
    gie := true } := by
  have h : ∀ w : WaitOutcome,
      (if (enfg (if enastb 0 then 0 else 0 &&& 0xFB#8) || w == .enabled) = true
        then (if enastb 0 then 0 else 0 &&& 0xFB#8) ||| 0x04#8 else (if enastb 0 then 0 else 0 &&& 0xFB#8))
        = if w = .enabled then 0x04 else 0x00 := by
    intro w; cases w <;> decide
  simp only [initBody]
  rw [slots_initSlot, slots_setReg_none, show (1 : Byte) = 1#8 from rfl, State.writeGField_ttc,
    State.writeGField_enastb, State.nodeEnableWait_eq]
  simp only [State.writeGField_swres, State.softwareReset_eq, State.writeG_bt1, State.writeG_bt2, State.writeG_bt3,
    State.writeG_gie, State.setG, State.setInit, State.setGie]
  rw [h, show ((0 : Byte) &&& 0xFE#8 ||| 0x20#8) &&& 0xFE#8 ||| 0x02#8 = 0x22 by decide]

/-! ### The configure operations -/

/-- The interrupt categories of a kind, as bits of G.GIE (42_configurator.md R94-R96). -/
def categoryBits : Kind → Byte
  | .transmit => 0x90
  | .receive => 0xA0
  | .autoReply => 0xB0

theorem enableCategories_eq (kind : Kind) (s : State) :
    enableCategories kind s = s.setG { s.g with gie := s.g.gie ||| categoryBits kind } := by
  have h1 : ∀ v : Byte, v ||| 0x80#8 ||| 0x20#8 = v ||| 0xA0#8 := by decide
  have h2 : ∀ v : Byte, v ||| 0x80#8 ||| 0x10#8 = v ||| 0x90#8 := by decide
  have h3 : ∀ v : Byte, v ||| 0xA0#8 ||| 0x10#8 = v ||| 0xB0#8 := by decide
  cases kind <;>
    simp [enableCategories, State.writeGField_gie, categoryBits, show (1 : Byte) = 1#8 from rfl, State.setG, h1, h2, h3]

/-- The registers of a slot after a configure operation. -/
def configuredMob (kind : Kind) (d : Desc) (x : Mob) : Mob :=
  { idt1 := wireHigh d.identifier
    idt2 := wireLow d.identifier
    idt4 := tagByte d.flags
    idm1 := if Kind.hasMask kind then wireHigh d.mask else x.idm1
    idm2 := if Kind.hasMask kind then wireLow d.mask else x.idm2
    idm4 := if Kind.hasMask kind then maskFlagByte d.flags else x.idm4
    cdmob := controlByte (Kind.initialConmob kind).toNat d.flags.autoReplyValid d.flags.extendedId
      (minEight d.dataLength)
    stmob := x.stmob }

/-- The body of a configure operation in one update. -/
theorem configureBody_eq (kind : Kind) (h : Handle) (d : Desc) (k : SlotIx) (s : State) :
    configureBody kind h d k s = { s with
      g := { s.g with gie := s.g.gie ||| categoryBits kind, page := pageByte k 0 }
      m := bankSet s.m k (configuredMob kind d s.m[k])
      enmob := bankSet s.enmob k (Kind.initialConmob kind != 0)
      iemob := bankSet s.iemob k true
      reg := bankSet s.reg k (some h)
      d := descUpdate s.d h fun x => { x with
        dataLength := BitVec.ofNat 8 (minEight d.dataLength), configured := true } } := by
  have hm : minEight d.dataLength % 16 = minEight d.dataLength := by have := minEight_le d.dataLength; omega
  simp only [configureBody, enableCategories_eq, writeConmob_eq, writeMaskRegs]
  cases kind <;>
    simp [Kind.hasMask, configuredMob, encId_eq, encTagFlags_eq, encMaskFlags_eq, withConmob_encCtrl,
      rplv_encControlFlags, ide_encControlFlags, State.setG, State.setMob, State.setEnmob, State.setIemob,
      State.setReg, State.updateDesc, State.setD, descUpdate_descUpdate, clamp8_eq, pageOf_eq, hm]

/-- Everything a configure operation can do where it answers a next state. -/
theorem configure_next {kind : Kind} {h : Handle} {s t : State} (hs : configure kind h s = .next t) :
    ∃ d k, s.init = true ∧ descAt s.d h = some d ∧ slotOf d.slotId = some k ∧ d.kind = kind
      ∧ t = configureBody kind h d k s := by
  unfold configure at hs
  split at hs
  · cases hs
  · rename_i d k hc
    have := checkDesc_eq_ok.mp hc
    cases hs
    exact ⟨d, k, this.1, this.2.1, this.2.2.1, this.2.2.2, rfl⟩

end Sys2Proof.Machine
end

