-- ==== Sys2Proof/Laws/Step.lean ====
section
/-! SUPPORT. What one step can do, said once, and the invariants that a step keeps reduced to `exec` and `microStep`. -/

namespace Sys2Proof.Machine

/-- RESUME of a Transmit descriptor where it answers a next state: nothing to send, or the buffer loaded and armed. -/
theorem resumeTransmit_next {h : Handle} {k : SlotIx} {buf : Bytes8} {len : Byte} {s t : State}
    (hs : resumeTransmit h k buf len s = .next t) :
    ∃ u : State, u = (s.updateDesc h fun d => { d with buffer := buf, dataLength := clamp8 len }).emit (.txFill h len)
      ∧ (t = u ∨ t = { u with
        g := { s.g with page := Safety.pageByte k (Safety.minEight len) }
        m := bankSet s.m k { s.m[k] with
          cdmob := Safety.controlByte 1 (rplv s.m[k].cdmob) (ide s.m[k].cdmob) (Safety.minEight len) }
        enmob := bankSet s.enmob k true
        data := writeRun s.data k 0 (buf.toList.take (Safety.minEight len)) }) := by
  refine ⟨_, rfl, ?_⟩
  unfold resumeTransmit at hs
  split at hs
  · cases hs; exact .inl rfl
  · rw [loadAndArm_eq] at hs
    cases hs
    exact .inr rfl

/-- Everything a foreground operation or an event can do where it answers a next state. -/
theorem exec_next {i : Instr} {s t : State} (h : exec i s = .next t) :
    t = s
      ∨ (∃ op v, i.isForeground = true ∧ t = s.result op v)
      ∨ (∃ tm, i.isForeground = true ∧ t = initBody tm s)
      ∨ (∃ b, i.isForeground = true ∧ t = s.setGie b)
      ∨ (∃ kind x d k, i.isForeground = true ∧ s.init = true ∧ descAt s.d x = some d ∧ slotOf d.slotId = some k
          ∧ d.kind = kind ∧ t = configureBody kind x d k s)
      ∨ (∃ x d k buf len, i.isForeground = true ∧ s.init = true ∧ descAt s.d x = some d ∧ slotOf d.slotId = some k
          ∧ d.kind = .transmit ∧ resumeTransmit x k buf len s = .next t)
      ∨ (∃ k, i.isForeground = true ∧ t = resumeReceive k s)
      ∨ (∃ k, i.isForeground = true ∧ t = pauseBody .transmit k s)
      ∨ (∃ k op v, i.isForeground = true ∧ t = (s.selectPage k).result op v)
      ∨ (∃ k, i.isForeground = false ∧ i ≠ .dispatch ∧ rxEnabled k s = true ∧ t = rxEffect k s)
      ∨ (∃ k, i.isForeground = false ∧ i ≠ .dispatch ∧ txEnabled k s = true ∧ t = txEffect k s)
      ∨ (∃ k, i.isForeground = false ∧ i ≠ .dispatch ∧ errEnabled k s = true ∧ t = errEffect k s)
      ∨ (i = .evBusOff ∧ nodeOn s = true ∧ t = busOffEffect s)
      ∨ (i = .evNodeEn ∧ nodeEnEnabled s = true ∧ t = nodeEnEffect s)
      ∨ (i = .dispatch ∧ execDispatch s = .next t) := by
  cases i <;> simp only [exec] at h
  case initCan p =>
    unfold execInitCan at h
    split at h
    · cases h; exact .inr (.inr (.inl ⟨_, rfl, rfl⟩))
    · cases h
  case cfgRx x =>
    obtain ⟨d, k, h1, h2, h3, h4, rfl⟩ := configure_next h
    exact .inr (.inr (.inr (.inr (.inl ⟨_, x, d, k, rfl, h1, h2, h3, h4, rfl⟩))))
  case cfgTx x =>
    obtain ⟨d, k, h1, h2, h3, h4, rfl⟩ := configure_next h
    exact .inr (.inr (.inr (.inr (.inl ⟨_, x, d, k, rfl, h1, h2, h3, h4, rfl⟩))))
  case cfgAuto x =>
    obtain ⟨d, k, h1, h2, h3, h4, rfl⟩ := configure_next h
    exact .inr (.inr (.inr (.inr (.inl ⟨_, x, d, k, rfl, h1, h2, h3, h4, rfl⟩))))
  case resume x =>
    obtain ⟨d, k, h1, h2, h3, ⟨-, rfl⟩ | ⟨buf, len, h4, -, h5⟩⟩ := execResume_next h
    · exact .inr (.inr (.inr (.inr (.inr (.inr (.inl ⟨k, rfl, rfl⟩))))))
    · exact .inr (.inr (.inr (.inr (.inr (.inl ⟨x, d, k, buf, len, rfl, h1, h2, h3, h4, h5⟩)))))
  case pause x =>
    obtain ⟨d, k, -, -, -, rfl⟩ := execPause_next h
    cases d.kind
    · exact .inr (.inr (.inr (.inr (.inr (.inr (.inr (.inl ⟨k, rfl, rfl⟩)))))))
    · exact .inl rfl
    · exact .inl rfl
  case isPaused x =>
    obtain ⟨d, k, -, -, -, rfl⟩ := execIsPaused_next h
    exact .inr (.inr (.inr (.inr (.inr (.inr (.inr (.inr (.inl ⟨k, _, _, rfl, rfl⟩))))))))
  case status x =>
    obtain ⟨d, k, -, -, -, rfl⟩ := execStatus_next h
    exact .inr (.inr (.inr (.inr (.inr (.inr (.inr (.inr (.inl ⟨k, _, _, rfl, rfl⟩))))))))
  case sei => cases h; exact .inr (.inr (.inr (.inl ⟨_, rfl, rfl⟩)))
  case cli => cases h; exact .inr (.inr (.inr (.inl ⟨_, rfl, rfl⟩)))
  case evRx v =>
    rcases slotEvent_cases v rxEnabled rxEffect s with hh | ⟨k, -, hg, hh⟩ <;> rw [execEvRx, hh] at h <;> cases h
    · exact .inl rfl
    · exact .inr (.inr (.inr (.inr (.inr (.inr (.inr (.inr (.inr (.inl ⟨k, rfl, by simp, hg, rfl⟩)))))))))
  case evTxDone v =>
    rcases slotEvent_cases v txEnabled txEffect s with hh | ⟨k, -, hg, hh⟩ <;> rw [execEvTxDone, hh] at h <;> cases h
    · exact .inl rfl
    · exact .inr (.inr (.inr (.inr (.inr (.inr (.inr (.inr (.inr (.inr (.inl ⟨k, rfl, by simp, hg, rfl⟩))))))))))
  case evMobErr v =>
    rcases slotEvent_cases v errEnabled errEffect s with hh | ⟨k, -, hg, hh⟩ <;> rw [execEvMobErr, hh] at h <;> cases h
    · exact .inl rfl
    · exact .inr (.inr (.inr (.inr (.inr (.inr (.inr (.inr (.inr (.inr (.inr
        (.inl ⟨k, rfl, by simp, hg, rfl⟩)))))))))))
  case evBusOff =>
    unfold execEvBusOff at h
    split at h <;> cases h
    · exact .inr (.inr (.inr (.inr (.inr (.inr (.inr (.inr (.inr (.inr (.inr (.inr (.inl ⟨rfl, ‹_›, rfl⟩))))))))))))
    · exact .inl rfl
  case evNodeEn =>
    unfold execEvNodeEn at h
    split at h <;> cases h
    · exact .inr (.inr (.inr (.inr (.inr (.inr (.inr (.inr (.inr (.inr (.inr (.inr (.inr
        (.inl ⟨rfl, ‹_›, rfl⟩)))))))))))))
    · exact .inl rfl
  case dispatch =>
    exact .inr (.inr (.inr (.inr (.inr (.inr (.inr (.inr (.inr (.inr (.inr (.inr (.inr (.inr ⟨rfl, h⟩)))))))))))))
  all_goals
    cases h
    exact .inr (.inl ⟨_, _, rfl, rfl⟩)

/-- A recorded step answers the meaning's next state, or the state before with a mark. -/
theorem recordStop_next {before t : State} {a : Agent} {w : Option Word} {o : Out}
    (h : recordStop before a w o = .next t) : o = .next t ∨ ∃ m, t = before.setMark m := by
  cases o <;> cases h
  · exact .inl rfl
  · exact .inr ⟨_, rfl⟩
  · exact .inr ⟨_, rfl⟩

/-- A recorded step always answers a next state. -/
theorem recordStop_total (before : State) (a : Agent) (w : Option Word) (o : Out) :
    ∃ t, recordStop before a w o = .next t := by
  cases o <;> exact ⟨_, rfl⟩

theorem descWrite_next {h : Handle} {f : DescField} {s t : State} (hs : descWrite h f s = .next t) :
    t = s ∨ ∃ d, descAt s.d h = some d ∧ (immutableField f && d.configured) = false
      ∧ t = s.updateDesc h (applyField f) := by
  unfold descWrite at hs
  split at hs
  · cases hs; exact .inl rfl
  · rename_i d hd
    split at hs
    · cases hs
    · rename_i hf
      cases hs
      exact .inr ⟨d, hd, by simpa using hf, rfl⟩

/-- Everything a step can do where it answers a next state. -/
theorem step_next {s t : State} (h : step s = .next t) : s.mark = none ∧
    (t = s.begin
      ∨ (∃ m, t = s.setMark m)
      ∨ (s.turn.move = .foreground ∧ s.disp = .idle ∧ ∃ w i u, s.begin.fetch = some w
          ∧ decodeForeground w = .ok i ∧ exec i s.begin = .next u ∧ t = u.completeOp)
      ∨ (∃ x f d, s.turn.move = .descWrite x f ∧ s.disp = .idle ∧ descAt s.d x = some d
          ∧ (immutableField f && d.configured) = false ∧ t = s.begin.updateDesc x (applyField f))
      ∨ (s.turn.move = .dispatcher ∧ microStep s.begin = .next t)
      ∨ ∃ w i, s.turn.move = .label w ∧ decodeEvent w = .ok i ∧ exec i s.begin = .next t) := by
  unfold step at h
  cases hm : s.mark with
  | some m =>
    rw [hm] at h
    simp only [Mark.outcome] at h
    cases hs : m.stop <;> simp [hs] at h
  | none =>
    refine ⟨rfl, ?_⟩
    rw [hm] at h
    simp only [runTurn] at h
    cases hv : s.turn.move with
    | foreground =>
      simp only [hv, foregroundTurn] at h
      split at h
      · rename_i hd
        split at h
        · cases h; exact .inl rfl
        · rename_i w hf
          rcases recordStop_next h with hr | hr
          · unfold runWord at hr
            split at hr
            · cases hr
            · rename_i i hi
              obtain ⟨u, hu, ht⟩ := chain_eq_next.mp hr
              cases ht
              exact .inr (.inr (.inl ⟨rfl, hd, w, i, u, hf, hi, hu, rfl⟩))
          · exact .inr (.inl hr)
      · cases h; exact .inl rfl
    | descWrite x f =>
      simp only [hv, descWriteTurn] at h
      split at h
      · rename_i hd
        rcases recordStop_next h with hr | hr
        · rcases descWrite_next hr with rfl | ⟨d, h1, h2, rfl⟩
          · exact .inl rfl
          · exact .inr (.inr (.inr (.inl ⟨x, f, d, rfl, hd, h1, h2, rfl⟩)))
        · exact .inr (.inl hr)
      · cases h; exact .inl rfl
    | dispatcher =>
      simp only [hv, dispatcherTurn] at h
      rcases recordStop_next h with hr | hr
      · exact .inr (.inr (.inr (.inr (.inl ⟨rfl, hr⟩))))
      · exact .inr (.inl hr)
    | label w =>
      simp only [hv, labelTurn] at h
      split at h
      · cases h; exact .inl rfl
      · rename_i i hi
        rcases recordStop_next h with hr | hr
        · exact .inr (.inr (.inr (.inr (.inr ⟨w, i, rfl, hi, hr⟩))))
        · exact .inr (.inl hr)

/-- From an unmarked state a step always answers a next state: a stop is recorded in it. -/
theorem step_total (s : State) (h : s.mark = none) : ∃ t, step s = .next t := by
  unfold step
  rw [h]
  simp only [runTurn]
  split
  · unfold foregroundTurn
    split
    · split
      · exact ⟨_, rfl⟩
      · exact recordStop_total _ _ _ _
    · exact ⟨_, rfl⟩
  · unfold descWriteTurn
    split
    · exact recordStop_total _ _ _ _
    · exact ⟨_, rfl⟩
  · exact recordStop_total _ _ _ _
  · unfold labelTurn
    split
    · exact ⟨_, rfl⟩
    · exact recordStop_total _ _ _ _

/-- A property of the state is kept by every step if the taking of a turn, a mark and a completed operation do not touch
it, and `exec`, an application write and a micro-step keep it. -/
theorem step_keep {P : State → Prop} (hb : ∀ s, P s → P s.begin) (hm : ∀ s m, P s → P (s.setMark m))
    (hc : ∀ s, P s → P s.completeOp) (hx : ∀ i s t, P s → exec i s = .next t → P t)
    (hd : ∀ s h f d, P s → descAt s.d h = some d → (immutableField f && d.configured) = false →
      P (s.updateDesc h (applyField f)))
    (hu : ∀ s t, P s → microStep s = .next t → P t) (s t : State) (hs : P s) (h : step s = .next t) : P t := by
  obtain ⟨-, h⟩ := step_next h
  rcases h with rfl | ⟨m, rfl⟩ | ⟨-, -, w, i, u, -, -, hu', rfl⟩ | ⟨x, f, d, -, -, h1, h2, rfl⟩ | ⟨-, h⟩ | ⟨w, i, -, -, h⟩
  · exact hb s hs
  · exact hm s m hs
  · exact hc u (hx i _ u (hb s hs) hu')
  · exact hd s.begin x f d (hb s hs) h1 h2
  · exact hu _ t (hb s hs) h
  · exact hx i _ t (hb s hs) h

end Sys2Proof.Machine
end

