-- ==== Sys2Proof/Tests/Slice0.lean ====
section
/-! SUPPORT. Tests: ill-formed terms are refused, words written out from the encoding tables decode, single steps give the
values of spec/95_test_vectors.md, and each statement's hypotheses are met by a concrete state. -/

namespace Sys2Proof.Tests

open Sys2Proof.Machine Sys2Proof.Safety

/-! ### Reading an outcome -/

def after (o : Out) : Option State := match o with | .next s => some s | _ => none
def faultOf (o : Out) : Option Fault := match o with | .fault f => some f | _ => none
def refusalOf (o : Out) : Option Refusal := match o with | .refused r => some r | _ => none

/-! ### Small states -/

def noFlags : ControlFlags := ⟨false, false, false, false, false, false⟩
def allFlags : ControlFlags := ⟨true, true, true, true, true, true⟩
def zeros : Bytes8 := Vector.replicate 8 0
def countUp : Bytes8 := #v[0, 1, 2, 3, 0, 0, 0, 0]
def frame : Bytes8 := #v[0xDE, 0xAD, 0xBE, 0, 0, 0, 0, 0]

/-- V7's h 0. -/
def txDesc : Desc := ⟨0, .transmit, 0, 0x123, 0, noFlags, zeros, false⟩
/-- V7's h 1. -/
def rxDesc : Desc := ⟨2, .receive, 3, 0x100, 0x7FF, noFlags, zeros, false⟩
/-- V7's h 2. -/
def autoDesc : Desc := ⟨3, .autoReply, 8, 0x010, 0x7FF, ⟨true, false, false, false, false, true⟩, zeros, false⟩
/-- V7's h 3. -/
def longDesc : Desc := ⟨4, .receive, 200, 0, 0, allFlags, zeros, false⟩
def lastTxDesc : Desc := ⟨5, .transmit, 2, 0x7FF, 0, noFlags, zeros, false⟩
def badSlotDesc : Desc := ⟨6, .transmit, 0, 0, 0, noFlags, zeros, false⟩
def farSlotDesc : Desc := ⟨255, .receive, 0, 0, 0, noFlags, zeros, false⟩

def store : DescStore :=
  [(0, txDesc), (1, rxDesc), (2, autoDesc), (3, longDesc), (4, lastTxDesc), (6, badSlotDesc), (0xFFFF, farSlotDesc)]

/-- Initialised, the node on, with the descriptors above. -/
def lab : State :=
  { State.reset with init := true, gie := true, d := store, g := { State.reset.g with gcon := 0x22, gsta := 0x04, gie := 0xF8 } }

/-- Slot `k` with control `cd`, status `st`, and its engaged bit. -/
def withSlot (k : SlotIx) (cd st : Byte) (e : Bool) (s : State) : State :=
  { s with m := bankSet s.m k { s.m[k] with cdmob := cd, stmob := st }, enmob := bankSet s.enmob k e
           iemob := bankSet s.iemob k true }

def withDraws (f : Draws → Draws) (s : State) : State := { s with env := { s.env with draws := f s.env.draws } }

/-- `on_transmit` answers. -/
def filling (buf : Bytes8) (len : Byte) (s : State) : State := withDraws (fun d => { d with fill := .answer buf len }) s

/-- Descriptor `h` registered at slot `k` and marked configured. -/
def registeredAt (h : Handle) (k : SlotIx) (s : State) : State :=
  { s with reg := bankSet s.reg k (some h), d := descUpdate s.d h fun d => { d with configured := true } }

def withPage (p : Byte) (s : State) : State := { s with g := { s.g with page := p } }
def inPhase (p : Phase) (s : State) : State := { s with disp := p, gie := false }

/-- The next turn. -/
def facing (m : Move) (s : State) : State := { s with env := { s.env with agenda := [{ move := m, draws := some quietDraws }] } }
def withOps (l : List Word) (s : State) : State := { s with env := { s.env with ops := l } }

/-- Slot 2 registered with the receive descriptor, a frame in its buffer. -/
def received : State :=
  { withPage 0x20 (registeredAt 1 2 (withSlot 2 0x83 0x20 false lab)) with data := [(16, 0xDE), (17, 0xAD), (18, 0xBE)] }

/-- Slot 0 registered with the transmit descriptor, armed and done. -/
def transmitted : State := registeredAt 0 0 (withSlot 0 0x44 0x40 false lab)

/-! ### WellFormed: an ill-formed term for each check -/

theorem test_wf_preset : WellFormed (.initCan 5) = false ∧ WellFormed (.initCan 7) = false := by decide
theorem test_wf_ev_rx : WellFormed (.evRx 6) = false := by decide
theorem test_wf_ev_tx_done : WellFormed (.evTxDone 7) = false := by decide
theorem test_wf_ev_mob_err : WellFormed (.evMobErr 6) = false := by decide

/-! ### Decoding: a word for every row, written out from 30_encoding.md R59-R64 -/

theorem test_word_init_can : decodeTableWord 32 0b00000001000000000000000000000100 = some (.initCan 4) := by decide
theorem test_word_cfg_rx : decodeTableWord 32 0b00000010000000001111111111111111 = some (.cfgRx 0xFFFF) := by decide
theorem test_word_cfg_tx : decodeTableWord 32 0b00000011000000000000000000000001 = some (.cfgTx 1) := by decide
theorem test_word_cfg_auto : decodeTableWord 32 0b00000100000000000000000000000010 = some (.cfgAuto 2) := by decide
theorem test_word_resume : decodeTableWord 32 0b00000101000000000000000000000111 = some (.resume 7) := by decide
theorem test_word_pause : decodeTableWord 32 0b00000110000000001000000000000000 = some (.pause 0x8000) := by decide
theorem test_word_is_paused : decodeTableWord 32 0b00000111000000000000000100000000 = some (.isPaused 0x100) := by decide
theorem test_word_status : decodeTableWord 32 0b00001000000000000000000000000001 = some (.status 1) := by decide
theorem test_word_enc_id : decodeTableWord 32 0b00010000000000000000010000000001 = some (.encId 0x401) := by decide
theorem test_word_dec_id : decodeTableWord 32 0b00010001000000000010010001111111 = some (.decId 0x24 0x7F) := by decide
theorem test_word_enc_mask : decodeTableWord 32 0b00010010000000000000011111111111 = some (.encMask 0x7FF) := by decide
theorem test_word_dec_mask : decodeTableWord 32 0b00010011000000001111111111100000 = some (.decMask 0xFF 0xE0) := by decide
theorem test_word_enc_flags :
    decodeTableWord 32 0b00010100000000000000000000011001 = some (.encFlags true false false true true false) := by decide
theorem test_word_dec_flags :
    decodeTableWord 32 0b00010101101010000000010000000101 = some (.decFlags 0x05 0x04 0xA8) := by decide
theorem test_word_classify : decodeTableWord 32 0b00010110000000000000000001010000 = some (.classify 0x50) := by decide
theorem test_word_sei : decodeTableWord 32 0b00100000000000000000000000000000 = some .sei := by decide
theorem test_word_cli : decodeTableWord 32 0b00100001000000000000000000000000 = some .cli := by decide
theorem test_word_ev_rx : decodeTableWord 32 0b10000000000000000000000000000010 = some (.evRx 2) := by decide
theorem test_word_ev_tx_done : decodeTableWord 32 0b10000001000000000000000000000101 = some (.evTxDone 5) := by decide
theorem test_word_ev_mob_err : decodeTableWord 32 0b10000010000000000000000000000001 = some (.evMobErr 1) := by decide
theorem test_word_ev_bus_off : decodeTableWord 32 0b10000011000000000000000000000000 = some .evBusOff := by decide
theorem test_word_ev_node_en : decodeTableWord 32 0b10000100000000000000000000000000 = some .evNodeEn := by decide
theorem test_word_dispatch : decodeTableWord 32 0b10010000000000000000000000000000 = some .dispatch := by decide

/-- 95_test_vectors.md V4: the refused words, each with its reason. -/
theorem test_refused_words :
    decodeForeground 0x00000000 = .error .unassignedOp ∧ decodeForeground 0x01000005 = .error .badPreset
      ∧ decodeForeground 0x01000008 = .error .reservedBit ∧ decodeForeground 0x02010000 = .error .reservedBit
      ∧ decodeForeground 0x09000000 = .error .unassignedOp ∧ decodeForeground 0x10000800 = .error .reservedBit
      ∧ decodeForeground 0x130100E0 = .error .reservedBit ∧ decodeForeground 0x14000040 = .error .reservedBit
      ∧ decodeForeground 0x16000100 = .error .reservedBit ∧ decodeForeground 0x20000001 = .error .reservedBit
      ∧ decodeForeground 0x80000000 = .error .eventCode ∧ decodeForeground 0x90000000 = .error .eventCode
      ∧ decodeForeground 0xFF000000 = .error .unassignedOp := by
  refine ⟨?_, ?_, ?_, ?_, ?_, ?_, ?_, ?_, ?_, ?_, ?_, ?_, ?_⟩ <;> rfl

/-- 30_encoding.md R64: event words that are no events. -/
theorem test_refused_event_words :
    decodeWord 0x80000006 = .error .noSlot ∧ decodeWord 0x81000008 = .error .reservedBit
      ∧ decodeWord 0x90000001 = .error .reservedBit := ⟨rfl, rfl, rfl⟩

/-! ### One step each: spec/95_test_vectors.md V1-V10 -/

/-- V1. -/
theorem test_enc_id : (after (exec (.encId 0x123) State.reset)).map (·.res) = some 0x2460 := by decide
theorem test_dec_id : (after (exec (.decId 0x01 0x3F) State.reset)).map (·.res) = some 0x9 := by decide
theorem test_enc_mask : (after (exec (.encMask 0x7FF) State.reset)).map (·.res) = some 0xFFE0 := by decide
theorem test_dec_mask : (after (exec (.decMask 0xFF 0xE0) State.reset)).map (·.res) = some 0x7FF := by decide
/-- V2. -/
theorem test_enc_flags :
    (after (exec (.encFlags true false false true true false) State.reset)).map (·.res) = some 0x405 := by decide
theorem test_dec_flags : (after (exec (.decFlags 0x05 0x04 0xA8) State.reset)).map (·.res) = some 0x39 := by decide
theorem test_enc_ctrl : encCtrl 0b10 true false 8 = 0xA8 ∧ encCtrl 0b00 true true 15 = 0x3F := by decide
/-- V3 and 10_state.md R37: the result, and its record. -/
theorem test_classify :
    (after (exec (.classify 0x50) State.reset)).map (fun s => (s.res, s.obs))
      = some (0x10, [.result .classify 0x10]) := by decide

/-- V5. -/
theorem test_not_init : faultOf (exec (.status 7) State.reset) = some .notInit := by decide
theorem test_bad_handle : faultOf (exec (.resume 7) lab) = some .badHandle := by decide
theorem test_bad_slot : faultOf (exec (.pause 6) lab) = some .badSlot := by decide
theorem test_kind_mismatch : faultOf (exec (.cfgRx 0) lab) = some .kindMismatch := by decide

/-- V6: INIT_CAN from power-on with the wait's two outcomes. -/
theorem test_init_can :
    (after (exec (.initCan 0) (withDraws (fun d => { d with wait := .enabled }) State.reset))).map
      (fun s => ([s.g.gcon, s.g.gsta, s.g.git, s.g.gie, s.g.page], s.init, s.gie))
      = some ([0x22, 0x04, 0x00, 0xF8, 0x50], true, true) := by decide
theorem test_init_can_timeout :
    (after (exec (.initCan 0) (withDraws (fun d => { d with wait := .timeout }) received))).map
      (fun s => (s.g.gsta, s.reg[(2 : SlotIx)], s.iemob[(2 : SlotIx)], s.m[(2 : SlotIx)].cdmob))
      = some (0x00, none, true, 0x00) := by decide
theorem test_sei : (after (exec .sei State.reset)).map (·.gie) = some true := by decide
theorem test_cli : (after (exec .cli lab)).map (·.gie) = some false := by decide

/-- V7. -/
theorem test_cfg_rx :
    (after (exec (.cfgRx 1) lab)).map (fun s => (s.m[(2 : SlotIx)], s.enmob[(2 : SlotIx)], s.iemob[(2 : SlotIx)]))
      = some (⟨0x20, 0x00, 0x00, 0xFF, 0xE0, 0x00, 0x83, 0x00⟩, true, true) := by decide
theorem test_cfg_rx_clamped :
    (after (exec (.cfgRx 3) lab)).map (fun s => (s.m[(4 : SlotIx)].idt4, s.m[(4 : SlotIx)].idm4, s.m[(4 : SlotIx)].cdmob,
      (descAt s.d 3).map (·.dataLength))) = some (0x05, 0x05, 0xB8, some 8) := by decide
theorem test_cfg_tx :
    (after (exec (.cfgTx 0) (withSlot 0 0x44 0x00 true lab))).map
      (fun s => (s.m[(0 : SlotIx)].idt1, s.m[(0 : SlotIx)].idt2, s.m[(0 : SlotIx)].cdmob, s.enmob[(0 : SlotIx)]))
      = some (0x24, 0x60, 0x00, false) := by decide
theorem test_cfg_auto :
    (after (exec (.cfgAuto 2) lab)).map (fun s => (s.m[(3 : SlotIx)], s.enmob[(3 : SlotIx)]))
      = some (⟨0x02, 0x00, 0x04, 0xFF, 0xE0, 0x00, 0xA8, 0x00⟩, true) := by decide

/-- V8. -/
theorem test_resume_sends :
    (after (exec (.resume 0) (filling countUp 4 lab))).map
      (fun s => (s.m[(0 : SlotIx)].cdmob, s.data, (descAt s.d 0).map (·.dataLength), s.obs))
      = some (0x44, [(1, 1), (2, 2), (3, 3)], some 4, [.txFill 0 4]) := by decide
theorem test_resume_empty :
    (after (exec (.resume 0) (filling countUp 0 (withSlot 0 0x44 0x00 true lab)))).map
      (fun s => (s.m[(0 : SlotIx)].cdmob, s.enmob[(0 : SlotIx)], (descAt s.d 0).map (·.dataLength), s.obs))
      = some (0x44, true, some 0, [.txFill 0 0]) := by decide
theorem test_pause :
    (after (exec (.pause 0) (withSlot 0 0x44 0x00 true lab))).map
      (fun s => (s.m[(0 : SlotIx)].cdmob, s.enmob[(0 : SlotIx)])) = some (0x04, false) := by decide
theorem test_pause_receive :
    (after (exec (.pause 1) (withPage 0x50 (withSlot 2 0x83 0x00 true lab)))).map
      (fun s => (s.m[(2 : SlotIx)].cdmob, s.enmob[(2 : SlotIx)], s.g.page)) = some (0x83, true, 0x50) := by decide
theorem test_is_paused :
    (after (exec (.isPaused 0) (withSlot 0 0x04 0x00 false lab))).map (·.res) = some 1 := by decide
theorem test_is_paused_reserved :
    (after (exec (.isPaused 0) (withSlot 0 0xC0 0x00 false lab))).map (·.res) = some 0 := by decide
theorem test_status :
    (after (exec (.status 0) (withSlot 0 0x00 0xA0 false lab))).map (fun s => (s.res, s.m[(0 : SlotIx)].stmob))
      = some (0xA0, 0xA0) := by decide

/-- V9: a reception is delivered and the slot re-armed, in one invocation. -/
theorem test_dispatch_reception :
    (after (exec .dispatch received)).map (fun s => ([s.m[(2 : SlotIx)].stmob, s.m[(2 : SlotIx)].cdmob], s.obs, s.disp,
      (descAt s.d 1).map (·.buffer)))
      = some ([0x00, 0x83], [.rxDeliver 1 [0xDE, 0xAD, 0xBE] 3], .idle, some frame) := by decide
/-- V9: with all six slots registered an invocation still runs to its end (44_dispatcher.md R108; entry 9). -/
theorem test_dispatch_six_slots :
    (after (exec .dispatch (registeredAt 0 5 (registeredAt 0 4 (registeredAt 0 3 (registeredAt 0 1 (registeredAt 0 0
      received))))))).map (fun s => (s.disp, s.gie, s.m[(2 : SlotIx)].stmob)) = some (.idle, true, 0x00) := by decide

/-- V10. -/
theorem test_ev_rx :
    (after (exec (.evRx 1) { withDraws (fun d => { d with rx := ⟨2, frame, 0x01F, false⟩ }) lab with
      m := bankSet lab.m 1 ⟨0x02, 0x00, 0x00, 0xFE, 0x00, 0x00, 0x88, 0x00⟩, enmob := bankSet lab.enmob 1 true })).map
      (fun s => (s.m[(1 : SlotIx)], s.enmob[(1 : SlotIx)], s.data))
      = some (⟨0x03, 0xE0, 0x00, 0xFE, 0x00, 0x00, 0x82, 0xA0⟩, false, [(8, 0xDE), (9, 0xAD)]) := by decide
theorem test_ev_rx_filtered :
    (after (exec (.evRx 1) { withDraws (fun d => { d with rx := ⟨2, frame, 0x020, false⟩ }) lab with
      m := bankSet lab.m 1 ⟨0x02, 0x00, 0x00, 0xFE, 0x00, 0x00, 0x88, 0x00⟩, enmob := bankSet lab.enmob 1 true })).map
      (fun s => (s.m[(1 : SlotIx)].stmob, s.enmob[(1 : SlotIx)])) = some (0x00, true) := by decide
theorem test_ev_tx_done :
    (after (exec (.evTxDone 3) (withSlot 3 0xA8 0x00 true lab))).map (fun s => (s.m[(3 : SlotIx)].stmob,
      s.enmob[(3 : SlotIx)])) = some (0x40, false) := by decide
theorem test_ev_tx_done_not_engaged :
    (after (exec (.evTxDone 0) (withSlot 0 0x44 0x00 false lab))).map (·.m[(0 : SlotIx)].stmob) = some 0x00 := by decide
theorem test_ev_mob_err :
    (after (exec (.evMobErr 0) (withDraws (fun d => { d with errBits := 0x01 }) (withSlot 0 0x41 0x00 true lab)))).map
      (fun s => (s.m[(0 : SlotIx)].stmob, s.enmob[(0 : SlotIx)])) = some (0x01, false) := by decide
theorem test_ev_mob_err_payload :
    (after (exec (.evMobErr 0) (withDraws (fun d => { d with errBits := 0x80 }) (withSlot 0 0x41 0x00 true lab)))).map
      (fun s => (s.m[(0 : SlotIx)].stmob, s.enmob[(0 : SlotIx)])) = some (0x00, true) := by decide
theorem test_ev_bus_off :
    (after (exec .evBusOff lab)).map (fun s => (s.g.git, s.g.gsta)) = some (0x40, 0x06) := by decide
theorem test_ev_node_en :
    (after (exec .evNodeEn { lab with g := { lab.g with gsta := 0x00 } })).map (·.g.gsta) = some 0x04 := by decide

/-! ### The step -/

/-- A foreground word placed at reset runs, and the index moves on (10_state.md R14). -/
theorem test_step_foreground :
    (after (step (State.reset.withFetchWord 32 0x10000123))).map (fun s => (s.res, s.fgi)) = some (0x2460, 1) := by decide
/-- An event word placed at reset is the next turn; at power-on the node is off, so nothing happens. -/
theorem test_step_event :
    (after (step (State.reset.withFetchWord 32 0x83000000))).map (fun s => (s.g.git, s.fgi, s.env.clock))
      = some (0x00, 0, 1) := by decide
/-- P6: CFG_TX before INIT_CAN is a fault, recorded, and every later step answers it. -/
theorem test_step_records_fault :
    (after (step (State.reset.withFetchWord 32 0x03000000))).map (fun s => (s.mark, faultOf (step s)))
      = some (some ⟨.fault .notInit, .fg, 0, some 0x03000000⟩, some .notInit) := by decide
/-- P6: a word the decoder refuses is the refusal `R_ILLEGAL_WORD`. -/
theorem test_step_records_refusal :
    (after (step (facing .foreground (withOps [0x01000005] State.reset)))).map (fun s => refusalOf (step s))
      = some (some .illegalWord) := by decide

/-! ### Witnesses: a concrete state and operands that meet each statement's hypotheses, clause by clause, at the ends of
their ranges -/

theorem witness_decode_of_encode :
    WellFormed (.initCan 4) = true ∧ WellFormed (.evRx 5) = true ∧ WellFormed (.cfgRx 0xFFFF) = true := by decide
theorem witness_encode_of_decode :
    decodeWord 0x1100247F = .ok (.decId 0x24 0x7F) ∧ decodeWord 0x82000005 = .ok (.evMobErr 5) := ⟨rfl, rfl⟩
theorem witness_foreground_words :
    decodeForeground 0x01000004 = .ok (.initCan 4) ∧ decodeForeground 0x21000000 = .ok .cli := ⟨rfl, rfl⟩
theorem witness_illegal_words :
    formOf ((0x80000000 : Word).extractLsb' 24 8) = none
      ∧ (∃ f, formOf ((0x20000001 : Word).extractLsb' 24 8) = some f
          ∧ (0x20000001 : Word).extractLsb' 0 24 &&& f.reserved ≠ 0)
      ∧ (0x01000005 : Word).extractLsb' 24 8 = 0x01 ∧ ¬ ((0x01000005 : Word).extractLsb' 0 3).toNat ≤ 4 :=
  ⟨rfl, ⟨.n, rfl, by decide⟩, by decide, by decide⟩
theorem witness_event_words : Instr.isForeground (.evRx 7) = false ∧ Instr.isForeground .dispatch = false := by decide

def facingWord (w : Word) : State := facing .foreground (withOps [w] lab)
theorem witness_step_foreground :
    (facingWord 0x20000000).mark = none ∧ (facingWord 0x20000000).turn.move = .foreground
      ∧ (facingWord 0x20000000).disp = .idle ∧ (facingWord 0x20000000).env.ops[(facingWord 0x20000000).fgi]? = some 0x20000000
      ∧ decodeForeground 0x20000000 = .ok .sei := ⟨rfl, rfl, rfl, rfl, rfl⟩
theorem witness_step_foreground_refused :
    (facingWord 0x01000005).mark = none ∧ (facingWord 0x01000005).turn.move = .foreground
      ∧ (facingWord 0x01000005).disp = .idle ∧ (facingWord 0x01000005).env.ops[(facingWord 0x01000005).fgi]? = some 0x01000005
      ∧ decodeForeground 0x01000005 = .error .badPreset := ⟨rfl, rfl, rfl, rfl, rfl⟩
theorem witness_step_event :
    (facing (.label 0x80000005) lab).mark = none ∧ (facing (.label 0x80000005) lab).turn.move = .label 0x80000005
      ∧ decodeEvent 0x80000005 = .ok (.evRx 5) := ⟨rfl, rfl, rfl⟩
theorem witness_step_dispatch :
    (facing (.label 0x90000000) lab).mark = none ∧ (facing (.label 0x90000000) lab).turn.move = .label 0x90000000
      ∧ decodeEvent 0x90000000 = .ok .dispatch := ⟨rfl, rfl, rfl⟩
theorem witness_step_dispatcher :
    (facing .dispatcher lab).mark = none ∧ (facing .dispatcher lab).turn.move = .dispatcher := ⟨rfl, rfl⟩

def faulted : State := lab.setMark ⟨.fault .notInit, .fg, 0, none⟩
def refused : State := lab.setMark ⟨.refusal .illegalWord, .fg, 0, none⟩
theorem witness_marked :
    faulted.mark = some ⟨.fault .notInit, .fg, 0, none⟩ ∧ refused.mark = some ⟨.refusal .illegalWord, .fg, 0, none⟩ :=
  ⟨rfl, rfl⟩

/-- A write of a field to the configured descriptor 1, and to descriptor 0, which no operation has configured. -/
def writing (h : Handle) (f : DescField) : State := facing (.descWrite h f) received
theorem witness_desc_write_refused :
    (writing 1 (.slotId 3)).mark = none ∧ (writing 1 (.slotId 3)).turn.move = .descWrite 1 (.slotId 3)
      ∧ (writing 1 (.slotId 3)).disp = .idle
      ∧ descAt (writing 1 (.slotId 3)).d 1 = some { rxDesc with configured := true } := by
  refine ⟨rfl, rfl, rfl, ?_⟩; decide
theorem witness_desc_write_before_configuration :
    (writing 0 (.kind .receive)).mark = none ∧ (writing 0 (.kind .receive)).turn.move = .descWrite 0 (.kind .receive)
      ∧ (writing 0 (.kind .receive)).disp = .idle ∧ descAt (writing 0 (.kind .receive)).d 0 = some txDesc
      ∧ txDesc.configured = false := by
  refine ⟨rfl, rfl, rfl, ?_, rfl⟩; decide
theorem witness_desc_write_accepted :
    (writing 1 (.buffer frame)).mark = none ∧ (writing 1 (.buffer frame)).disp = .idle
      ∧ (writing 1 (.buffer frame)).turn.move = .descWrite 1 (.buffer frame)
      ∧ descAt (writing 1 (.buffer frame)).d 1 = some { rxDesc with configured := true } := by
  refine ⟨rfl, rfl, rfl, ?_⟩; decide

theorem witness_selected :
    (withPage 0x5F lab).selected = some 5 ∧ (withPage 0x60 lab).selected = none ∧ (withPage 0xF7 lab).selected = none := by
  decide
theorem witness_page_select : 6 ≤ (6 : Byte).toNat ∧ 6 ≤ (255 : Byte).toNat := by decide
theorem witness_gcon_write :
    (0xFC : Byte).toNat % 4 = 0 ∧ ∃ t, lab.regWrite (.global .gcon) 0xFC = .ok t := ⟨by decide, _, rfl⟩
theorem witness_message_access :
    Memory.wf received.data = true ∧ (withPage 0x57 received).g.page = pageByte 5 7
      ∧ (withPage 0x00 received).g.page = pageByte 0 0 ∧ 96 ≤ (withPage 0x60 received).g.page.toNat := by decide
theorem witness_message_access_fixed_index :
    (withPage 0x5F received).g.page = BitVec.ofNat 8 (16 * (5 : SlotIx).val + 8 + 7)
      ∧ (withPage 0x08 received).g.page = BitVec.ofNat 8 (16 * (0 : SlotIx).val + 8 + 0) := by decide
theorem witness_init_can : (0 : BitVec 3).toNat < 5 ∧ (4 : BitVec 3).toNat < 5 := by decide
theorem witness_init_can_refused : 5 ≤ (5 : BitVec 3).toNat ∧ 5 ≤ (7 : BitVec 3).toNat := by decide

theorem accepted_tx : Accepted lab 0 txDesc 0 := ⟨rfl, by decide, by decide⟩
theorem accepted_rx : Accepted lab 1 rxDesc 2 := ⟨rfl, by decide, by decide⟩
theorem accepted_auto : Accepted lab 2 autoDesc 3 := ⟨rfl, by decide, by decide⟩
theorem accepted_last : Accepted lab 4 lastTxDesc 5 := ⟨rfl, by decide, by decide⟩

theorem witness_cfg_rx : Accepted lab 1 rxDesc 2 ∧ rxDesc.kind = .receive := ⟨accepted_rx, rfl⟩
theorem witness_cfg_tx : Accepted lab 0 txDesc 0 ∧ txDesc.kind = .transmit := ⟨accepted_tx, rfl⟩
theorem witness_cfg_tx_last : Accepted lab 4 lastTxDesc 5 ∧ lastTxDesc.kind = .transmit := ⟨accepted_last, rfl⟩
theorem witness_cfg_auto : Accepted lab 2 autoDesc 3 ∧ autoDesc.kind = .autoReply := ⟨accepted_auto, rfl⟩
theorem witness_fault_not_init :
    State.reset.init = false ∧ Instr.cfgRx 0 ∈ [Instr.cfgRx 0, .cfgTx 0, .cfgAuto 0, .resume 0, .pause 0, .isPaused 0, .status 0] := by
  decide
theorem witness_fault_bad_handle : lab.init = true ∧ descAt lab.d 7 = none := by decide
theorem witness_fault_bad_slot :
    lab.init = true ∧ descAt lab.d 6 = some badSlotDesc ∧ 6 ≤ badSlotDesc.slotId.toNat
      ∧ descAt lab.d 0xFFFF = some farSlotDesc ∧ 6 ≤ farSlotDesc.slotId.toNat := by decide
theorem witness_fault_kind :
    Accepted lab 0 txDesc 0 ∧ txDesc.kind ≠ .receive ∧ txDesc.kind ≠ .autoReply
      ∧ Accepted lab 1 rxDesc 2 ∧ rxDesc.kind ≠ .transmit := ⟨accepted_tx, by decide, by decide, accepted_rx, by decide⟩

theorem witness_resume_sends :
    Accepted (filling countUp 1 lab) 0 txDesc 0 ∧ txDesc.kind = .transmit
      ∧ (filling countUp 1 lab).env.draws.fill = .answer countUp 1 ∧ (1 : Byte) ≠ 0
      ∧ Memory.wf (filling countUp 1 lab).data = true := ⟨⟨rfl, by decide, by decide⟩, rfl, rfl, by decide, rfl⟩
theorem witness_resume_sends_long :
    Accepted (filling countUp 255 lab) 4 lastTxDesc 5 ∧ lastTxDesc.kind = .transmit
      ∧ Memory.wf (filling countUp 255 lab).data = true ∧ (filling countUp 255 lab).env.draws.fill = .answer countUp 255
      ∧ (255 : Byte) ≠ 0 := ⟨⟨rfl, by decide, by decide⟩, rfl, rfl, rfl, by decide⟩
theorem witness_resume_empty :
    Accepted (filling countUp 0 lab) 0 txDesc 0 ∧ txDesc.kind = .transmit
      ∧ (filling countUp 0 lab).env.draws.fill = .answer countUp 0 := ⟨⟨rfl, by decide, by decide⟩, rfl, rfl⟩
theorem witness_resume_arms : Accepted lab 1 rxDesc 2 ∧ rxDesc.kind ≠ .transmit ∧ Accepted lab 2 autoDesc 3
    ∧ autoDesc.kind ≠ .transmit := ⟨accepted_rx, by decide, accepted_auto, by decide⟩

def misbehaving (s : State) : State := withDraws (fun d => { d with fill := .misbehave, deliver := .misbehave }) s
theorem witness_misbehaving_fill :
    Accepted (misbehaving lab) 0 txDesc 0 ∧ txDesc.kind = .transmit ∧ (misbehaving lab).env.draws.fill = .misbehave :=
  ⟨⟨rfl, by decide, by decide⟩, rfl, rfl⟩
theorem witness_misbehaving_deliver :
    (misbehaving (inPhase (.act 2 0x20) received)).disp = .act 2 0x20 ∧ (0x20 : Byte) &&& 0x9F = 0
      ∧ (0x20 : Byte).getLsbD 5 = true ∧ (misbehaving (inPhase (.act 2 0x20) received)).reg[(2 : SlotIx)] = some 1
      ∧ descAt (misbehaving (inPhase (.act 2 0x20) received)).d 1 = some { rxDesc with configured := true }
      ∧ (misbehaving (inPhase (.act 2 0x20) received)).selected = some 2
      ∧ (misbehaving (inPhase (.act 2 0x20) received)).env.draws.deliver = .misbehave := by
  refine ⟨rfl, by decide, by decide, by decide, by decide, by decide, rfl⟩
theorem witness_pause : Accepted lab 0 txDesc 0 ∧ txDesc.kind = .transmit ∧ Accepted lab 2 autoDesc 3
    ∧ autoDesc.kind ≠ .transmit := ⟨accepted_tx, rfl, accepted_auto, by decide⟩
theorem witness_is_paused_and_status : Accepted lab 0 txDesc 0 ∧ Accepted lab 4 lastTxDesc 5 := ⟨accepted_tx, accepted_last⟩

theorem witness_entry :
    received.gie = true ∧ received.disp = .idle ∧ irqCond received = true ∧ entryGuard received = true := by decide
theorem witness_exit : (inPhase .exit lab).disp = .exit := rfl
theorem witness_bus_off :
    (inPhase .entry lab).disp = .entry ∧ boffit (inPhase .entry lab).g.git = false
      ∧ (inPhase .entry { lab with g := { lab.g with git := 0x40 } }).disp = .entry
      ∧ boffit (inPhase .entry { lab with g := { lab.g with git := 0x40 } }).g.git = true := by
  refine ⟨rfl, ?_, rfl, ?_⟩ <;> decide
theorem witness_scan :
    (inPhase (.slot 5) received).disp = .slot 5 ∧ (inPhase (.slot 5) received).reg[(5 : SlotIx)] = none
      ∧ (inPhase (.slot 2) received).disp = .slot 2 ∧ (inPhase (.slot 2) received).reg[(2 : SlotIx)] = some 1 := by
  refine ⟨rfl, ?_, rfl, ?_⟩ <;> decide
theorem witness_error_action :
    (inPhase (.act 2 0xA0) received).disp = .act 2 0xA0 ∧ (0xA0 : Byte) &&& 0x9F ≠ 0
      ∧ (inPhase (.act 2 0xA0) received).selected = some 2 := by
  refine ⟨rfl, ?_, ?_⟩ <;> decide
theorem witness_reception_action :
    (inPhase (.act 2 0x60) received).disp = .act 2 0x60 ∧ (0x60 : Byte) &&& 0x9F = 0 ∧ (0x60 : Byte).getLsbD 5 = true
      ∧ (inPhase (.act 2 0x60) received).reg[(2 : SlotIx)] = some 1
      ∧ descAt (inPhase (.act 2 0x60) received).d 1 = some { rxDesc with configured := true }
      ∧ (inPhase (.act 2 0x60) received).selected = some 2 ∧ ainc (inPhase (.act 2 0x60) received).g.page = false
      ∧ (inPhase (.act 2 0x60) received).env.draws.deliver = .accept := by
  refine ⟨rfl, by decide, by decide, by decide, by decide, by decide, by decide, rfl⟩
theorem witness_reception_of_a_transmit_slot :
    (inPhase (.act 0 0x20) transmitted).disp = .act 0 0x20 ∧ (inPhase (.act 0 0x20) transmitted).reg[(0 : SlotIx)] = some 0
      ∧ descAt (inPhase (.act 0 0x20) transmitted).d 0 = some { txDesc with configured := true }
      ∧ (inPhase (.act 0 0x20) transmitted).selected = some 0 := by
  refine ⟨rfl, ?_, ?_, ?_⟩ <;> decide
theorem witness_transmission_action :
    (inPhase (.act 0 0x40) transmitted).disp = .act 0 0x40 ∧ (0x40 : Byte) &&& 0x9F = 0
      ∧ (0x40 : Byte).getLsbD 5 = false ∧ (0x40 : Byte).getLsbD 6 = true
      ∧ (inPhase (.act 0 0x40) transmitted).reg[(0 : SlotIx)] = some 0
      ∧ descAt (inPhase (.act 0 0x40) transmitted).d 0 = some { txDesc with configured := true }
      ∧ (inPhase (.act 0 0x40) transmitted).selected = some 0 ∧ txDesc.kind = .transmit := by
  refine ⟨rfl, ?_, ?_, ?_, ?_, ?_, ?_, rfl⟩ <;> decide
theorem witness_transmission_of_another_kind :
    (inPhase (.act 2 0x40) received).disp = .act 2 0x40 ∧ (inPhase (.act 2 0x40) received).reg[(2 : SlotIx)] = some 1
      ∧ (inPhase (.act 2 0x40) received).selected = some 2 ∧ rxDesc.kind ≠ .transmit := by
  refine ⟨rfl, ?_, ?_, ?_⟩ <;> decide
theorem witness_idle_action : (inPhase (.act 5 0) lab).disp = .act 5 0 := rfl
theorem witness_no_fault :
    registryOk (inPhase (.act 2 0x20) received) = true ∧ dispatcherOk (inPhase (.act 2 0x20) received) = true
      ∧ registryOk received = true ∧ dispatcherOk received = true := by decide
theorem witness_invocation :
    entryGuard received = true ∧ registryOk received = true ∧ received.env.draws.deliver = .accept := by
  refine ⟨?_, ?_, rfl⟩ <;> decide

/-- Slot 5 set up for the identifier 0x01F, and the frame that passes its filter, RTR compared. -/
def listening : State :=
  { withDraws (fun d => { d with rx := ⟨15, frame, 0x01F, true⟩ }) lab with
    m := bankSet lab.m 5 ⟨0x02, 0x00, 0x04, 0xFE, 0x00, 0x04, 0x88, 0x00⟩, enmob := bankSet lab.enmob 5 true }
theorem witness_ev_rx :
    nodeOn listening = true ∧ listening.enmob[(5 : SlotIx)] = true
      ∧ (listening.env.draws.rx.rid ^^^ decId listening.m[(5 : SlotIx)].idt1 listening.m[(5 : SlotIx)].idt2)
        &&& decId listening.m[(5 : SlotIx)].idm1 listening.m[(5 : SlotIx)].idm2 = 0
      ∧ listening.m[(5 : SlotIx)].idm4.getLsbD 2 = true
      ∧ listening.env.draws.rx.rtr = listening.m[(5 : SlotIx)].idt4.getLsbD 2 ∧ Memory.wf listening.data = true := by
  refine ⟨?_, ?_, ?_, ?_, ?_, ?_⟩ <;> decide
theorem witness_ev_tx_done :
    nodeOn (withSlot 0 0x44 0x00 true lab) = true ∧ (withSlot 0 0x44 0x00 true lab).enmob[(0 : SlotIx)] = true
      ∧ conmob (withSlot 0 0x44 0x00 true lab).m[(0 : SlotIx)].cdmob = 0b01
      ∧ conmob (withSlot 0 0xA8 0x00 true lab).m[(0 : SlotIx)].cdmob = 0b10
      ∧ rplv (withSlot 0 0xA8 0x00 true lab).m[(0 : SlotIx)].cdmob = true := by
  refine ⟨?_, ?_, ?_, ?_, ?_⟩ <;> decide
theorem witness_ev_mob_err :
    nodeOn (withSlot 0 0x41 0x00 true lab) = true ∧ (withSlot 0 0x41 0x00 true lab).enmob[(0 : SlotIx)] = true
      ∧ (withDraws (fun d => { d with errBits := 0x1F }) (withSlot 0 0x41 0x00 true lab)).env.draws.errBits ≠ 0
      ∧ (withDraws (fun d => { d with errBits := 0x1F }) (withSlot 0 0x41 0x00 true lab)).env.draws.errBits &&& 0xE0 = 0 := by
  refine ⟨?_, ?_, ?_, ?_⟩ <;> decide
theorem witness_node_events :
    nodeOn lab = true ∧ enastb { lab.g with gsta := 0x00 }.gcon = true ∧ enfg { lab.g with gsta := 0x00 }.gsta = false := by
  decide
theorem witness_disabled_foreground :
    (facing .foreground (inPhase .exit lab)).mark = none ∧ (facing .foreground (inPhase .exit lab)).disp ≠ .idle
      ∧ (facing .foreground (inPhase .exit lab)).turn.move = .foreground
      ∧ (facing (.descWrite 0 (.slotId 1)) (inPhase .entry lab)).turn.move = .descWrite 0 (.slotId 1) := by
  refine ⟨rfl, by decide, rfl, rfl⟩
theorem witness_disabled_at_the_end :
    (facing .foreground (withOps [0x20000000] { lab with fgi := 1 })).mark = none
      ∧ (facing .foreground (withOps [0x20000000] { lab with fgi := 1 })).turn.move = .foreground
      ∧ (facing .foreground (withOps [0x20000000] { lab with fgi := 1 })).env.ops.length
        ≤ (facing .foreground (withOps [0x20000000] { lab with fgi := 1 })).fgi := ⟨rfl, rfl, by decide⟩
theorem witness_disabled_dispatcher : lab.disp = .idle ∧ entryGuard lab = false := by decide
theorem witness_disabled_events : nodeOn State.reset = false ∧ lab.enmob[(0 : SlotIx)] = false := by decide
theorem witness_disabled_slot_numbers : 6 ≤ (6 : BitVec 3).toNat ∧ 6 ≤ (7 : BitVec 3).toNat := by decide
theorem witness_disabled_node_en :
    enastb State.reset.g.gcon = false ∧ enfg lab.g.gsta = true := by decide
theorem witness_disabled_errors :
    lab.env.draws.errBits = 0 ∧ (withDraws (fun d => { d with errBits := 0x20 }) lab).env.draws.errBits &&& 0xE0 ≠ 0
      ∧ (withDraws (fun d => { d with errBits := 0x9F }) lab).env.draws.errBits &&& 0xE0 ≠ 0 := by decide
theorem witness_disabled_transmission :
    conmob (withSlot 0 0x88 0x00 true lab).m[(0 : SlotIx)].cdmob ≠ 0b01
      ∧ ¬ (conmob (withSlot 0 0x88 0x00 true lab).m[(0 : SlotIx)].cdmob = 0b10
        ∧ rplv (withSlot 0 0x88 0x00 true lab).m[(0 : SlotIx)].cdmob = true)
      ∧ conmob (withSlot 5 0xE8 0x00 true lab).m[(5 : SlotIx)].cdmob ≠ 0b01
      ∧ conmob (withSlot 5 0xE8 0x00 true lab).m[(5 : SlotIx)].cdmob ≠ 0b10 := by decide
/-- A frame that `listening`'s slot 5 rejects by its identifier, and one it rejects by its RTR bit. -/
theorem witness_disabled_reception :
    ((0x020 : Ident) ^^^ decId listening.m[(5 : SlotIx)].idt1 listening.m[(5 : SlotIx)].idt2)
        &&& decId listening.m[(5 : SlotIx)].idm1 listening.m[(5 : SlotIx)].idm2 ≠ 0
      ∧ (withDraws (fun d => { d with rx := ⟨8, frame, 0x020, true⟩ }) listening).env.draws.rx.rid = 0x020
      ∧ listening.m[(5 : SlotIx)].idm4.getLsbD 2 = true
      ∧ (withDraws (fun d => { d with rx := ⟨8, frame, 0x01F, false⟩ }) listening).env.draws.rx.rtr
        ≠ listening.m[(5 : SlotIx)].idt4.getLsbD 2 := by decide
theorem witness_events_write_only : Instr.isForeground (.evMobErr 7) = false ∧ Instr.evMobErr 7 ≠ .dispatch := by decide
theorem witness_launch :
    CleanLaunch (State.launch ⟨resetParams, [0x01000000], store, Vector.replicate 6 resetMob, [(47, 0xFF)], []⟩) :=
  ⟨_, by decide, rfl⟩

/-- A consistent state from which a step exists; every step from an unmarked state answers a next state. -/
theorem witness_invariants :
    memoryOk received = true ∧ registryOk received = true ∧ dispatcherOk received = true ∧ nodeOk received = true
      ∧ engagedOk received = true ∧ pageOk received = true ∧ bocOk received = true := by decide
theorem witness_invariant_step : ∃ t, step (facing .dispatcher received) = .next t := ⟨_, rfl⟩
theorem witness_dispatcher_invariant :
    dispatcherOk (inPhase (.act 2 0x20) received) = true ∧ dispatcherOk (inPhase .exit lab) = true := by decide
theorem witness_software_steps :
    (facing .foreground lab).turn.move = .foreground ∧ (facing .dispatcher lab).turn.move = .dispatcher
      ∧ (facing (.label 0x90000000) lab).turn.move = .label 0x90000000 := ⟨rfl, rfl, rfl⟩
/-- The micro-step that counts: the premise of the last statement is met. -/
theorem witness_bus_off_counts :
    (after (step (facing .dispatcher (inPhase .entry { lab with g := { lab.g with git := 0x40 } })))).map (·.boc) = some 1
      ∧ lab.boc = 0 := by decide

end Sys2Proof.Tests
end

section
/-! Family 00_scope.md: a marked state is quiescent, and a step whose guard is false is no step (R9). Each turn, micro-step
and event has one lemma that says when it leaves the state it acts on as it is; the statements are read off these. -/

namespace Sys2Proof.Machine

/-! ### The step of a marked and of an unmarked state (00_scope.md R9) -/

theorem step_of_mark {s : State} {m : Mark} (hm : s.mark = some m) : step s = m.outcome := by
  simp only [step, hm]

theorem step_of_unmarked {s : State} (hm : s.mark = none) : step s = runTurn s := by
  simp only [step, hm]

theorem Mark.outcome_of_fault {m : Mark} {f : Fault} (h : m.stop = .fault f) : m.outcome = .fault f := by
  simp only [Mark.outcome, h]

theorem Mark.outcome_of_refusal {m : Mark} {r : Refusal} (h : m.stop = .refusal r) : m.outcome = .refused r := by
  simp only [Mark.outcome, h]

theorem Mark.outcome_ne_next (m : Mark) (t : State) : m.outcome ≠ .next t := by
  cases hs : m.stop with
  | fault f => simp [Mark.outcome_of_fault hs]
  | refusal r => simp [Mark.outcome_of_refusal hs]

/-- Settles O9: the step of a marked state answers the recorded stop. -/
theorem markedStateIsQuiescent : Obligations.MarkedStateIsQuiescent := by
  intro s m hm
  rw [step_of_mark hm]
  exact ⟨m.outcome_ne_next, fun _ => Mark.outcome_of_fault, fun _ => Mark.outcome_of_refusal⟩

/-! ### Software turns that are no step (20_memory.md R54, 10_state.md R14) -/

theorem runTurn_foreground {s : State} (hv : s.turn.move = .foreground) : runTurn s = foregroundTurn s s.begin := by
  simp only [runTurn, hv]

theorem runTurn_descWrite {s : State} {h : Handle} {f : DescField} (hv : s.turn.move = .descWrite h f) :
    runTurn s = descWriteTurn h f s s.begin := by
  simp only [runTurn, hv]

theorem foregroundTurn_while_dispatching (before : State) {s : State} (hd : s.disp ≠ .idle) :
    foregroundTurn before s = .next s := if_neg hd

theorem descWriteTurn_while_dispatching (h : Handle) (f : DescField) (before : State) {s : State}
    (hd : s.disp ≠ .idle) : descWriteTurn h f before s = .next s := if_neg hd

theorem State.fetch_eq_none {s : State} : s.fetch = none ↔ s.env.ops.length ≤ s.fgi := List.getElem?_eq_none_iff

theorem foregroundTurn_at_the_end (before : State) {s : State} (hf : s.fetch = none) :
    foregroundTurn before s = .next s := by
  simp only [foregroundTurn, hf, ite_self]

/-! ### The dispatcher without its entry guard (60_exceptions.md R136) -/

theorem microStep_not_entered {s : State} (hd : s.disp = .idle) (hg : entryGuard s = false) :
    microStep s = .next s := by
  simp [microStep, hd, hg]

theorem execDispatch_not_entered {s : State} (hg : entryGuard s = false) : execDispatch s = .next s := by
  simp [execDispatch, hg]

/-! ### Events whose guard is false (46_bus_events.md R126-R131) -/

theorem execEvBusOff_disabled {s : State} (hn : nodeOn s = false) : execEvBusOff s = .next s := by
  simp [execEvBusOff, hn]

theorem execEvNodeEn_disabled {s : State} (hg : nodeEnEnabled s = false) : execEvNodeEn s = .next s := by
  simp [execEvNodeEn, hg]

theorem nodeEnEnabled_eq_false {s : State} :
    nodeEnEnabled s = false ↔ enastb s.g.gcon = false ∨ enfg s.g.gsta = true := by
  simp [nodeEnEnabled, or_iff_not_imp_left]

/-- The guard of EV_RX, term by term (46_bus_events.md R127). -/
theorem rxEnabled_iff {k : SlotIx} {s : State} : rxEnabled k s = true ↔
    nodeOn s = true ∧ s.enmob[k] = true
      ∧ (s.env.draws.rx.rid ^^^ decId s.m[k].idt1 s.m[k].idt2) &&& decId s.m[k].idm1 s.m[k].idm2 = 0
      ∧ (rtrmsk s.m[k].idm4 = true → s.env.draws.rx.rtr = rtrtag s.m[k].idt4) := by
  simp [rxEnabled, acceptance, and_assoc, or_iff_not_imp_left]

/-- The guard of EV_TX_DONE, term by term (46_bus_events.md R128). -/
theorem txEnabled_iff {k : SlotIx} {s : State} : txEnabled k s = true ↔
    nodeOn s = true ∧ s.enmob[k] = true
      ∧ (conmob s.m[k].cdmob = 0b01 ∨ conmob s.m[k].cdmob = 0b10 ∧ rplv s.m[k].cdmob = true) := by
  simp [txEnabled, and_assoc]

/-- The guard of EV_MOB_ERR, term by term: its payload is a non-empty subset of bits 4:0 (46_bus_events.md R129). -/
theorem errEnabled_iff {k : SlotIx} {s : State} : errEnabled k s = true ↔
    nodeOn s = true ∧ s.enmob[k] = true ∧ s.env.draws.errBits ≠ 0 ∧ s.env.draws.errBits &&& 0xE0 = 0 := by
  have hmask : ~~~irqErr = 0xE0 := by decide
  simp [errEnabled, hmask, and_assoc]

/-- A slot event changes nothing where its guard is false on the slot it names, if it names one. -/
theorem slotEvent_disabled {v : BitVec 3} {guard : SlotIx → State → Bool} (effect : SlotIx → State → State) {s : State}
    (h : ∀ k : SlotIx, v = BitVec.ofNat 3 k.val → ¬ guard k s = true) : slotEvent v guard effect s = .next s := by
  rcases slotEvent_cases v guard effect s with hn | ⟨k, hv, hg, -⟩
  · exact hn
  · exact absurd hg (h k hv)

theorem eventSlot_injective {j k : SlotIx} : BitVec.ofNat 3 k.val = BitVec.ofNat 3 j.val → j = k := by
  revert j k; decide

/-- A slot event on a named slot whose guard is false there. -/
theorem slotEvent_disabled_at {k : SlotIx} {guard : SlotIx → State → Bool} (effect : SlotIx → State → State) {s : State}
    (h : ¬ guard k s = true) : slotEvent (BitVec.ofNat 3 k.val) guard effect s = .next s := by
  rw [slotEvent_eq, if_neg h]

/-- The three events on a slot share two terms of their guards: the node on, and the slot engaged. -/
theorem slotEvents_need_engaged_slot {v : BitVec 3} {s : State}
    (h : ∀ k : SlotIx, v = BitVec.ofNat 3 k.val → nodeOn s = true → s.enmob[k] = true → False) :
    exec (.evRx v) s = .next s ∧ exec (.evTxDone v) s = .next s ∧ exec (.evMobErr v) s = .next s := by
  refine ⟨slotEvent_disabled _ fun k hv hg => ?_, slotEvent_disabled _ fun k hv hg => ?_,
    slotEvent_disabled _ fun k hv hg => ?_⟩
  · obtain ⟨hn, he, -⟩ := rxEnabled_iff.mp hg
    exact h k hv hn he
  · obtain ⟨hn, he, -⟩ := txEnabled_iff.mp hg
    exact h k hv hn he
  · obtain ⟨hn, he, -⟩ := errEnabled_iff.mp hg
    exact h k hv hn he

theorem slotEvents_node_off {s : State} (hn : nodeOn s = false) (v : BitVec 3) :
    exec (.evRx v) s = .next s ∧ exec (.evTxDone v) s = .next s ∧ exec (.evMobErr v) s = .next s :=
  slotEvents_need_engaged_slot fun _ _ hon _ => by simp [hn] at hon

theorem slotEvents_no_slot {v : BitVec 3} (hv : 6 ≤ v.toNat) (s : State) :
    exec (.evRx v) s = .next s ∧ exec (.evTxDone v) s = .next s ∧ exec (.evMobErr v) s = .next s := by
  refine slotEvents_need_engaged_slot fun k hk _ _ => ?_
  subst hk
  have : (BitVec.ofNat 3 k.val).toNat ≤ k.val := Nat.mod_le _ _
  omega

theorem slotEvents_not_engaged {k : SlotIx} {s : State} (he : s.enmob[k] = false) :
    exec (.evRx (BitVec.ofNat 3 k.val)) s = .next s ∧ exec (.evTxDone (BitVec.ofNat 3 k.val)) s = .next s
      ∧ exec (.evMobErr (BitVec.ofNat 3 k.val)) s = .next s := by
  refine slotEvents_need_engaged_slot fun j hj _ hej => ?_
  obtain rfl := eventSlot_injective hj
  simp [he] at hej

/-- Settles O48, clause by clause: each guard's terms are those of `rxEnabled_iff`, `txEnabled_iff`, `errEnabled_iff` and
`nodeEnEnabled_eq_false`. -/
theorem disabledStepsChangeNothing : Obligations.DisabledStepsChangeNothing := by
  refine ⟨?_, ?_, fun s => ⟨microStep_not_entered, execDispatch_not_entered,
    fun hn => ⟨execEvBusOff_disabled hn, slotEvents_node_off hn⟩,
    fun hg => execEvNodeEn_disabled (nodeEnEnabled_eq_false.mpr hg),
    fun v hv => slotEvents_no_slot hv s, fun k => ⟨slotEvents_not_engaged, ?_, ?_, ?_, ?_⟩⟩⟩
  · intro s hm hd hmove
    have hbusy : s.begin.disp ≠ .idle := hd
    rcases hmove with hv | ⟨h, f, hv⟩
    · rw [step_of_unmarked hm, runTurn_foreground hv, foregroundTurn_while_dispatching s hbusy]
    · rw [step_of_unmarked hm, runTurn_descWrite hv, descWriteTurn_while_dispatching h f s hbusy]
  · intro s hm hv hend
    have hnone : s.begin.fetch = none := State.fetch_eq_none.mpr hend
    rw [step_of_unmarked hm, runTurn_foreground hv, foregroundTurn_at_the_end s hnone]
  · intro hid
    refine slotEvent_disabled_at _ fun hg => ?_
    obtain ⟨-, -, hfilter, -⟩ := rxEnabled_iff.mp hg
    exact hid hfilter
  · intro hmask hrtr
    refine slotEvent_disabled_at _ fun hg => ?_
    obtain ⟨-, -, -, hcompare⟩ := rxEnabled_iff.mp hg
    exact hrtr (hcompare hmask)
  · intro htx hreply
    refine slotEvent_disabled_at _ fun hg => ?_
    obtain ⟨-, -, harmed⟩ := txEnabled_iff.mp hg
    exact harmed.elim htx hreply
  · intro hbits
    refine slotEvent_disabled_at _ fun hg => ?_
    obtain ⟨-, -, hne, hsub⟩ := errEnabled_iff.mp hg
    exact hbits.elim hne fun hout => hout hsub

end Sys2Proof.Machine
end

section
/-! Family 10_state.md. `Kept` is a preorder on states that says what every step keeps of the store, the registry, the
message buffers, the slots and the trace; `SoftwareKept` adds what a step of the software keeps. Each operation of the
model satisfies one of them, and a step is a composition of operations: the invariants of the state are read off. -/

namespace Sys2Proof.Machine

open Sys2Proof.Safety

/-! ### One turn of the software, said by its outcome (10_state.md R14, R36) -/

theorem runTurn_foreground_fetched {s : State} {w : Word} (hv : s.turn.move = .foreground) (hd : s.disp = .idle)
    (hf : s.env.ops[s.fgi]? = some w) : runTurn s = recordStop s .fg (some w) (runWord w s.begin) := by
  have hfetch : s.begin.fetch = some w := hf
  have hidle : s.begin.disp = .idle := hd
  simp only [runTurn_foreground hv, foregroundTurn, hidle, if_true, hfetch]

theorem runWord_ok {w : Word} {i : Instr} (hi : decodeForeground w = .ok i) (s : State) :
    runWord w s = chain (exec i s) fun t => .next t.completeOp := by
  simp only [runWord, hi]

theorem runWord_error {w : Word} {e : Illegal} (he : decodeForeground w = .error e) (s : State) :
    runWord w s = .refused .illegalWord := by
  simp only [runWord, he]

/-- Settles O6: `recordStop` of the decoded word's outcome, by the outcome of `exec`. -/
theorem stepRunsForegroundWord : Obligations.StepRunsForegroundWord := by
  intro s w hm hv hd hf
  rw [step_of_unmarked hm, runTurn_foreground_fetched hv hd hf]
  constructor
  · intro i hi
    rw [runWord_ok hi]
    cases exec i s.begin <;> rfl
  · intro e he
    rw [runWord_error he]
    rfl

theorem runTurn_descWrite_idle {s : State} {h : Handle} {f : DescField} (hv : s.turn.move = .descWrite h f)
    (hd : s.disp = .idle) : runTurn s = recordStop s .fg none (descWrite h f s.begin) := by
  have hidle : s.begin.disp = .idle := hd
  simp only [runTurn_descWrite hv, descWriteTurn, hidle, if_true]

/-- `DescWrite` of a descriptor of the store: refused, or the one field stored (10_state.md R36). -/
theorem descWrite_of_descAt {h : Handle} {s : State} {d : Desc} (hd : descAt s.d h = some d) (f : DescField) :
    descWrite h f s = if immutableField f && d.configured then .refused .descImmutable
      else .next (s.updateDesc h (applyField f)) := by
  simp only [descWrite, hd]

/-- `descAt_descUpdate` with the handle written in place of the equal one that is read. -/
theorem descAt_descUpdate_handle (store : DescStore) (h k : Handle) (g : Desc → Desc) :
    descAt (descUpdate store h g) k = if k = h then (descAt store h).map g else descAt store k := by
  rw [descAt_descUpdate]
  by_cases hk : k = h
  · simp only [hk, if_true]
  · simp only [hk, if_false]

/-- Settles O10: field by field, `immutableField` and `applyField` are what the statement writes out. -/
theorem descWriteFollowsTheContract : Obligations.DescWriteFollowsTheContract := by
  refine ⟨fun s h f d hm hv hd hat => ?_, descAt_descUpdate_handle⟩
  have hat' : descAt s.begin.d h = some d := hat
  rw [step_of_unmarked hm, runTurn_descWrite_idle hv hd, descWrite_of_descAt hat']
  cases f with
  | slotId v => cases d.configured <;> rfl
  | kind v => cases d.configured <;> rfl
  | _ => rfl

/-! ### What every step keeps: one preorder on states -/

/-- What no step takes from a descriptor: once configured it stays so, with its slot and kind (10_state.md R36). -/
def DescKept (x y : Desc) : Prop :=
  x.configured = true → y.configured = true ∧ y.slotId = x.slotId ∧ y.kind = x.kind

/-- A later descriptor store: the same handles, and every descriptor kept (10_state.md R35). -/
def StoreKept (d e : DescStore) : Prop :=
  descHandles e = descHandles d ∧ ∀ h x, descAt d h = some x → ∃ y, descAt e h = some y ∧ DescKept x y

/-- The handle leads to a configured descriptor of slot `k` (92_eei_decisions.md D28). -/
def LeadsTo (d : DescStore) (h : Handle) (k : SlotIx) : Prop :=
  ∃ x, descAt d h = some x ∧ x.configured = true ∧ slotOf x.slotId = some k

theorem DescKept.refl (x : Desc) : DescKept x x := fun hc => ⟨hc, rfl, rfl⟩

theorem DescKept.trans {x y z : Desc} (hxy : DescKept x y) (hyz : DescKept y z) : DescKept x z := by
  intro hx
  obtain ⟨hy, hslot, hkind⟩ := hxy hx
  obtain ⟨hz, hslot', hkind'⟩ := hyz hy
  exact ⟨hz, hslot'.trans hslot, hkind'.trans hkind⟩

theorem StoreKept.refl (d : DescStore) : StoreKept d d := ⟨rfl, fun _ x hx => ⟨x, hx, DescKept.refl x⟩⟩

theorem StoreKept.trans {a b c : DescStore} (hab : StoreKept a b) (hbc : StoreKept b c) : StoreKept a c := by
  refine ⟨hbc.1.trans hab.1, fun h x hx => ?_⟩
  obtain ⟨y, hy, hxy⟩ := hab.2 h x hx
  obtain ⟨z, hz, hyz⟩ := hbc.2 h y hy
  exact ⟨z, hz, hxy.trans hyz⟩

/-- An update of one handle keeps the store where it keeps the descriptor that the handle names. -/
theorem StoreKept.update {d : DescStore} {h : Handle} {f : Desc → Desc}
    (hf : ∀ x, descAt d h = some x → DescKept x (f x)) : StoreKept d (descUpdate d h f) := by
  refine ⟨descHandles_descUpdate d h f, fun j x hx => ?_⟩
  rw [descAt_descUpdate, hx]
  by_cases hj : j = h
  · subst hj
    exact ⟨f x, by simp, hf x hx⟩
  · exact ⟨x, by simp [hj], DescKept.refl x⟩

theorem LeadsTo.kept {d e : DescStore} {h : Handle} {k : SlotIx} (hl : LeadsTo d h k) (hk : StoreKept d e) :
    LeadsTo e h k := by
  obtain ⟨x, hx, hc, hslot⟩ := hl
  obtain ⟨y, hy, hxy⟩ := hk.2 h x hx
  obtain ⟨hc', hslot', -⟩ := hxy hc
  exact ⟨y, hy, hc', hslot' ▸ hslot⟩

/-- What every step keeps. Each field is filled in by default where the update leaves its part of the state as it is, so
that a proof of `Kept` names the parts the update writes. -/
structure Kept (s t : State) : Prop where
  params : t.env.params = s.env.params := by rfl
  ops : t.env.ops = s.env.ops := by rfl
  init : s.init = true → t.init = true := by exact fun h => h
  obs : s.obs <+: t.obs := by exact List.prefix_rfl
  iemob : ∀ k : SlotIx, s.iemob[k] = true → t.iemob[k] = true := by exact fun _ h => h
  conmob : ∀ k : SlotIx, conmob t.m[k].cdmob = 0b11 → conmob s.m[k].cdmob = 0b11 := by exact fun _ h => h
  data : Memory.wf s.data = true → Memory.wf t.data = true := by exact fun h => h
  store : StoreKept s.d t.d := by exact StoreKept.refl _
  /-- An entry is an old one, or of an initialised controller and leading to a configured descriptor of its slot. -/
  entry : ∀ (k : SlotIx) (h : Handle), t.reg[k] = some h →
    s.reg[k] = some h ∨ (t.init = true ∧ LeadsTo t.d h k) := by exact fun _ _ h => Or.inl h

/-- What a step of the software keeps beside: no status bit is set (10_state.md R40), and BOFFIT is not. -/
structure SoftwareKept (s t : State) : Prop extends Kept s t where
  status : ∀ k : SlotIx, t.m[k].stmob &&& ~~~s.m[k].stmob = 0 := by exact fun _ => BitVec.and_not_self _
  boffit : boffit t.g.git = true → boffit s.g.git = true := by exact fun h => h

theorem Kept.refl (s : State) : Kept s s := {}

theorem Kept.trans {s t u : State} (hst : Kept s t) (htu : Kept t u) : Kept s u where
  params := htu.params.trans hst.params
  ops := htu.ops.trans hst.ops
  init h := htu.init (hst.init h)
  obs := hst.obs.trans htu.obs
  iemob k h := htu.iemob k (hst.iemob k h)
  conmob k h := hst.conmob k (htu.conmob k h)
  data h := htu.data (hst.data h)
  store := hst.store.trans htu.store
  entry k h hu := by
    rcases htu.entry k h hu with ht | hnew
    · rcases hst.entry k h ht with hs | ⟨hi, hl⟩
      · exact .inl hs
      · exact .inr ⟨htu.init hi, hl.kept htu.store⟩
    · exact .inr hnew

/-- The bits of `y` are bits of `x`. -/
theorem and_not_eq_zero_iff {x y : Byte} :
    y &&& ~~~x = 0 ↔ ∀ i < 8, y.getLsbD i = true → x.getLsbD i = true := by
  rw [BitVec.eq_of_getLsbD_eq_iff]
  refine forall₂_congr fun i hi => ?_
  simp [hi]

theorem SoftwareKept.refl (s : State) : SoftwareKept s s := {}

theorem SoftwareKept.trans {s t u : State} (hst : SoftwareKept s t) (htu : SoftwareKept t u) : SoftwareKept s u where
  toKept := hst.toKept.trans htu.toKept
  status k := and_not_eq_zero_iff.mpr fun i hi hu =>
    and_not_eq_zero_iff.mp (hst.status k) i hi (and_not_eq_zero_iff.mp (htu.status k) i hi hu)
  boffit h := hst.boffit (htu.boffit h)

/-! ### The parts of an update -/

/-- Writing one entry of a bank relates every entry to its old one, where it relates that entry. -/
theorem bankSet_rel {α : Type} {r : α → α → Prop} (hr : ∀ x, r x x) {b : Bank α} {k : SlotIx} {x : α}
    (hx : r b[k] x) (j : SlotIx) : r b[j] (bankSet b k x)[j] := by
  rw [bankSet_get]
  split
  · subst_vars; exact hx
  · exact hr _

/-- CONMOB 0b11 is not written to a slot (10_state.md R26). -/
theorem conmob_bankSet {b : Bank Mob} {k : SlotIx} {x : Mob}
    (hx : conmob x.cdmob = 0b11 → conmob b[k].cdmob = 0b11) (j : SlotIx) :
    conmob (bankSet b k x)[j].cdmob = 0b11 → conmob b[j].cdmob = 0b11 :=
  bankSet_rel (r := fun x y : Mob => conmob y.cdmob = 0b11 → conmob x.cdmob = 0b11) (fun _ h => h) hx j

/-- No status bit of any slot is set by a write to one slot that sets none of it. -/
theorem status_bankSet {b : Bank Mob} {k : SlotIx} {x : Mob} (hx : x.stmob &&& ~~~b[k].stmob = 0) (j : SlotIx) :
    (bankSet b k x)[j].stmob &&& ~~~b[j].stmob = 0 :=
  bankSet_rel (r := fun x y : Mob => y.stmob &&& ~~~x.stmob = 0) (fun x => BitVec.and_not_self x.stmob) hx j

/-- Clearing status bits sets none. -/
theorem clear_sets_none (x m : Byte) : x &&& m &&& ~~~x = 0 :=
  and_not_eq_zero_iff.mpr fun i _ h => by
    rw [BitVec.getLsbD_and, Bool.and_eq_true] at h
    exact h.1

/-- CONMOB of a control byte (10_state.md R26). -/
theorem conmob_controlByte (c : BitVec 2) (r i : Bool) {n : Nat} (hn : n < 16) :
    conmob (controlByte c.toNat r i n) = c := by
  have h : ∀ (c : BitVec 2) (r i : Bool) (n : BitVec 4), conmob (encCtrl c r i n) = c := by decide
  have := h c r i (BitVec.ofNat 4 n)
  rwa [encCtrl_eq, BitVec.toNat_ofNat, Nat.mod_eq_of_lt hn] at this

theorem minEight_lt (x : Byte) : minEight x < 16 := Nat.lt_of_le_of_lt (minEight_le x) (by decide)

/-- A write of a control byte whose CONMOB is not the reserved value (10_state.md R26). -/
theorem conmob_bankSet_controlByte {b : Bank Mob} {k : SlotIx} {x : Mob} (c : BitVec 2) {r i : Bool} {n : Nat}
    (hx : x.cdmob = controlByte c.toNat r i n) (hc : c ≠ 0b11) (hn : n < 16) (j : SlotIx) :
    conmob (bankSet b k x)[j].cdmob = 0b11 → conmob b[j].cdmob = 0b11 :=
  conmob_bankSet (fun h => absurd ((conmob_controlByte c r i hn).symm.trans (hx ▸ h)) hc) j

/-! ### The software's operations -/

theorem softwareKept_setDisp (s : State) (p : Phase) : SoftwareKept s (s.setDisp p) := {}

theorem softwareKept_selectPage (s : State) (k : SlotIx) : SoftwareKept s (s.selectPage k) := by
  rw [State.selectPage_eq]
  exact {}

theorem softwareKept_result (s : State) (op : ResultOp) (v : Word) : SoftwareKept s (s.result op v) :=
  { obs := List.prefix_append _ _ }

/-- Arming a slot with any CONMOB but the reserved one (43_transfer_engine.md R106). -/
theorem softwareKept_setConmob {c : BitVec 2} (hc : c ≠ 0b11) (k : SlotIx) (s : State) :
    SoftwareKept s (setConmob k c s) := by
  rw [setConmob_eq]
  exact {
    conmob := conmob_bankSet_controlByte c rfl hc (dlc _).isLt
    status := status_bankSet (BitVec.and_not_self _) }

theorem softwareKept_resumeReceive (k : SlotIx) (s : State) : SoftwareKept s (resumeReceive k s) :=
  (softwareKept_selectPage s k).trans (softwareKept_setConmob (by decide) k _)

theorem softwareKept_pauseBody (kind : Kind) (k : SlotIx) (s : State) : SoftwareKept s (pauseBody kind k s) := by
  cases kind with
  | transmit => exact (softwareKept_selectPage s k).trans (softwareKept_setConmob (by decide) k _)
  | receive => exact .refl s
  | autoReply => exact .refl s

theorem softwareKept_afterReception (kind : Kind) (k : SlotIx) (s : State) :
    SoftwareKept s (afterReception kind k s) := by
  cases kind with
  | transmit => exact softwareKept_pauseBody .transmit k s
  | receive => exact softwareKept_setConmob (by decide) k s
  | autoReply => exact softwareKept_setConmob (by decide) k s

/-- A rewriting of the descriptor of one handle that keeps it. -/
theorem softwareKept_updateDesc {s : State} {h : Handle} {f : Desc → Desc}
    (hf : ∀ x, descAt s.d h = some x → DescKept x (f x)) : SoftwareKept s (s.updateDesc h f) :=
  { store := StoreKept.update hf }

theorem softwareKept_emit (s : State) (o : Obs) : SoftwareKept s (s.emit o) := { obs := List.prefix_append _ _ }

theorem softwareKept_resumeTransmit {h : Handle} {k : SlotIx} {buf : Bytes8} {len : Byte} {s t : State}
    (hs : resumeTransmit h k buf len s = .next t) : SoftwareKept s t := by
  obtain ⟨u, rfl, ht⟩ := resumeTransmit_next hs
  have hfill : SoftwareKept s ((s.updateDesc h fun d => { d with buffer := buf, dataLength := clamp8 len }).emit
      (.txFill h len)) := by
    refine .trans (softwareKept_updateDesc ?_) (softwareKept_emit _ _)
    exact fun x _ hx => ⟨hx, rfl, rfl⟩
  rcases ht with rfl | rfl
  · exact hfill
  · exact hfill.trans {
      conmob := conmob_bankSet_controlByte 0b01 rfl (by decide) (minEight_lt len)
      status := status_bankSet (BitVec.and_not_self _)
      data := writeRun_wf _ k 0 _ }

/-- What a configure operation on descriptor `d` makes of the one its handle names (42_configurator.md R94). -/
def configuredDesc (d x : Desc) : Desc :=
  { x with dataLength := BitVec.ofNat 8 (minEight d.dataLength), configured := true }

theorem descKept_configuredDesc (d x : Desc) : DescKept x (configuredDesc d x) := fun _ => ⟨rfl, rfl, rfl⟩

theorem leadsTo_configuredDesc {store : DescStore} {h : Handle} {d : Desc} {k : SlotIx} (hd : descAt store h = some d)
    (hk : slotOf d.slotId = some k) : LeadsTo (descUpdate store h (configuredDesc d)) h k := by
  refine ⟨configuredDesc d d, ?_, rfl, hk⟩
  rw [descAt_descUpdate, if_pos rfl, hd]
  rfl

/-- A configure operation writes an entry that leads to the descriptor it marks as configured (42_configurator.md
R98). -/
theorem softwareKept_configureBody {kind : Kind} {h : Handle} {d : Desc} {k : SlotIx} {s : State} (hi : s.init = true)
    (hd : descAt s.d h = some d) (hk : slotOf d.slotId = some k) : SoftwareKept s (configureBody kind h d k s) := by
  have hcon : Kind.initialConmob kind ≠ 0b11 := by cases kind <;> decide
  have hstore : StoreKept s.d (descUpdate s.d h (configuredDesc d)) :=
    StoreKept.update fun x _ => descKept_configuredDesc d x
  rw [configureBody_eq]
  exact {
    conmob := conmob_bankSet_controlByte (Kind.initialConmob kind) rfl hcon (minEight_lt d.dataLength)
    status := status_bankSet (BitVec.and_not_self _)
    iemob := bankSet_rel (r := fun x y : Bool => x = true → y = true) (fun _ hx => hx) fun _ => rfl
    store := hstore
    entry := fun j x hx => by
      simp only [bankSet_get] at hx
      split at hx
      · subst_vars
        cases hx
        exact .inr ⟨hi, leadsTo_configuredDesc hd hk⟩
      · exact .inl hx }

theorem softwareKept_initBody (tm : Timing) (s : State) : SoftwareKept s (initBody tm s) := by
  rw [initBody_eq]
  exact {
    init := fun _ => rfl
    conmob := fun k => by simp [show conmob 0#8 ≠ 3#2 by decide]
    status := fun k => by simp
    boffit := fun h => absurd (show boffit 0x00 = true from h) (by decide)
    entry := fun k h he => by simp at he }

/-! ### The dispatcher's micro-steps -/

theorem softwareKept_dispEnter (s : State) : SoftwareKept s s.dispEnter := {}

theorem softwareKept_dispBusOff (s : State) : SoftwareKept s (dispBusOff s) := by
  cases hb : boffit s.g.git with
  | false =>
    rw [dispBusOff_clear s hb]
    exact {}
  | true =>
    rw [dispBusOff_set s hb]
    exact { obs := List.prefix_append _ _, boffit := fun _ => hb }

theorem softwareKept_dispSlot (k : SlotIx) (s : State) : SoftwareKept s (dispSlot k s) := by
  cases hr : s.reg[k] with
  | none =>
    rw [dispSlot_none k s hr]
    exact {}
  | some h =>
    rw [dispSlot_some k s h hr]
    exact {}

theorem softwareKept_received (j : SlotIx) (h : Handle) (n : Byte) (bs : List Byte) (p : Byte) (s : State) :
    SoftwareKept s (received j h n bs p s) := by
  have hstore : StoreKept s.d (descUpdate s.d h fun x => { x with buffer := overlay bs x.buffer }) :=
    StoreKept.update fun x _ hx => ⟨hx, rfl, rfl⟩
  exact {
    obs := List.prefix_append _ _
    store := hstore
    conmob := conmob_bankSet fun hc => hc
    status := status_bankSet (clear_sets_none _ _) }

theorem softwareKept_clearStatus (s : State) (j : SlotIx) (m : Byte) :
    SoftwareKept s (s.setMob j { s.m[j] with stmob := s.m[j].stmob &&& m }) where
  conmob := conmob_bankSet fun hc => hc
  status := status_bankSet (clear_sets_none _ _)

theorem dispAct_softwareKept {k : SlotIx} {st : Byte} {s t : State} (h : dispAct k st s = .next t) :
    SoftwareKept s t := by
  rcases dispAct_next h with rfl | ⟨j, -, -, rfl⟩ | ⟨x, d, j, bs, p, -, -, -, -, -, -, rfl⟩ | ⟨x, d, j, -, -, -, rfl⟩
  · exact softwareKept_setDisp s _
  · exact .trans (softwareKept_clearStatus s j 0x60) { obs := List.prefix_append _ _ }
  · exact (softwareKept_received j x _ bs p s).trans
      ((softwareKept_afterReception d.kind k _).trans (softwareKept_setDisp _ _))
  · exact (softwareKept_clearStatus s j 0xBF).trans
      ((softwareKept_pauseBody d.kind k _).trans (softwareKept_setDisp _ _))

theorem microStep_softwareKept {s t : State} (h : microStep s = .next t) : SoftwareKept s t := by
  rcases microStep_next h with ⟨-, rfl | ⟨-, rfl⟩⟩ | ⟨-, rfl⟩ | ⟨k, -, rfl⟩ | ⟨k, st, -, hact⟩ | ⟨-, rfl⟩
  · exact .refl t
  · exact softwareKept_dispEnter s
  · exact softwareKept_dispBusOff s
  · exact softwareKept_dispSlot k s
  · exact dispAct_softwareKept hact
  · exact {}

theorem execDispatch_softwareKept {s t : State} (h : execDispatch s = .next t) : SoftwareKept s t :=
  execDispatch_keep (P := SoftwareKept s) (fun u hu _ => hu.trans (softwareKept_dispEnter u))
    (fun _ _ hu hstep => hu.trans (microStep_softwareKept hstep)) s t (.refl s) h

/-! ### The hardware's events, and every instruction -/

theorem kept_rxEffect (k : SlotIx) (s : State) : Kept s (rxEffect k s) := by
  rw [rxEffect_eq]
  exact {
    conmob := conmob_bankSet fun h => by rwa [receivedMob, conmob_controlByte _ _ _ (BitVec.isLt _)] at h
    data := hwFill_wf k _ _ _ }

theorem kept_txEffect (k : SlotIx) (s : State) : Kept s (txEffect k s) := by
  rw [txEffect_eq]
  exact { conmob := conmob_bankSet fun h => h }

theorem kept_errEffect (k : SlotIx) (s : State) : Kept s (errEffect k s) := by
  rw [errEffect_eq]
  exact { conmob := conmob_bankSet fun h => h }

theorem kept_busOffEffect (s : State) : Kept s (busOffEffect s) := {}

theorem kept_nodeEnEffect (s : State) : Kept s (nodeEnEffect s) := {}

/-- Every instruction keeps what `SoftwareKept` says, but a hardware event, which keeps what `Kept` says. -/
theorem exec_kept_cases {i : Instr} {s t : State} (h : exec i s = .next t) :
    SoftwareKept s t ∨ (i.isForeground = false ∧ i ≠ .dispatch ∧ Kept s t) := by
  rcases exec_next h with rfl | ⟨op, v, -, rfl⟩ | ⟨tm, -, rfl⟩ | ⟨b, -, rfl⟩
    | ⟨kind, x, d, k, -, hinit, hd, hk, -, rfl⟩ | ⟨x, d, k, buf, len, -, -, -, -, -, hr⟩ | ⟨k, -, rfl⟩ | ⟨k, -, rfl⟩
    | ⟨k, op, v, -, rfl⟩ | ⟨k, hf, hnd, -, rfl⟩ | ⟨k, hf, hnd, -, rfl⟩ | ⟨k, hf, hnd, -, rfl⟩ | ⟨rfl, -, rfl⟩
    | ⟨rfl, -, rfl⟩ | ⟨-, hd⟩
  · exact .inl (.refl t)
  · exact .inl (softwareKept_result s op v)
  · exact .inl (softwareKept_initBody tm s)
  · exact .inl {}
  · exact .inl (softwareKept_configureBody hinit hd hk)
  · exact .inl (softwareKept_resumeTransmit hr)
  · exact .inl (softwareKept_resumeReceive k s)
  · exact .inl (softwareKept_pauseBody .transmit k s)
  · exact .inl ((softwareKept_selectPage s k).trans (softwareKept_result _ op v))
  · exact .inr ⟨hf, hnd, kept_rxEffect k s⟩
  · exact .inr ⟨hf, hnd, kept_txEffect k s⟩
  · exact .inr ⟨hf, hnd, kept_errEffect k s⟩
  · exact .inr ⟨rfl, by decide, kept_busOffEffect s⟩
  · exact .inr ⟨rfl, by decide, kept_nodeEnEffect s⟩
  · exact .inl (execDispatch_softwareKept hd)

theorem exec_kept {i : Instr} {s t : State} (h : exec i s = .next t) : Kept s t := by
  rcases exec_kept_cases h with hs | ⟨-, -, hk⟩
  · exact hs.toKept
  · exact hk

theorem exec_softwareKept {i : Instr} {s t : State} (hi : i.isForeground = true) (h : exec i s = .next t) :
    SoftwareKept s t :=
  (exec_kept_cases h).resolve_right fun ⟨hf, _⟩ => by simp [hi] at hf

/-! ### Every step -/

theorem softwareKept_begin (s : State) : SoftwareKept s s.begin := {}
theorem softwareKept_setMark (s : State) (m : Mark) : SoftwareKept s (s.setMark m) := {}
theorem softwareKept_completeOp (s : State) : SoftwareKept s s.completeOp := {}

/-- A field write that R36 allows: `slot_id` and `kind` only of a descriptor that is not configured. -/
theorem descKept_applyField {f : DescField} {d : Desc} (h : (immutableField f && d.configured) = false) :
    DescKept d (applyField f d) := by
  intro hc
  have hf : immutableField f = false := by simpa [hc] using h
  cases f with
  | slotId v => cases hf
  | kind v => cases hf
  | _ => exact ⟨hc, rfl, rfl⟩

theorem softwareKept_descWrite {s : State} {h : Handle} {f : DescField} {d : Desc} (hd : descAt s.d h = some d)
    (hf : (immutableField f && d.configured) = false) : SoftwareKept s (s.updateDesc h (applyField f)) := by
  refine softwareKept_updateDesc fun x hx => ?_
  rw [hd] at hx
  cases hx
  exact descKept_applyField hf

/-- Every step keeps what `Kept` says: it is composed of operations that do. -/
theorem step_kept {s t : State} (h : step s = .next t) : Kept s t :=
  step_keep (P := Kept s)
    (hb := fun u hu => hu.trans (softwareKept_begin u).toKept)
    (hm := fun u m hu => hu.trans (softwareKept_setMark u m).toKept)
    (hc := fun u hu => hu.trans (softwareKept_completeOp u).toKept)
    (hx := fun _ _ _ hu hx => hu.trans (exec_kept hx))
    (hd := fun _ _ _ _ hu hd hf => hu.trans (softwareKept_descWrite hd hf).toKept)
    (hu := fun _ _ hu hx => hu.trans (microStep_softwareKept hx).toKept) s t (.refl s) h

/-- Settles O57: the fields of `Kept`. -/
theorem stepNeverUndoes : Obligations.StepNeverUndoes := by
  intro s t h
  have hk := step_kept h
  refine ⟨hk.params, hk.ops, hk.init, hk.obs, hk.iemob, hk.conmob, fun x d hd hc => ?_⟩
  obtain ⟨e, he, hde⟩ := hk.store.2 x d hd
  exact ⟨e, he, hde hc⟩

/-- Settles O52: the fields `data` and `store` of `Kept`; the store's form depends on its handles alone. -/
theorem stepKeepsMemoryCanonical : Obligations.StepKeepsMemoryCanonical := by
  intro s t hs h
  have hk := step_kept h
  have hhandles := hk.store.1
  simp only [memoryOk, Bool.and_eq_true] at hs ⊢
  obtain ⟨hdata, hstore⟩ := hs
  exact ⟨⟨hk.data hdata, by rwa [descWf_eq_of_handles _ _ hhandles]⟩, hhandles⟩

theorem registryEntryOk_iff {s : State} {k : SlotIx} :
    registryEntryOk s k = true ↔ ∀ h, s.reg[k] = some h → LeadsTo s.d h k := by
  unfold registryEntryOk LeadsTo
  cases s.reg[k] with
  | none => simp
  | some h => cases hd : descAt s.d h <;> simp [hd]

theorem registryOk_iff {s : State} : registryOk s = true ↔
    (∀ (k : SlotIx) h, s.reg[k] = some h → LeadsTo s.d h k) ∧ (s.init = true ∨ ∀ k : SlotIx, s.reg[k] = none) := by
  simp only [registryOk, Bool.and_eq_true, Bool.or_eq_true, List.all_eq_true, registryEntryOk_iff,
    Option.isNone_iff_eq_none, mem_slots, true_implies]

/-- Settles O53: an entry after the step is an old one, whose descriptor is kept, or one that the step wrote, which
leads to a configured descriptor (the field `entry` of `Kept`). -/
theorem stepKeepsRegistrySound : Obligations.StepKeepsRegistrySound := by
  intro s t hs h
  have hk := step_kept h
  obtain ⟨hleads, hinit⟩ := registryOk_iff.mp hs
  refine registryOk_iff.mpr ⟨fun k x hx => ?_, ?_⟩
  · rcases hk.entry k x hx with hold | ⟨-, hnew⟩
    · exact (hleads k x hold).kept hk.store
    · exact hnew
  · by_cases hti : t.init = true
    · exact .inl hti
    · have hempty := hinit.resolve_left fun hsi => hti (hk.init hsi)
      refine .inr fun k => Option.eq_none_iff_forall_ne_some.mpr fun x hx => ?_
      rcases hk.entry k x hx with hold | ⟨hti', -⟩
      · simp [hempty k] at hold
      · exact hti hti'

/-- What the foreground decoder accepts is a foreground operation (30_encoding.md R63 (a)). -/
theorem isForeground_of_decodeForeground {w : Word} {i : Instr} (h : decodeForeground w = .ok i) :
    i.isForeground = true := by
  obtain ⟨-, -, -, hop⟩ := decodeForeground_ok.mp h
  rcases operation_cases hop with ⟨-, -, rfl⟩ | ⟨-, rfl⟩ | ⟨-, rfl⟩ | ⟨-, rfl⟩ | ⟨-, rfl⟩ | ⟨-, rfl⟩ | ⟨-, rfl⟩
    | ⟨-, rfl⟩ | ⟨-, rfl⟩ | ⟨-, rfl⟩ | ⟨-, rfl⟩ | ⟨-, rfl⟩ | ⟨-, rfl⟩ | ⟨-, rfl⟩ | ⟨-, rfl⟩ | ⟨-, rfl⟩ | ⟨-, rfl⟩
    <;> rfl

/-- DISPATCH has one word (30_encoding.md R64). -/
theorem decodeEvent_eq_dispatch {w : Word} : decodeEvent w = .ok .dispatch ↔ w = 0x90000000 := by
  constructor
  · intro h
    rcases decodeEvent_cases h with
      ⟨mk, -, -, hi, ⟨-, rfl⟩ | ⟨-, rfl⟩ | ⟨-, rfl⟩⟩ | ⟨harg, ⟨-, hi⟩ | ⟨-, hi⟩ | ⟨hop, -⟩⟩
    · cases hi
    · cases hi
    · cases hi
    · cases hi
    · cases hi
    · rw [← wordOf_parts w, hop, harg]
      rfl
  · rintro rfl
    rfl

/-- Settles O58: every move named is one of the software, which `SoftwareKept` covers. -/
theorem softwareSetsNoStatusBit : Obligations.SoftwareSetsNoStatusBit := by
  intro s t hv h
  suffices SoftwareKept s t from this.status
  obtain ⟨-, rfl | ⟨m, rfl⟩ | ⟨-, -, w, i, u, -, hi, hx, rfl⟩ | ⟨x, f, d, -, -, hd, hf, rfl⟩ | ⟨-, hx⟩
    | ⟨w, i, hw, hi, hx⟩⟩ := step_next h
  · exact softwareKept_begin s
  · exact softwareKept_setMark s m
  · have hrun := exec_softwareKept (isForeground_of_decodeForeground hi) hx
    exact (softwareKept_begin s).trans (hrun.trans (softwareKept_completeOp u))
  · exact (softwareKept_begin s).trans (softwareKept_descWrite hd hf)
  · exact (softwareKept_begin s).trans (microStep_softwareKept hx)
  · simp only [hw, reduceCtorEq, Move.label.injEq, exists_const, false_or] at hv
    subst hv
    rw [decodeEvent_eq_dispatch.mpr rfl] at hi
    cases hi
    exact (softwareKept_begin s).trans (execDispatch_softwareKept hx)

/-! ### The bus-off counter (10_state.md R33) -/

theorem resumeTransmit_boc {h : Handle} {k : SlotIx} {buf : Bytes8} {len : Byte} {s t : State}
    (hs : resumeTransmit h k buf len s = .next t) : t.boc = s.boc := by
  obtain ⟨u, rfl, rfl | rfl⟩ := resumeTransmit_next hs <;> rfl

theorem pauseBody_boc (kind : Kind) (k : SlotIx) (s : State) : (pauseBody kind k s).boc = s.boc := by
  cases kind with
  | transmit => rw [pauseBody_transmit]
  | receive => rfl
  | autoReply => rfl

/-- No instruction but DISPATCH changes the counter. -/
theorem exec_boc {i : Instr} {s t : State} (hi : i ≠ .dispatch) (h : exec i s = .next t) : t.boc = s.boc := by
  rcases exec_next h with rfl | ⟨op, v, -, rfl⟩ | ⟨tm, -, rfl⟩ | ⟨b, -, rfl⟩
    | ⟨kind, x, d, k, -, -, -, -, -, rfl⟩ | ⟨x, d, k, buf, len, -, -, -, -, -, hr⟩ | ⟨k, -, rfl⟩ | ⟨k, -, rfl⟩
    | ⟨k, op, v, -, rfl⟩ | ⟨k, -, -, -, rfl⟩ | ⟨k, -, -, -, rfl⟩ | ⟨k, -, -, -, rfl⟩ | ⟨-, -, rfl⟩
    | ⟨-, -, rfl⟩ | ⟨hd, -⟩
  · rfl
  · rfl
  · rw [initBody_eq]
  · rfl
  · rw [configureBody_eq]
  · exact resumeTransmit_boc hr
  · rw [resumeReceive_eq]
  · exact pauseBody_boc .transmit k s
  · rw [State.selectPage_eq]; rfl
  · rw [rxEffect_eq]
  · rw [txEffect_eq]
  · rw [errEffect_eq]
  · rw [busOffEffect_eq]
  · rw [nodeEnEffect_eq]
  · exact absurd hd hi

theorem dispAct_boc {k : SlotIx} {st : Byte} {s t : State} (h : dispAct k st s = .next t) : t.boc = s.boc := by
  rcases dispAct_next h with rfl | ⟨j, -, -, rfl⟩ | ⟨x, d, j, bs, p, -, -, -, -, -, -, rfl⟩ | ⟨x, d, j, -, -, -, rfl⟩
  · rfl
  · rfl
  · rw [afterReception_eq]; rfl
  · exact pauseBody_boc d.kind k _

theorem dispSlot_boc (k : SlotIx) (s : State) : (dispSlot k s).boc = s.boc := by
  cases hr : s.reg[k] with
  | none => rw [dispSlot_none k s hr]
  | some h => rw [dispSlot_some k s h hr]

/-- Only the `Entry` micro-step counts, and only where it finds BOFFIT set (44_dispatcher.md R109). -/
theorem microStep_boc {s t : State} (h : microStep s = .next t) (hne : t.boc ≠ s.boc) :
    s.disp = .entry ∧ boffit s.g.git = true := by
  rcases microStep_next h with ⟨-, rfl | ⟨-, rfl⟩⟩ | ⟨hd, rfl⟩ | ⟨k, -, rfl⟩ | ⟨k, st, -, hact⟩ | ⟨-, rfl⟩
  · exact absurd rfl hne
  · exact absurd rfl hne
  · refine ⟨hd, ?_⟩
    by_contra hb
    rw [dispBusOff_clear s (by simpa using hb)] at hne
    exact hne rfl
  · exact absurd (dispSlot_boc k s) hne
  · exact absurd (dispAct_boc hact) hne
  · exact absurd rfl hne

/-- The counter stands at `n`, and no bus-off recovery is due. -/
def NoServiceDue (n : Nat) (s : State) : Prop := s.boc = n ∧ boffit s.g.git = false

/-- No micro-step sets BOFFIT, so one without a recovery due counts nothing and leaves none due. -/
theorem microStep_noServiceDue {n : Nat} {s t : State} (hs : NoServiceDue n s) (h : microStep s = .next t) :
    NoServiceDue n t := by
  obtain ⟨hboc, hclear⟩ := hs
  constructor
  · by_contra hne
    obtain ⟨-, hset⟩ := microStep_boc h (hboc ▸ hne)
    simp [hclear] at hset
  · by_contra hset
    have := (microStep_softwareKept h).boffit (by simpa using hset)
    simp [hclear] at this

/-- A whole invocation counts only where its guard holds and BOFFIT was set before it. -/
theorem execDispatch_boc {s t : State} (h : execDispatch s = .next t) (hne : t.boc ≠ s.boc) :
    entryGuard s = true ∧ boffit s.g.git = true := by
  constructor
  · by_contra hg
    rw [execDispatch_not_entered (by simpa using hg)] at h
    cases h
    exact hne rfl
  · by_contra hclear
    have hs : NoServiceDue s.boc s := ⟨rfl, by simpa using hclear⟩
    obtain ⟨hboc, -⟩ := execDispatch_keep (P := NoServiceDue s.boc) (fun _ hu _ => hu)
      (fun _ _ hu hstep => microStep_noServiceDue hu hstep) s t hs h
    exact hne hboc

/-- Settles O59: no instruction but DISPATCH counts (`exec_boc`), and in the dispatcher only the `Entry` micro-step does
(`microStep_boc`). -/
theorem onlyBusOffServiceCounts : Obligations.OnlyBusOffServiceCounts := by
  intro s t h hne
  obtain ⟨-, rfl | ⟨m, rfl⟩ | ⟨-, -, w, i, u, -, hi, hx, rfl⟩ | ⟨x, f, d, -, -, -, -, rfl⟩ | ⟨hv, hx⟩
    | ⟨w, i, hv, hi, hx⟩⟩ := step_next h
  · exact absurd rfl hne
  · exact absurd rfl hne
  · have hfg := isForeground_of_decodeForeground hi
    have hnd : i ≠ .dispatch := by rintro rfl; cases hfg
    have hboc : u.boc = s.begin.boc := exec_boc hnd hx
    exact absurd hboc hne
  · exact absurd rfl hne
  · obtain ⟨hd, hb⟩ := microStep_boc hx hne
    exact ⟨hb, .inl ⟨hv, hd⟩⟩
  · by_cases hid : i = .dispatch
    · subst hid
      obtain ⟨hg, hb⟩ := execDispatch_boc hx hne
      exact ⟨hb, .inr ⟨decodeEvent_eq_dispatch.mp hi ▸ hv, hg⟩⟩
    · exact absurd (exec_boc hid hx) hne

end Sys2Proof.Machine
end

section
/-! Family 20_memory.md: register access, the page, the message buffer and the software reset (R43-R49). The access
primitives by name are said by what the page selects; the message accesses then by the place they reach. -/

namespace Sys2Proof.Machine

open Sys2Proof.Safety

/-! ### What the page selects (10_state.md R20, R29) -/

theorem mobnb_toNat (p : Byte) : ((mobnb p).setWidth 8).toNat = p.toNat / 16 := by
  revert p; decide

theorem State.selected_eq_none {s : State} : s.selected = none ↔ 96 ≤ s.g.page.toNat := by
  rw [State.selected, slotOf_eq_none, mobnb_toNat]
  omega

theorem State.regRead_unselected {s : State} (h : s.selected = none) (r : MReg) :
    s.regRead (.slot r) = .error .pageRange := by
  simp only [State.regRead, h]

theorem State.regWrite_unselected {s : State} (h : s.selected = none) (r : MReg) (v : Byte) :
    s.regWrite (.slot r) v = .error .pageRange := by
  simp only [State.regWrite, h]

theorem State.regWrite_selected {s : State} {k : SlotIx} (h : s.selected = some k) (r : MReg) (v : Byte) :
    s.regWrite (.slot r) v = .ok (s.writeM k r v) := by
  simp only [State.regWrite, h]

/-! ### Message access by the place it reaches (20_memory.md R45) -/

theorem State.msgRead_unselected {s : State} (h : s.selected = none) : s.msgRead = .error .pageRange := by
  simp only [State.msgRead, h]

theorem State.msgWrite_unselected {s : State} (h : s.selected = none) (v : Byte) :
    s.msgWrite v = .error .pageRange := by
  simp only [State.msgWrite, h]

/-- A read after a write, at any address of memory in canonical form. -/
theorem memRead_memWrite {m : Memory} (hw : Memory.wf m = true) (a : Nat) (b : Byte) (x : Nat) :
    memRead (memWrite m a b) x = if x = a then b else memRead m x := by
  split
  · next h => rw [h, memRead_memWrite_same m 0 a b hw]
  · next h => exact memRead_memWrite_ne m a x b h

/-- The page names byte `i` of slot `k`'s buffer. -/
def PageAt (p : Byte) (k : SlotIx) (i : Nat) : Prop :=
  slotOf ((mobnb p).setWidth 8) = some k ∧ indx p = BitVec.ofNat 3 i

theorem pageAt_pageByte (k : SlotIx) (i : Nat) : PageAt (pageByte k i) k i := by
  refine ⟨?_, indx_pageByte k i⟩
  rw [← withIndx_pageOf, mobnb_withIndx, slotOf_mobnb_pageOf]

/-- A page byte with AINC = 1: MOBNB in bits 7:4, AINC in bit 3, INDX in bits 2:0 (10_state.md R20). -/
theorem pageAt_ainc (k : SlotIx) {i : Nat} (hi : i < 8) :
    PageAt (BitVec.ofNat 8 (16 * k.val + 8 + i)) k i ∧ ainc (BitVec.ofNat 8 (16 * k.val + 8 + i)) = true := by
  have h : ∀ (k : SlotIx) (i : Fin 8),
      (slotOf ((mobnb (BitVec.ofNat 8 (16 * k.val + 8 + i.val))).setWidth 8) = some k
        ∧ indx (BitVec.ofNat 8 (16 * k.val + 8 + i.val)) = BitVec.ofNat 3 i.val)
        ∧ ainc (BitVec.ofNat 8 (16 * k.val + 8 + i.val)) = true := by decide
  exact h k ⟨i, hi⟩

/-- The bytes of the buffers and the data index are apart. -/
theorem State.advanceIndex_setData (s : State) (m : Memory) : (s.setData m).advanceIndex = s.advanceIndex.setData m := by
  simp only [State.advanceIndex, State.setData_g, State.writeGField_page]
  split <;> rfl

theorem State.msgRead_at {s : State} {k : SlotIx} {i : Nat} (hp : PageAt s.g.page k i) (hi : i < 8) :
    s.msgRead = .ok (memRead s.data (8 * k.val + i), s.advanceIndex) := by
  obtain ⟨hk, hx⟩ := hp
  have hsel : s.selected = some k := hk
  simp only [State.msgRead, hsel, State.dataByte, hx, dataAddr_ofNat k i hi]

theorem State.msgWrite_at {s : State} {k : SlotIx} {i : Nat} (hp : PageAt s.g.page k i) (hi : i < 8) (v : Byte) :
    s.msgWrite v = .ok (s.advanceIndex.setData (memWrite s.data (8 * k.val + i) v)) := by
  obtain ⟨hk, hx⟩ := hp
  have hsel : s.selected = some k := hk
  simp only [State.msgWrite, hsel, hx, dataAddr_ofNat k i hi, State.advanceIndex_setData]

/-- Both accesses at a place the page names: they reach its byte and no other, and leave the page as `advanceIndex` does. -/
theorem messageAccess_at {s t : State} (hw : Memory.wf s.data = true) {k : SlotIx} {i : Nat}
    (hp : PageAt s.g.page k i) (hi : i < 8) (ht : s.advanceIndex = t) (v : Byte) :
    s.msgRead = .ok (memRead s.data (8 * k.val + i), t)
      ∧ ∃ m, s.msgWrite v = .ok (t.setData m) ∧ Memory.wf m = true
          ∧ ∀ a, memRead m a = if a = 8 * k.val + i then v else memRead s.data a := by
  subst ht
  have hk := k.isLt
  have hm : Memory.wf (memWrite s.data (8 * k.val + i) v) = true := memWrite_wf s.data _ v hw (by omega)
  exact ⟨State.msgRead_at hp hi, _, State.msgWrite_at hp hi v, hm, memRead_memWrite hw _ v⟩

theorem State.advanceIndex_pageByte {s : State} {k : SlotIx} {i : Nat} (hp : s.g.page = pageByte k i) :
    s.advanceIndex = s.setG { s.g with page := pageByte k (i + 1) } := by
  have hnext : withIndx (pageByte k i) (BitVec.ofNat 3 i + 1) = pageByte k (i + 1) := by
    rw [← withIndx_pageOf, withIndx_twice, ← withIndx_pageOf, BitVec.ofNat_add]
    rfl
  rw [State.advanceIndex_eq s (hp ▸ ainc_pageByte k i), hp, indx_pageByte, hnext]

theorem State.advanceIndex_ainc {s : State} (ha : ainc s.g.page = true) : s.advanceIndex = s := if_pos ha

/-- Settles O18: a page of either form names byte `i` of slot `k` (`pageAt_pageByte`, `pageAt_ainc`), the accesses reach
that byte (`messageAccess_at`), and only with AINC = 0 does the index move; a page from 96 on selects no slot. -/
theorem messageAccessAdvancesTheIndex : Obligations.MessageAccessAdvancesTheIndex := by
  intro s v hw
  refine ⟨fun k i hi hp => ?_, fun k i hi hp => ?_, fun h96 => ?_⟩
  · exact messageAccess_at hw (hp ▸ pageAt_pageByte k i) hi (State.advanceIndex_pageByte hp) v
  · obtain ⟨hat, ha⟩ := hp ▸ pageAt_ainc k hi
    exact messageAccess_at hw hat hi (State.advanceIndex_ainc ha) v
  · have hnone : s.selected = none := State.selected_eq_none.mpr h96
    exact ⟨State.msgRead_unselected hnone, State.msgWrite_unselected hnone v⟩

/-! ### Register access by name (20_memory.md R43, R44, R46, R47) -/

theorem State.pageSelect_slot (s : State) (k : SlotIx) :
    s.pageSelect (BitVec.ofNat 8 k.val) = .ok { s with g := { s.g with page := pageByte k 0 } } := by
  have hk : slotOf (BitVec.ofNat 8 k.val) = some k := by revert k; decide
  simp only [State.pageSelect, hk, State.selectPage_eq, pageOf_eq]
  rfl

theorem State.pageSelect_fault (s : State) {v : Byte} (h : 6 ≤ v.toNat) : s.pageSelect v = .error .badSlot := by
  simp only [State.pageSelect, slotOf_eq_none.mpr h]

theorem State.gitClear_eq (s : State) (v : Byte) :
    s.gitClear v = { s with g := { s.g with git := s.g.git &&& (~~~v ||| 0x80) } } := s.writeG_git v

theorem State.gitClear_gitClear (s : State) (v : Byte) : (s.gitClear v).gitClear v = s.gitClear v := by
  simp only [State.gitClear_eq, BitVec.and_assoc, BitVec.and_self]

/-- Settles O16, clause by clause. -/
theorem registerAccessFollowsItsCodes : Obligations.RegisterAccessFollowsItsCodes := fun s v =>
  ⟨s.pageSelect_slot, s.pageSelect_fault, fun k => s.stClear_eq k v, s.stClear_fault v, s.gitClear_eq v,
    s.gitClear_gitClear v,
    fun k hk => (State.regWrite_selected hk .stmob v).trans (congrArg Except.ok (s.writeM_stmob k v)),
    congrArg Except.ok (s.writeG_git v),
    fun hn r => ⟨State.regRead_unselected hn r, State.regWrite_unselected hn r v⟩⟩

/-! ### The side effects of register writes (20_memory.md R43, R49; 10_state.md R15, R30 (a)) -/

/-- CONMOB is not 0 exactly from bit 6 on (10_state.md R26). -/
theorem conmob_ne_zero (v : Byte) : (conmob v != 0) = decide (64 ≤ v.toNat) := by
  revert v; decide

/-- A write of GCON with `ENASTB` = 0 and `SWRES` = 0 stores it and clears `ENFG`. -/
theorem State.writeG_gcon_disable (s : State) {v : Byte} (he : enastb v = false) (hr : v.getLsbD 0 = false) :
    s.writeG .gcon v = (s.storeG .gcon v).hwG .gsta (fieldInsert fENFG s.g.gsta 0) := by
  simp only [State.writeG, he, hr, Bool.false_eq_true, if_false]
  rfl

theorem enfg_clear (v : Byte) : enfg (fieldInsert fENFG v 0) = false := by
  revert v; decide

/-- Settles O17: the write of CDMOB by `conmob_ne_zero`, the write of GCON by its two low bits. -/
theorem registerWritesHaveTheirSideEffects : Obligations.RegisterWritesHaveTheirSideEffects := by
  intro s v
  refine ⟨fun k hk => ?_, fun t hv ht => ?_⟩
  · rw [State.regWrite_selected hk, State.writeM_cdmob, conmob_ne_zero]
    rfl
  · have hlow : ∀ v : Byte, v.toNat % 4 = 0 → enastb v = false ∧ v.getLsbD 0 = false := by decide
    obtain ⟨he, hr⟩ := hlow v hv
    obtain rfl : s.writeG .gcon v = t := Except.ok.inj ht
    rw [s.writeG_gcon_disable he hr]
    exact enfg_clear s.g.gsta

/-- Settles O19: the write of `SWRES` = 1 is the software reset, which is one update. -/
theorem softwareResetClearsThreeRegisters : Obligations.SoftwareResetClearsThreeRegisters := fun s =>
  s.writeGField_swres.trans s.softwareReset_eq

end Sys2Proof.Machine
end

section
/-! Family 30_encoding.md: the encoder and the decoders are inverse on the well-formed instructions (R59-R64), the
foreground decoder accepts exactly its table (R63), and the turn of an event word runs what it names (R64). Each operand
form has one lemma that reads its fields back; each decoder one that says what it reads is the word it was given. -/

namespace Sys2Proof

/-! ### Decode after encode: the foreground words (30_encoding.md R60-R62) -/

/-- Form `H`: an operation whose argument is a handle is read back. -/
theorem decodeForeground_encode_handle (mk : Handle → Instr) (h : Handle) (hf : formOf (opcode (mk h)) = some .h)
    (ha : argBits (mk h) = 0#8 ++ h) (ho : ∀ a, operation (opcode (mk h)) a = .ok (mk (argHandle a))) :
    decodeForeground (encode (mk h)) = .ok (mk h) := by
  obtain ⟨hread, hres⟩ := argHandle_append h
  refine decodeForeground_encode _ .h hf (ha ▸ hres) ?_
  rw [ho, ha, hread]

/-- Form `V11`: an operation whose argument is an identifier or a mask is read back. -/
theorem decodeForeground_encode_ident (mk : Ident → Instr) (v : Ident) (hf : formOf (opcode (mk v)) = some .v11)
    (ha : argBits (mk v) = 0#13 ++ v) (ho : ∀ a, operation (opcode (mk v)) a = .ok (mk (argIdent a))) :
    decodeForeground (encode (mk v)) = .ok (mk v) := by
  obtain ⟨hread, hres⟩ := argIdent_append v
  refine decodeForeground_encode _ .v11 hf (ha ▸ hres) ?_
  rw [ho, ha, hread]

/-- Form `B2`: an operation whose argument is two bytes is read back. -/
theorem decodeForeground_encode_pair (mk : Byte → Byte → Instr) (hi lo : Byte)
    (hf : formOf (opcode (mk hi lo)) = some .b2) (ha : argBits (mk hi lo) = 0#8 ++ hi ++ lo)
    (ho : ∀ a, operation (opcode (mk hi lo)) a = .ok (mk (argByte1 a) (argByte0 a))) :
    decodeForeground (encode (mk hi lo)) = .ok (mk hi lo) := by
  obtain ⟨hhigh, hlow, hres⟩ := argPair_append hi lo
  refine decodeForeground_encode _ .b2 hf (ha ▸ hres) ?_
  rw [ho, ha, hhigh, hlow]

/-- Form `P`: a preset code that R63 (c) allows is read back. -/
theorem decodeForeground_encode_preset {p : BitVec 3} (hp : p ≤ 4) :
    decodeForeground (encode (.initCan p)) = .ok (.initCan p) := by
  obtain ⟨-, hread, hres⟩ := argSlot_append p
  refine decodeForeground_encode _ .p rfl hres ?_
  have hrow : ∀ a, argPreset a ≤ 4 → operation 0x01 a = .ok (.initCan (argPreset a)) :=
    fun _ hle => (if_pos rfl).trans (if_pos hle)
  rw [opcode, argBits, hrow _ (hread.symm ▸ hp), hread]

theorem argBits_encFlags_reserved : ∀ a b c d e f : Bool,
    argBits (.encFlags a b c d e f) &&& Form.f6.reserved = 0 := by decide

/-- Form `F6`: the six flags are read back bit by bit. -/
theorem decodeForeground_encode_flags (a b c d e f : Bool) :
    decodeForeground (encode (.encFlags a b c d e f)) = .ok (.encFlags a b c d e f) := by
  refine decodeForeground_encode _ .f6 rfl (argBits_encFlags_reserved a b c d e f) ?_
  have hrow : ∀ x : BitVec 24, operation 0x14 x = .ok (.encFlags (x.getLsbD 0) (x.getLsbD 1) (x.getLsbD 2)
      (x.getLsbD 3) (x.getLsbD 4) (x.getLsbD 5)) := fun _ => rfl
  rw [opcode, hrow]
  simp only [flagBits_getLsbD, Nat.reduceLT, Nat.reduceEqDiff, OfNat.ofNat_ne_zero, one_ne_zero, if_true, if_false]

/-- Form `B3`: no bit is reserved and the three bytes are read back. -/
theorem decodeForeground_encode_triple (t m c : Byte) :
    decodeForeground (encode (.decFlags t m c)) = .ok (.decFlags t m c) := by
  obtain ⟨h0, h1, h2⟩ := argTriple_append c m t
  refine decodeForeground_encode _ .b3 rfl BitVec.and_zero ?_
  have hrow : ∀ a, operation 0x15 a = .ok (.decFlags (argByte0 a) (argByte1 a) (argByte2 a)) := fun _ => rfl
  rw [opcode, argBits, hrow, h0, h1, h2]

/-- Form `S8`: the status byte is read back. -/
theorem decodeForeground_encode_status (st : Byte) : decodeForeground (encode (.classify st)) = .ok (.classify st) := by
  obtain ⟨hread, hres⟩ := argByte_append st
  refine decodeForeground_encode _ .s8 rfl hres ?_
  have hrow : ∀ a, operation 0x16 a = .ok (.classify (argByte0 a)) := fun _ => rfl
  rw [opcode, argBits, hrow, hread]

/-- Every foreground operation, form by form. -/
theorem decodeForeground_encode_of_wellFormed {i : Instr} (hfg : i.isForeground = true) (hw : WellFormed i = true) :
    decodeForeground (encode i) = .ok i := by
  cases i with
  | initCan p => exact decodeForeground_encode_preset (of_decide_eq_true hw)
  | cfgRx h => exact decodeForeground_encode_handle .cfgRx h rfl rfl fun _ => rfl
  | cfgTx h => exact decodeForeground_encode_handle .cfgTx h rfl rfl fun _ => rfl
  | cfgAuto h => exact decodeForeground_encode_handle .cfgAuto h rfl rfl fun _ => rfl
  | resume h => exact decodeForeground_encode_handle .resume h rfl rfl fun _ => rfl
  | pause h => exact decodeForeground_encode_handle .pause h rfl rfl fun _ => rfl
  | isPaused h => exact decodeForeground_encode_handle .isPaused h rfl rfl fun _ => rfl
  | status h => exact decodeForeground_encode_handle .status h rfl rfl fun _ => rfl
  | encId v => exact decodeForeground_encode_ident .encId v rfl rfl fun _ => rfl
  | decId hi lo => exact decodeForeground_encode_pair .decId hi lo rfl rfl fun _ => rfl
  | encMask v => exact decodeForeground_encode_ident .encMask v rfl rfl fun _ => rfl
  | decMask hi lo => exact decodeForeground_encode_pair .decMask hi lo rfl rfl fun _ => rfl
  | encFlags rtr ide idemsk rtrmsk rb0 rplv => exact decodeForeground_encode_flags rtr ide idemsk rtrmsk rb0 rplv
  | decFlags t4 m4 cd => exact decodeForeground_encode_triple t4 m4 cd
  | classify st => exact decodeForeground_encode_status st
  | sei => rfl
  | cli => rfl
  | evRx | evTxDone | evMobErr | evBusOff | evNodeEn | dispatch => cases hfg

/-! ### Decode after encode: the event words (30_encoding.md R64) -/

theorem slotLabel_append (mk : BitVec 3 → Instr) {x : BitVec 3} (hx : x ≤ 5) :
    slotLabel mk (0#21 ++ x) = .ok (mk x) := by
  obtain ⟨hread, -, hres⟩ := argSlot_append x
  simp only [slotLabel, hres, hread, hx, ne_eq, not_true_eq_false, if_false, if_true]

/-- Every event and DISPATCH: three words carry a slot of 0-5, three carry nothing. -/
theorem decodeEvent_encode {i : Instr} (hev : i.isForeground = false) (hw : WellFormed i = true) :
    decodeEvent (encode i) = .ok i := by
  cases i with
  | evRx x | evTxDone x | evMobErr x =>
    rw [encode_eq, decodeEvent, opOf_wordOf, argOf_wordOf]
    exact slotLabel_append _ (of_decide_eq_true hw)
  | evBusOff | evNodeEn | dispatch => rfl
  | _ => cases hev

/-- The two tables of R61 share no code: an event code is that of an instruction which is no foreground operation. -/
theorem isEventCode_opcode (i : Instr) : isEventCode (opcode i) = !i.isForeground := by
  cases i <;> rfl

theorem opOf_encode (i : Instr) : opOf (encode i) = opcode i := opOf_wordOf (opcode i) (argBits i)

/-- Settles O1: the code of the word says which of the two decoders reads it, and each reads back what it is given. -/
theorem decodeOfEncodeIsIdentity : Obligations.DecodeOfEncodeIsIdentity := by
  intro i hw
  rw [decodeWord, opOf_encode, isEventCode_opcode]
  cases hfg : i.isForeground with
  | true => exact decodeForeground_encode_of_wellFormed hfg hw
  | false => exact decodeEvent_encode hfg hw

/-! ### Encode after decode (30_encoding.md R60-R64) -/

theorem encode_of_parts {w : Word} {i : Instr} (hop : opcode i = opOf w) (harg : argBits i = argOf w) : encode i = w := by
  rw [encode_eq, hop, harg, wordOf_parts]

/-- Form `F6`, the other way: the six low bits are all that a legal argument holds. -/
theorem argBits_encFlags_getLsbD {a : BitVec 24} (h : a &&& Form.f6.reserved = 0) :
    argBits (.encFlags (a.getLsbD 0) (a.getLsbD 1) (a.getLsbD 2) (a.getLsbD 3) (a.getLsbD 4) (a.getLsbD 5)) = a := by
  apply BitVec.eq_of_getLsbD_eq
  intro i hi
  rw [flagBits_getLsbD i hi]
  by_cases hflag : i < 6
  · interval_cases i <;> rfl
  · have hzero := bit_of_mask h i (by interval_cases i <;> rfl)
    interval_cases i <;> exact hzero.symm

/-- Form `N`: the whole argument is reserved. -/
theorem eq_zero_of_reserved_n {a : BitVec 24} (h : a &&& Form.n.reserved = 0) : a = 0 :=
  (BitVec.and_allOnes (x := a)).symm.trans h

/-- A row of the foreground table drops no bit: the code and the argument it reads are those of what it answers. -/
theorem parts_of_operation {op : Byte} {a : BitVec 24} {f : Form} {i : Instr} (hf : formOf op = some f)
    (hr : a &&& f.reserved = 0) (h : operation op a = .ok i) :
    WellFormed i = true ∧ opcode i = op ∧ argBits i = a := by
  rcases operation_cases h with ⟨rfl, hp, rfl⟩ | ⟨rfl, rfl⟩ | ⟨rfl, rfl⟩ | ⟨rfl, rfl⟩ | ⟨rfl, rfl⟩ | ⟨rfl, rfl⟩
    | ⟨rfl, rfl⟩ | ⟨rfl, rfl⟩ | ⟨rfl, rfl⟩ | ⟨rfl, rfl⟩ | ⟨rfl, rfl⟩ | ⟨rfl, rfl⟩ | ⟨rfl, rfl⟩ | ⟨rfl, rfl⟩
    | ⟨rfl, rfl⟩ | ⟨rfl, rfl⟩ | ⟨rfl, rfl⟩ <;> cases hf
  · exact ⟨decide_eq_true hp, rfl, append_argSlot a hr⟩
  iterate 7 exact ⟨rfl, rfl, append_argHandle a hr⟩
  · exact ⟨rfl, rfl, append_argIdent a hr⟩
  · exact ⟨rfl, rfl, append_argPair a hr⟩
  · exact ⟨rfl, rfl, append_argIdent a hr⟩
  · exact ⟨rfl, rfl, append_argPair a hr⟩
  · exact ⟨rfl, rfl, argBits_encFlags_getLsbD hr⟩
  · exact ⟨rfl, rfl, append_argTriple a⟩
  · exact ⟨rfl, rfl, append_argByte a hr⟩
  iterate 2 exact ⟨rfl, rfl, (eq_zero_of_reserved_n hr).symm⟩

/-- A word the event reader accepts is the word of the event. -/
theorem encode_of_decodeEvent {w : Word} {i : Instr} (h : decodeEvent w = .ok i) :
    WellFormed i = true ∧ encode i = w := by
  rcases decodeEvent_cases h with ⟨mk, hres, hle, rfl, ⟨hop, rfl⟩ | ⟨hop, rfl⟩ | ⟨hop, rfl⟩⟩
    | ⟨harg, ⟨hop, rfl⟩ | ⟨hop, rfl⟩ | ⟨hop, rfl⟩⟩
  iterate 3 exact ⟨decide_eq_true hle, encode_of_parts hop.symm (append_argSlot _ hres)⟩
  iterate 3 exact ⟨rfl, encode_of_parts hop.symm harg.symm⟩

/-- A word the foreground decoder accepts is the word of the operation. -/
theorem encode_of_decodeForeground {w : Word} {i : Instr} (h : decodeForeground w = .ok i) :
    WellFormed i = true ∧ encode i = w := by
  obtain ⟨f, hf, hres, hop⟩ := decodeForeground_ok.mp h
  obtain ⟨hw, hcode, harg⟩ := parts_of_operation hf hres hop
  exact ⟨hw, encode_of_parts hcode harg⟩

/-- Settles O2: each of the two decoders accepts only the word of what it answers. -/
theorem encodeOfDecodeIsIdentity : Obligations.EncodeOfDecodeIsIdentity := by
  intro w i h
  rcases ite_ok h with ⟨-, hev⟩ | ⟨-, hfg⟩
  · exact encode_of_decodeEvent hev
  · exact encode_of_decodeForeground hfg

/-! ### What the foreground decoder accepts and refuses (30_encoding.md R63) -/

/-- The codes of the foreground table. -/
theorem formOf_isSome_iff (op : Byte) : (formOf op).isSome = true ↔
    (1 ≤ op.toNat ∧ op.toNat ≤ 8) ∨ (0x10 ≤ op.toNat ∧ op.toNat ≤ 0x16) ∨ op = 0x20 ∨ op = 0x21 := by
  revert op; decide

/-- The same codes one by one. -/
theorem foregroundCode_cases {op : Byte} : (formOf op).isSome = true →
    op = 0x01 ∨ op = 0x02 ∨ op = 0x03 ∨ op = 0x04 ∨ op = 0x05 ∨ op = 0x06 ∨ op = 0x07 ∨ op = 0x08 ∨ op = 0x10
      ∨ op = 0x11 ∨ op = 0x12 ∨ op = 0x13 ∨ op = 0x14 ∨ op = 0x15 ∨ op = 0x16 ∨ op = 0x20 ∨ op = 0x21 := by
  revert op; decide

theorem formOf_of_isEventCode {op : Byte} (h : isEventCode op = true) : formOf op = none := by
  revert op; decide

theorem decodeForeground_eventCode {w : Word} (h : isEventCode (opOf w) = true) :
    decodeForeground w = .error .eventCode := by
  simp only [decodeForeground, formOf_of_isEventCode h, h, if_true]

/-- The preset code is the only operand that a row of the table can refuse (30_encoding.md R63 (c)). -/
theorem operation_accepts_iff {op : Byte} {f : Form} (hf : formOf op = some f) (a : BitVec 24) :
    (∃ i, operation op a = .ok i) ↔ (op = 0x01 → (argPreset a).toNat ≤ 4) := by
  constructor
  · rintro ⟨i, hi⟩ rfl
    rcases ite_ok hi with ⟨-, hi⟩ | ⟨hne, -⟩
    · rcases ite_ok hi with ⟨hle, -⟩ | ⟨-, hi⟩
      · exact hle
      · cases hi
    · exact absurd rfl hne
  · intro hp
    rcases foregroundCode_cases (Option.isSome_of_mem hf) with rfl | rfl | rfl | rfl | rfl | rfl | rfl | rfl | rfl
      | rfl | rfl | rfl | rfl | rfl | rfl | rfl | rfl
    · exact ⟨_, (if_pos rfl).trans (if_pos (hp rfl))⟩
    all_goals exact ⟨_, rfl⟩

theorem argPreset_argOf (w : Word) : argPreset (argOf w) = w.extractLsb' 0 3 := by
  apply BitVec.eq_of_toNat_eq
  simp only [argPreset, argOf, BitVec.extractLsb'_toNat, Nat.shiftRight_zero]
  omega

/-- R63 in one line: a form, its reserved bits 0, and the preset code of INIT_CAN in 0-4. -/
theorem decodeForeground_accepts_iff (w : Word) : (∃ i, decodeForeground w = .ok i) ↔
    ∃ f, formOf (opOf w) = some f ∧ argOf w &&& f.reserved = 0
      ∧ (opOf w = 0x01 → (w.extractLsb' 0 3).toNat ≤ 4) := by
  simp only [decodeForeground_ok]
  rw [exists_comm]
  refine exists_congr fun f => ?_
  rw [exists_and_left, exists_and_left, ← argPreset_argOf]
  exact and_congr_right fun hf => and_congr_right fun _ => operation_accepts_iff hf (argOf w)

end Sys2Proof

namespace Sys2Proof.Machine

/-- Settles O3: `decodeForeground_accepts_iff`, and a word that is not accepted is an error of the decoder. -/
theorem foregroundDecoderAcceptsExactlyTheTable : Obligations.ForegroundDecoderAcceptsExactlyTheTable := by
  intro w
  refine ⟨decodeForeground_accepts_iff w, fun hill s => ?_, formOf_isSome_iff (opOf w)⟩
  cases hd : decodeForeground w with
  | error e => exact runWord_error hd s
  | ok i => exact absurd ((decodeForeground_accepts_iff w).mp ⟨i, hd⟩) hill

/-- Settles O4: an event word carries an event code, and a code of the foreground table is an operation's. -/
theorem eventWordsAreNotForegroundWords : Obligations.EventWordsAreNotForegroundWords := by
  refine ⟨fun i hi => decodeForeground_eventCode ?_, fun w i => isForeground_of_decodeForeground⟩
  rw [opOf_encode, isEventCode_opcode, hi]
  rfl

/-- Settles O5, word by word. -/
theorem writtenOutWordsDecode : Obligations.WrittenOutWordsDecode :=
  ⟨rfl, rfl, rfl, rfl, rfl, rfl, rfl, rfl, rfl, rfl, rfl⟩

/-! ### The turn of an event word (30_encoding.md R64) -/

theorem runTurn_label {s : State} {w : Word} (hv : s.turn.move = .label w) : runTurn s = labelTurn w s s.begin := by
  simp only [runTurn, hv]

theorem labelTurn_ok {w : Word} {i : Instr} (hi : decodeEvent w = .ok i) (before s : State) :
    labelTurn w before s = recordStop before (labelAgent i) (some w) (exec i s) := by
  simp only [labelTurn, hi]

/-- Settles O7: `recordStop` of what the word names, by the outcome of `exec`. -/
theorem stepRunsEventWord : Obligations.StepRunsEventWord := by
  intro s w i hm hv hi
  rw [step_of_unmarked hm, runTurn_label hv, labelTurn_ok hi]
  cases exec i s.begin <;> rfl

end Sys2Proof.Machine
end


section
/-! Family 40_codec.md: the codec of identifiers and masks and the codec of the flags (R80-R87). The encoders are
concatenations and the decoders fields, so the laws of R87 are read off field by field; the value of a concatenation
(`toNat_append_eq_add`) gives the arithmetic form of what each operation returns in RES. -/

namespace Sys2Proof.Machine

/-! ### The identifier and the mask (40_codec.md R80-R82, R85) -/

theorem decId_encId (v : Ident) : decId (encId v).1 (encId v).2 = v := by
  have hlow : (encId v).2.extractLsb' 5 3 = v.extractLsb' 0 3 := BitVec.extractLsb'_append_eq_left
  have hjoin : v.extractLsb' 3 8 ++ v.extractLsb' 0 3 = v.extractLsb' 0 11 :=
    BitVec.extractLsb'_append_extractLsb'_eq_extractLsb' rfl
  calc decId (encId v).1 (encId v).2
      = v.extractLsb' 3 8 ++ v.extractLsb' 0 3 := congrArg (v.extractLsb' 3 8 ++ ·) hlow
    _ = v.extractLsb' 0 11 := hjoin
    _ = v := BitVec.extractLsb'_eq_self

/-- Bits 7:5 of a byte, put back where they were: the low-order wire byte without its unused bits. -/
theorem extractHigh_append_zeros : ∀ lo : Byte, lo.extractLsb' 5 3 ++ 0b00000#5 = lo &&& 0xE0 := by decide

theorem encId_decId (hi lo : Byte) : encId (decId hi lo) = (hi, lo &&& 0xE0) := by
  have hhigh : (decId hi lo).extractLsb' 3 8 = hi := BitVec.extractLsb'_append_eq_left
  have hlow : (decId hi lo).extractLsb' 0 3 = lo.extractLsb' 5 3 := BitVec.extractLsb'_append_eq_right
  rw [encId, hhigh, hlow, extractHigh_append_zeros]

/-! ### The control flags (40_codec.md R83, R84) -/

/-- The layout that IDT4 and IDM4 share: one flag in bit 2, one in bit 0 (10_state.md R23, R25). -/
theorem flagByte_bits : ∀ a b : Bool,
    (0b00000#5 ++ BitVec.ofBool a ++ 0b0#1 ++ BitVec.ofBool b).getLsbD 2 = a
      ∧ (0b00000#5 ++ BitVec.ofBool a ++ 0b0#1 ++ BitVec.ofBool b).getLsbD 0 = b := by decide

theorem encTagFlags_bits (f : ControlFlags) :
    (encTagFlags f).getLsbD 2 = f.remoteFrame ∧ (encTagFlags f).getLsbD 0 = f.reservedBitTag :=
  flagByte_bits f.remoteFrame f.reservedBitTag

theorem encMaskFlags_bits (f : ControlFlags) :
    (encMaskFlags f).getLsbD 2 = f.remoteFrameMaskEnabled ∧ (encMaskFlags f).getLsbD 0 = f.extendedIdMaskEnabled :=
  flagByte_bits f.remoteFrameMaskEnabled f.extendedIdMaskEnabled

theorem decFlags_encFlags (f : ControlFlags) :
    decFlags (encTagFlags f) (encMaskFlags f) (encControlFlags f) = f := by
  obtain ⟨hrtr, hrb0⟩ := encTagFlags_bits f
  obtain ⟨hrtrmsk, hidemsk⟩ := encMaskFlags_bits f
  have hide : (encControlFlags f).getLsbD 4 = f.extendedId := ide_encControlFlags f
  have hrplv : (encControlFlags f).getLsbD 5 = f.autoReplyValid := rplv_encControlFlags f
  rw [decFlags, hrtr, hrb0, hrtrmsk, hidemsk, hide, hrplv]

/-- Settles O11: the three laws, `lo[4:0]` being what `encId_decId` clears. -/
theorem codecRoundTrips : Obligations.CodecRoundTrips := ⟨decId_encId, encId_decId, decFlags_encFlags⟩

/-! ### What the operations return, in arithmetic form -/

/-- The value of a concatenation, the high-order part weighted. -/
theorem toNat_append_eq_add {m n : Nat} (x : BitVec m) (y : BitVec n) :
    (x ++ y).toNat = x.toNat * 2 ^ n + y.toNat := by
  rw [BitVec.toNat_append, ← Nat.shiftLeft_add_eq_or_of_lt y.isLt, Nat.shiftLeft_eq]

/-- The wire bytes in RES: bits 10:3 in RES[15:8], bits 2:0 in RES[7:5] (40_codec.md R80). -/
theorem wirePair_encId (v : Ident) :
    wirePair (encId v) = BitVec.ofNat 32 (v.toNat / 8 * 256 + v.toNat % 8 * 32) := by
  apply BitVec.eq_of_toNat_eq
  have hv := v.isLt
  simp only [wirePair, encId, BitVec.toNat_setWidth, toNat_append_eq_add, BitVec.extractLsb'_toNat,
    Nat.shiftRight_eq_div_pow, BitVec.toNat_ofNat]
  omega

/-- The identifier in RES (40_codec.md R81). -/
theorem setWidth_decId (hi lo : Byte) :
    (decId hi lo).setWidth 32 = BitVec.ofNat 32 (hi.toNat * 8 + lo.toNat / 32) := by
  apply BitVec.eq_of_toNat_eq
  have hhi := hi.isLt
  have hlo := lo.isLt
  rw [decId_eq, BitVec.toNat_setWidth, BitVec.toNat_ofNat, BitVec.toNat_ofNat]
  omega

/-- The three flag bytes in RES: `cf` in RES[23:16], `m4` in RES[15:8], `t4` in RES[7:0] (40_codec.md R83). -/
theorem flagBytes_eq (f : ControlFlags) :
    (encControlFlags f ++ encMaskFlags f ++ encTagFlags f).setWidth 32
      = BitVec.ofNat 32 (4 * f.remoteFrame.toNat + f.reservedBitTag.toNat
          + 256 * (4 * f.remoteFrameMaskEnabled.toNat + f.extendedIdMaskEnabled.toNat)
          + 65536 * (32 * f.autoReplyValid.toNat + 16 * f.extendedId.toNat)) := by
  apply BitVec.eq_of_toNat_eq
  simp only [encControlFlags, encMaskFlags, encTagFlags, BitVec.toNat_setWidth, toNat_append_eq_add,
    BitVec.toNat_ofBool, BitVec.toNat_ofNat]
  omega

/-- The six flags in RES, RTR in bit 0 and RPLV in bit 5 (40_codec.md R84). -/
theorem flagsF6_eq (f : ControlFlags) :
    (flagsF6 f).setWidth 32
      = BitVec.ofNat 32 (f.remoteFrame.toNat + 2 * f.extendedId.toNat + 4 * f.extendedIdMaskEnabled.toNat
          + 8 * f.remoteFrameMaskEnabled.toNat + 16 * f.reservedBitTag.toNat + 32 * f.autoReplyValid.toNat) := by
  apply BitVec.eq_of_toNat_eq
  simp only [flagsF6, BitVec.toNat_setWidth, toNat_append_eq_add, BitVec.toNat_ofBool, BitVec.toNat_ofNat]
  omega

/-! ### The operations (40_codec.md R80-R85) -/

/-- An operation that ends in `State.result` writes RES, adds its record, and changes nothing else (10_state.md R37). -/
theorem exec_result {i : Instr} {s : State} {op : ResultOp} {w v : Word} (hx : exec i s = .next (s.result op w))
    (hw : w = v) : exec i s = .next { s with res := v, obs := s.obs ++ [.result op v] } := by
  subst hw
  exact hx

/-- Settles O12: form `V11` is read back, and both operations return `wirePair_encId`. -/
theorem encodeOperationsReturnWireBytes : Obligations.EncodeOperationsReturnWireBytes := fun v _ =>
  ⟨decodeForeground_encode_ident .encId v rfl rfl fun _ => rfl,
    decodeForeground_encode_ident .encMask v rfl rfl fun _ => rfl,
    exec_result rfl (wirePair_encId v), exec_result rfl (wirePair_encId v)⟩

/-- Settles O13: form `B2` is read back, and both operations return `setWidth_decId`. -/
theorem decodeOperationsReturnIdentifier : Obligations.DecodeOperationsReturnIdentifier := fun hi lo _ =>
  ⟨decodeForeground_encode_pair .decId hi lo rfl rfl fun _ => rfl,
    decodeForeground_encode_pair .decMask hi lo rfl rfl fun _ => rfl,
    exec_result rfl (setWidth_decId hi lo), exec_result rfl (setWidth_decId hi lo)⟩

/-- Settles O14: forms `F6` and `B3` are read back; the values are `flagBytes_eq` and `flagsF6_eq`. -/
theorem flagOperationsPackAndUnpack : Obligations.FlagOperationsPackAndUnpack :=
  ⟨fun rtr ide idemsk rtrmsk rb0 rplv _ =>
      ⟨decodeForeground_encode_flags rtr ide idemsk rtrmsk rb0 rplv,
        exec_result rfl (flagBytes_eq ⟨rtr, ide, idemsk, rtrmsk, rb0, rplv⟩)⟩,
    fun t4 m4 cd _ =>
      ⟨decodeForeground_encode_triple t4 m4 cd, exec_result rfl (flagsF6_eq (decFlags t4 m4 cd))⟩⟩

end Sys2Proof.Machine
end

section
/-! Family 41_controller_init.md: INIT_CAN and the interrupt enable (R89, R92, R93). The decoder reads the preset code
and refuses 5-7; what INIT_CAN leaves is `initBody_eq`, with the timing triple of its preset. -/

namespace Sys2Proof

/-- A word whose form leaves the reserved bits 0 answers what its row of the table does (30_encoding.md R62). -/
theorem decodeForeground_eq_operation {w : Word} {f : Form} (hf : formOf (opOf w) = some f)
    (hr : argOf w &&& f.reserved = 0) : decodeForeground w = operation (opOf w) (argOf w) := by
  simp only [decodeForeground, hf, hr, ne_eq, not_true_eq_false, if_false]

/-- Form `P`: a preset code that R63 (c) does not allow is refused. -/
theorem decodeForeground_encode_badPreset {p : BitVec 3} (hp : ¬ p ≤ 4) :
    decodeForeground (encode (.initCan p)) = .error .badPreset := by
  obtain ⟨-, hread, hres⟩ := argSlot_append p
  have hop : opOf (encode (.initCan p)) = 0x01 := opOf_encode (.initCan p)
  have harg : argOf (encode (.initCan p)) = 0#21 ++ p := argOf_wordOf 0x01 (0#21 ++ p)
  have hrow : ∀ a, ¬ argPreset a ≤ 4 → operation 0x01 a = .error .badPreset :=
    fun _ hgt => (if_pos rfl).trans (if_neg hgt)
  rw [decodeForeground_eq_operation (congrArg formOf hop) (harg.symm ▸ hres), hop, harg]
  exact hrow _ (hread.symm ▸ hp)

end Sys2Proof

namespace Sys2Proof.Machine

/-- A preset code of the table runs the body of INIT_CAN with its timing triple (41_controller_init.md R89). -/
theorem execInitCan_preset {p : BitVec 3} (h : p.toNat < 5) (s : State) :
    execInitCan p s = .next (initBody (s.env.params.btTable[p.toNat]) s) := dif_pos h

/-- Settles O21: form `P` is read back for 0-4 and refused for 5-7; the effect is that of `initBody_eq`. -/
theorem initCanSetsUpTheController : Obligations.InitCanSetsUpTheController := by
  refine ⟨fun p hp => decodeForeground_encode_badPreset (Nat.not_le_of_lt hp), fun s p h => ⟨?_, ?_⟩⟩
  · exact decodeForeground_encode_preset (Nat.le_of_lt_succ h)
  · exact (execInitCan_preset h s).trans (congrArg Host.Outcome.next (initBody_eq _ s))

/-- `gie` is a term of the entry guard (60_exceptions.md R136). -/
theorem entryGuard_of_gie_clear {s : State} (h : s.gie = false) : entryGuard s = false := by
  simp only [entryGuard, h, Bool.false_and]

/-- Settles O22: both words are fixed, both operations write `gie` alone, and the guard needs it set. -/
theorem seiAndCliSetTheInterruptEnable : Obligations.SeiAndCliSetTheInterruptEnable :=
  ⟨rfl, rfl, fun _ => ⟨rfl, rfl, entryGuard_of_gie_clear rfl⟩⟩

end Sys2Proof.Machine
end

section
/-! Family 42_configurator.md: CFG_RX, CFG_TX and CFG_AUTO (R94-R96) and the operand faults of the seven controller
operations (R97; 60_exceptions.md R141 (2)-(5)). Each of the seven passes on what `CheckSlot` refuses, and `CheckSlot`
refuses in the order of R141; the effect of a configure operation on an accepted operand is `configureBody_eq`. -/

namespace Sys2Proof.Machine

open Sys2Proof.Safety

/-! ### What the operand checks refuse, in their order (60_exceptions.md R141) -/

theorem checkSlot_notInit {s : State} (h : Handle) (hi : s.init = false) : checkSlot h s = .error .notInit := by
  simp only [checkSlot, hi, Bool.not_false, if_true]

theorem checkSlot_badHandle {s : State} {h : Handle} (hi : s.init = true) (hd : descAt s.d h = none) :
    checkSlot h s = .error .badHandle := by
  simp only [checkSlot, hi, hd, Bool.not_true, Bool.false_eq_true, if_false]

theorem checkSlot_badSlot {s : State} {h : Handle} {d : Desc} (hi : s.init = true) (hd : descAt s.d h = some d)
    (hslot : 6 ≤ d.slotId.toNat) : checkSlot h s = .error .badSlot := by
  simp only [checkSlot, hi, hd, slotOf_eq_none.mpr hslot, Bool.not_true, Bool.false_eq_true, if_false]

theorem checkSlot_accepted {s : State} {h : Handle} {d : Desc} {k : SlotIx} (ha : Accepted s h d k) :
    checkSlot h s = .ok (d, k) := checkSlot_eq_ok.mpr ha

/-- An operation that passes on the faults of `CheckSlot` has its order of checks. -/
theorem checksInOrder_of_checkSlot {i : Instr} {h : Handle} {s : State}
    (hpass : ∀ f, checkSlot h s = .error f → exec i s = .fault f) : ChecksInOrder i h s :=
  ⟨fun hi => hpass _ (checkSlot_notInit h hi), fun hi hd => hpass _ (checkSlot_badHandle hi hd),
    fun _ hi hd hslot => hpass _ (checkSlot_badSlot hi hd hslot)⟩

/-! ### The configure operations, by the outcome of the checks (42_configurator.md R94-R97) -/

theorem configure_fault {h : Handle} {s : State} {f : Fault} (kind : Kind) (hc : checkSlot h s = .error f) :
    configure kind h s = .fault f := by
  simp only [configure, checkDesc, hc]

theorem configure_kindMismatch {kind : Kind} {h : Handle} {s : State} {d : Desc} {k : SlotIx} (ha : Accepted s h d k)
    (hk : d.kind ≠ kind) : configure kind h s = .fault .kindMismatch := by
  simp only [configure, checkDesc, checkSlot_accepted ha, hk, if_false]

theorem configure_accepted {kind : Kind} {h : Handle} {s : State} {d : Desc} {k : SlotIx} (ha : Accepted s h d k)
    (hk : d.kind = kind) : configure kind h s = .next (configureBody kind h d k s) := by
  simp only [configure, checkDesc, checkSlot_accepted ha, hk, if_true]

theorem checksInOrder_cfgRx (h : Handle) (s : State) : ChecksInOrder (.cfgRx h) h s :=
  checksInOrder_of_checkSlot fun _ => configure_fault .receive

theorem checksInOrder_cfgTx (h : Handle) (s : State) : ChecksInOrder (.cfgTx h) h s :=
  checksInOrder_of_checkSlot fun _ => configure_fault .transmit

theorem checksInOrder_cfgAuto (h : Handle) (s : State) : ChecksInOrder (.cfgAuto h) h s :=
  checksInOrder_of_checkSlot fun _ => configure_fault .autoReply

/-! ### The transfer operations refuse what `CheckSlot` refuses (43_transfer_engine.md, common entry check) -/

theorem checksInOrder_resume (h : Handle) (s : State) : ChecksInOrder (.resume h) h s :=
  checksInOrder_of_checkSlot fun f hc => show execResume h s = .fault f by simp only [execResume, hc]

theorem checksInOrder_pause (h : Handle) (s : State) : ChecksInOrder (.pause h) h s :=
  checksInOrder_of_checkSlot fun f hc => show execPause h s = .fault f by simp only [execPause, hc]

theorem checksInOrder_isPaused (h : Handle) (s : State) : ChecksInOrder (.isPaused h) h s :=
  checksInOrder_of_checkSlot fun f hc => show execIsPaused h s = .fault f by simp only [execIsPaused, hc]

theorem checksInOrder_status (h : Handle) (s : State) : ChecksInOrder (.status h) h s :=
  checksInOrder_of_checkSlot fun f hc => show execStatus h s = .fault f by simp only [execStatus, hc]

/-! ### The statements -/

/-- Settles O23: form `H` is read back, the faults are those of the checks, and the effect is that of `configureBody_eq`
for a Receive descriptor. -/
theorem cfgRxProgramsAndActivatesTheSlot : Obligations.CfgRxProgramsAndActivatesTheSlot := by
  intro s h
  refine ⟨decodeForeground_encode_handle .cfgRx h rfl rfl fun _ => rfl, checksInOrder_cfgRx h s,
    fun d k ha => ⟨configure_kindMismatch ha, fun hk => ?_⟩⟩
  exact (configure_accepted ha hk).trans (congrArg Host.Outcome.next (configureBody_eq .receive h d k s))

/-- Settles O24: as for O23, with `configureBody_eq` for a Transmit descriptor, which has no mask. -/
theorem cfgTxProgramsAndPausesTheSlot : Obligations.CfgTxProgramsAndPausesTheSlot := by
  intro s h
  refine ⟨decodeForeground_encode_handle .cfgTx h rfl rfl fun _ => rfl, checksInOrder_cfgTx h s,
    fun d k ha => ⟨configure_kindMismatch ha, fun hk => ?_⟩⟩
  exact (configure_accepted ha hk).trans (congrArg Host.Outcome.next (configureBody_eq .transmit h d k s))

/-- Settles O25: as for O23, with `configureBody_eq` for an AutoReply descriptor, whose categories are both. -/
theorem cfgAutoProgramsAndActivatesTheSlot : Obligations.CfgAutoProgramsAndActivatesTheSlot := by
  intro s h
  refine ⟨decodeForeground_encode_handle .cfgAuto h rfl rfl fun _ => rfl, checksInOrder_cfgAuto h s,
    fun d k ha => ⟨configure_kindMismatch ha, fun hk => ?_⟩⟩
  exact (configure_accepted ha hk).trans (congrArg Host.Outcome.next (configureBody_eq .autoReply h d k s))

/-- Settles O26: the order of the checks operation by operation, then the kind of the three configure operations. -/
theorem operandFaultsInOrder : Obligations.OperandFaultsInOrder := by
  intro s h
  refine ⟨?_, fun d k ha => ⟨configure_kindMismatch ha, configure_kindMismatch ha, configure_kindMismatch ha⟩⟩
  simp only [List.forall_mem_cons]
  exact ⟨checksInOrder_cfgRx h s, checksInOrder_cfgTx h s, checksInOrder_cfgAuto h s, checksInOrder_resume h s,
    checksInOrder_pause h s, checksInOrder_isPaused h s, checksInOrder_status h s, List.forall_mem_nil _⟩

end Sys2Proof.Machine
end

section
/-! Family 43_transfer_engine.md: RESUME, PAUSE, IS_PAUSED and STATUS of an accepted descriptor (R100, R102-R105). Each
operation has one lemma that says what it answers once `CheckSlot` accepts; its effect on the state is then that of the
shared operation it runs. -/

namespace Sys2Proof.Machine

open Sys2Proof.Safety

/-! ### The transfer operations of an accepted descriptor -/

theorem execResume_filled {h : Handle} {s : State} {d : Desc} {k : SlotIx} {buf : Bytes8} {len : Byte}
    (ha : Accepted s h d k) (hk : d.kind = .transmit) (hf : s.env.draws.fill = .answer buf len) :
    execResume h s = resumeTransmit h k buf len s := by
  simp only [execResume, checkSlot_accepted ha, hk, hf]

theorem execPause_accepted {h : Handle} {s : State} {d : Desc} {k : SlotIx} (ha : Accepted s h d k) :
    execPause h s = .next (pauseBody d.kind k s) := by
  simp only [execPause, checkSlot_accepted ha]

theorem execIsPaused_accepted {h : Handle} {s : State} {d : Desc} {k : SlotIx} (ha : Accepted s h d k) :
    execIsPaused h s = .next ((s.selectPage k).result .isPaused (if conmob s.m[k].cdmob = 0b00 then 1 else 0)) := by
  simp only [execIsPaused, checkSlot_accepted ha, State.readM_eq, State.selectPage_eq]
  rfl

theorem execStatus_accepted {h : Handle} {s : State} {d : Desc} {k : SlotIx} (ha : Accepted s h d k) :
    execStatus h s = .next ((s.selectPage k).result .status (s.m[k].stmob.setWidth 32)) := by
  simp only [execStatus, checkSlot_accepted ha, State.readM_eq, State.selectPage_eq]
  rfl

/-! ### Their effects in one update -/

/-- A non-empty answer updates the descriptor, is recorded and is loaded into the slot (43_transfer_engine.md R100). -/
theorem resumeTransmit_eq {h : Handle} {k : SlotIx} {buf : Bytes8} {len : Byte} (s : State) (hl : len ≠ 0) :
    resumeTransmit h k buf len s = .next { s with
      g := { s.g with page := pageByte k (minEight len) }
      m := bankSet s.m k { s.m[k] with
        cdmob := controlByte 1 (rplv s.m[k].cdmob) (ide s.m[k].cdmob) (minEight len) }
      enmob := bankSet s.enmob k true
      data := writeRun s.data k 0 (buf.toList.take (minEight len))
      d := descUpdate s.d h fun d => { d with buffer := buf, dataLength := BitVec.ofNat 8 (minEight len) }
      obs := s.obs ++ [.txFill h len] } := by
  rw [← clamp8_eq]
  exact (if_neg hl).trans (loadAndArm_eq k buf len _)

/-- `PauseBody` is the identity for the kinds that receive (43_transfer_engine.md R105). -/
theorem pauseBody_of_ne_transmit {kind : Kind} (hk : kind ≠ .transmit) (k : SlotIx) (s : State) :
    pauseBody kind k s = s := by
  cases kind with
  | transmit => exact absurd rfl hk
  | receive => rfl
  | autoReply => rfl

/-- A value read from slot `k`: the page, RES and OBS change and nothing else (10_state.md R37). -/
theorem selectPage_result (s : State) (k : SlotIx) (op : ResultOp) (v : Word) :
    (s.selectPage k).result op v = { s with
      g := { s.g with page := pageByte k 0 }, res := v, obs := s.obs ++ [.result op v] } := by
  rw [State.selectPage_eq, pageOf_eq]
  rfl

/-- CONMOB is the two high bits of CDMOB, so it is 0 below 64 (10_state.md R26). -/
theorem conmob_eq_zero_iff (v : Byte) : conmob v = 0b00 ↔ v.toNat < 64 := by
  have hne := conmob_ne_zero v
  rw [← Nat.not_le, ← decide_eq_false_iff_not, ← hne, bne_eq_false_iff_eq]

/-! ### The statements -/

/-- Settles O27: the effect is that of `resumeTransmit_eq`, and the memory it leaves is the run of `memRead_loaded`. -/
theorem resumeSendsTheFilledBytes : Obligations.ResumeSendsTheFilledBytes := by
  intro s h d k buf len ha hk hf hl hw
  refine ⟨writeRun s.data k 0 (buf.toList.take (minEight len)), ?_, writeRun_wf _ k 0 _ hw,
    memRead_loaded s.data k buf _ (minEight_le len) hw⟩
  exact (execResume_filled ha hk hf).trans (resumeTransmit_eq s hl)

/-- Settles O31: form `H` is read back, the faults are those of the checks, and the effect is that of `PauseBody`, by
the descriptor's kind. -/
theorem pauseDisarmsOnlyTransmitSlots : Obligations.PauseDisarmsOnlyTransmitSlots := by
  intro s h
  refine ⟨decodeForeground_encode_handle .pause h rfl rfl fun _ => rfl, checksInOrder_pause h s,
    fun d k ha => ⟨fun hk => ?_, fun hk => ?_⟩⟩
  · exact (execPause_accepted ha).trans (congrArg Host.Outcome.next (hk ▸ pauseBody_transmit k s))
  · exact (execPause_accepted ha).trans (congrArg Host.Outcome.next (pauseBody_of_ne_transmit hk k s))

/-- Settles O32: as for O31; the value read is `conmob_eq_zero_iff`. -/
theorem isPausedReadsTheEnableBits : Obligations.IsPausedReadsTheEnableBits := by
  intro s h
  refine ⟨decodeForeground_encode_handle .isPaused h rfl rfl fun _ => rfl, checksInOrder_isPaused h s, fun d k ha => ?_⟩
  have hread := execIsPaused_accepted ha
  simp only [conmob_eq_zero_iff, selectPage_result] at hread
  exact hread

/-- Settles O33: as for O31; the value read is STMOB widened to a word. -/
theorem statusReadsTheRawStatusByte : Obligations.StatusReadsTheRawStatusByte := by
  intro s h
  refine ⟨decodeForeground_encode_handle .status h rfl rfl fun _ => rfl, checksInOrder_status h s, fun d k ha => ?_⟩
  have hread := execStatus_accepted ha
  rw [selectPage_result, ← BitVec.ofNat_toNat] at hread
  exact hread

end Sys2Proof.Machine
end

section
/-! Family 44_dispatcher.md: the dispatcher's micro-steps one by one (R107-R115), what a whole invocation keeps and that
it ends (R108, R117), and the consistency of the dispatcher's state (R107, R110). `InvocationKept` says what every
micro-step leaves as it was; `phaseRank` counts the micro-steps that are left, and each one lowers it. -/

namespace Sys2Proof.Machine

open Sys2Proof.Safety

/-! ### One micro-step, by the phase (44_dispatcher.md R108) -/

theorem microStep_idle {s : State} (hd : s.disp = .idle) :
    microStep s = .next (if entryGuard s then s.dispEnter else s) := by
  simp only [microStep, hd]

theorem microStep_enters {s : State} (hd : s.disp = .idle) (hg : entryGuard s = true) :
    microStep s = .next s.dispEnter := by
  rw [microStep_idle hd, if_pos hg]

theorem microStep_entry {s : State} (hd : s.disp = .entry) : microStep s = .next (dispBusOff s) := by
  simp only [microStep, hd]

theorem microStep_slot {s : State} {k : SlotIx} (hd : s.disp = .slot k) : microStep s = .next (dispSlot k s) := by
  simp only [microStep, hd]

theorem microStep_act {s : State} {k : SlotIx} {st : Byte} (hd : s.disp = .act k st) :
    microStep s = dispAct k st s := by
  simp only [microStep, hd]

theorem microStep_exit {s : State} (hd : s.disp = .exit) : microStep s = .next s.dispExit := by
  simp only [microStep, hd]

/-! ### The action of a slot, by its snapshot (44_dispatcher.md R111-R114) -/

theorem dispAct_error {k : SlotIx} {st : Byte} {s : State} (he : classify st ≠ 0) (hs : s.selected = some k) :
    dispAct k st s = .next { s with
      m := bankSet s.m k { s.m[k] with stmob := s.m[k].stmob &&& 0x60 }
      obs := s.obs ++ [.errReport k (classify st)]
      disp := nextPhase k } := by
  have hbits : (st &&& errMask != 0) = true := bne_iff_ne.mpr he
  simp only [dispAct, hbits, if_true, classifyAndClear_eq k st s he hs, chain_next]
  rfl

/-- Without an error bit a reception goes before a transmission. -/
theorem dispAct_noError {k : SlotIx} {st : Byte} {s : State} (he : classify st = 0) :
    dispAct k st s = if rxok st then actReception k s else if txok st then actTransmission k s
      else .next (s.setDisp (nextPhase k)) := by
  have hbits : (st &&& errMask != 0) = false := bne_eq_false_iff_eq.mpr he
  simp only [dispAct, hbits, Bool.false_eq_true, if_false]

/-! ### The turn and the micro-steps, stated -/

theorem runTurn_dispatcher {s : State} (hv : s.turn.move = .dispatcher) : runTurn s = dispatcherTurn s s.begin := by
  simp only [runTurn, hv]

/-- Settles O8: `recordStop` of the micro-step, by its outcome. -/
theorem stepRunsDispatcherMicroStep : Obligations.StepRunsDispatcherMicroStep := by
  intro s hm hv
  rw [step_of_unmarked hm, runTurn_dispatcher hv, dispatcherTurn]
  cases microStep s.begin <;> rfl

theorem entryGuard_iff {s : State} : entryGuard s = true ↔ s.gie = true ∧ s.disp = .idle ∧ irqCond s = true := by
  simp [entryGuard, and_assoc]

/-- Settles O34: entry and exit are one update each. -/
theorem interruptEntryAndExitTouchOnlyGieAndPhase : Obligations.InterruptEntryAndExitTouchOnlyGieAndPhase :=
  fun _ => ⟨fun hgie hd hirq => microStep_enters hd (entryGuard_iff.mpr ⟨hgie, hd, hirq⟩), microStep_exit⟩

/-- Settles O35, by BOFFIT: `bocNext` is what the statement writes out. -/
theorem busOffIsServedOnce : Obligations.BusOffIsServedOnce := by
  intro s hd
  rw [microStep_entry hd]
  cases hb : boffit s.g.git with
  | false => exact congrArg Host.Outcome.next (dispBusOff_clear s hb)
  | true => exact congrArg Host.Outcome.next (dispBusOff_set s hb)

/-- Settles O36, by the registry's entry. -/
theorem scanTakesTheSnapshot : Obligations.ScanTakesTheSnapshot := by
  intro s k hd
  rw [microStep_slot hd]
  exact ⟨fun hr => congrArg Host.Outcome.next (dispSlot_none k s hr),
    fun h hr => congrArg Host.Outcome.next (dispSlot_some k s h hr)⟩

/-- Settles O37: `dispAct_error`. -/
theorem errorActionClearsAndReports : Obligations.ErrorActionClearsAndReports := by
  intro s k st hd he hs
  exact (microStep_act hd).trans (dispAct_error he hs)

/-- Settles O40: the snapshot 0 has none of the bits. -/
theorem idleSlotActionChangesNothing : Obligations.IdleSlotActionChangesNothing := by
  rintro s k st hd rfl
  exact (microStep_act hd).trans (dispAct_noError rfl)

/-- The first bytes of a buffer overwritten by a run of bytes (44_dispatcher.md R112). -/
theorem overlay_map_range (f : Nat → Byte) (n : Nat) (old : Bytes8) :
    overlay ((List.range n).map f) old = Vector.ofFn fun i : Fin 8 => if i.val < n then f i.val else old[i] := by
  refine congrArg Vector.ofFn (funext fun i => ?_)
  by_cases hi : i.val < n <;> simp [hi]

/-- Settles O38: `actReception_own` with the bytes of `reception_bytes`. -/
theorem receptionActionDeliversAndRearms : Obligations.ReceptionActionDeliversAndRearms := by
  intro s k st h d hd he hrx hr hat hs ha hv
  have hrx' : rxok st = true := hrx
  obtain ⟨bs, p, hread, hact⟩ := actReception_own k s h d hr hat hs hv
  rw [reception_bytes s k _ (minEight_le _) hs ha] at hread
  obtain ⟨rfl, hp⟩ := Prod.mk.inj (Except.ok.inj hread)
  obtain rfl : pageByte k (minEight d.dataLength) = p := congrArg (·.g.page) hp
  rw [microStep_act hd, dispAct_noError he, if_pos hrx', hact]
  simp only [overlay_map_range, clamp8_eq, apply_ite (pageByte k)]

/-- Settles O39, by the kind: `actTransmission_eq`, then `PauseBody`. -/
theorem transmissionActionPausesTheSlot : Obligations.TransmissionActionPausesTheSlot := by
  intro s k st h d hd he hrx htx hr hat hs
  have hrx' : ¬ rxok st = true := ne_true_of_eq_false hrx
  have htx' : txok st = true := htx
  rw [microStep_act hd, dispAct_noError he, if_neg hrx', if_pos htx', actTransmission_eq k k s h d hr hat hs]
  by_cases hk : d.kind = .transmit
  · refine .trans ?_ (if_pos hk).symm
    rw [hk, pauseBody_transmit]
    simp [State.setMob, State.setDisp]
  · refine .trans ?_ (if_neg hk).symm
    rw [pauseBody_of_ne_transmit hk]
    rfl

/-! ### What the micro-steps keep (44_dispatcher.md R117) -/

/-- What an invocation leaves as it was. Each field is filled in by default, so that the proof for an update that leaves
them all is `{}`. -/
structure InvocationKept (s t : State) : Prop where
  data : t.data = s.data := by rfl
  reg : t.reg = s.reg := by rfl
  iemob : t.iemob = s.iemob := by rfl
  init : t.init = s.init := by rfl
  fgi : t.fgi = s.fgi := by rfl
  res : t.res = s.res := by rfl
  mark : t.mark = s.mark := by rfl
  env : t.env = s.env := by rfl
  enables : t.g.gie = s.g.gie := by rfl
  bt1 : t.g.bt1 = s.g.bt1 := by rfl
  bt2 : t.g.bt2 = s.g.bt2 := by rfl
  bt3 : t.g.bt3 = s.g.bt3 := by rfl

/-- What the micro-steps between entry and exit keep beside: interrupts stay masked. -/
structure ServiceKept (s t : State) : Prop extends InvocationKept s t where
  gie : t.gie = s.gie := by rfl

theorem InvocationKept.trans {s t u : State} (hst : InvocationKept s t) (htu : InvocationKept t u) :
    InvocationKept s u where
  data := htu.data.trans hst.data
  reg := htu.reg.trans hst.reg
  iemob := htu.iemob.trans hst.iemob
  init := htu.init.trans hst.init
  fgi := htu.fgi.trans hst.fgi
  res := htu.res.trans hst.res
  mark := htu.mark.trans hst.mark
  env := htu.env.trans hst.env
  enables := htu.enables.trans hst.enables
  bt1 := htu.bt1.trans hst.bt1
  bt2 := htu.bt2.trans hst.bt2
  bt3 := htu.bt3.trans hst.bt3

theorem serviceKept_dispBusOff (s : State) : ServiceKept s (dispBusOff s) := by
  cases hb : boffit s.g.git with
  | false => rw [dispBusOff_clear s hb]; exact {}
  | true => rw [dispBusOff_set s hb]; exact {}

theorem serviceKept_dispSlot (k : SlotIx) (s : State) : ServiceKept s (dispSlot k s) := by
  cases hr : s.reg[k] with
  | none => rw [dispSlot_none k s hr]; exact {}
  | some h => rw [dispSlot_some k s h hr]; exact {}

/-- The scan of a slot moves on to the next one, or acts on this one (44_dispatcher.md R110). -/
theorem dispSlot_disp (k : SlotIx) (s : State) :
    (dispSlot k s).disp = nextPhase k ∨ ∃ st, (dispSlot k s).disp = .act k st := by
  cases hr : s.reg[k] with
  | none => rw [dispSlot_none k s hr]; exact .inl rfl
  | some h => rw [dispSlot_some k s h hr]; exact .inr ⟨_, rfl⟩

/-- An action, whatever it serves, moves the phase on (44_dispatcher.md R108). -/
theorem dispAct_serves {k : SlotIx} {st : Byte} {s t : State} (h : dispAct k st s = .next t) :
    ServiceKept s t ∧ t.disp = nextPhase k := by
  rcases dispAct_next h with rfl | ⟨j, -, -, rfl⟩ | ⟨x, d, j, bs, p, -, -, -, -, -, -, rfl⟩ | ⟨x, d, j, -, -, -, rfl⟩
  · exact ⟨{}, rfl⟩
  · exact ⟨{}, rfl⟩
  · rw [afterReception_eq]
    exact ⟨{}, rfl⟩
  · by_cases hk : d.kind = .transmit
    · rw [hk, pauseBody_transmit]
      exact ⟨{}, rfl⟩
    · rw [pauseBody_of_ne_transmit hk]
      exact ⟨{}, rfl⟩

theorem microStep_invocationKept {s t : State} (h : microStep s = .next t) : InvocationKept s t := by
  rcases microStep_next h with ⟨-, rfl | ⟨-, rfl⟩⟩ | ⟨-, rfl⟩ | ⟨k, -, rfl⟩ | ⟨k, st, -, hact⟩ | ⟨-, rfl⟩
  · exact {}
  · exact {}
  · exact (serviceKept_dispBusOff s).toInvocationKept
  · exact (serviceKept_dispSlot k s).toInvocationKept
  · exact (dispAct_serves hact).1.toInvocationKept
  · exact {}

/-! ### The consistency of the dispatcher's state (44_dispatcher.md R107, R110) -/

theorem dispatcherOk_of_idle {s : State} (hd : s.disp = .idle) : dispatcherOk s = true := by
  simp only [dispatcherOk, hd]

theorem dispatcherOk_act {s : State} {k : SlotIx} {st : Byte} (hd : s.disp = .act k st) :
    dispatcherOk s = true ↔ s.gie = false ∧ s.selected = some k ∧ s.reg[k].isSome = true := by
  simp [dispatcherOk, hd, and_assoc]

/-- Outside `Act` it is enough that interrupts are masked. -/
theorem dispatcherOk_of_masked {s : State} (hg : s.gie = false) (hd : ∀ k st, s.disp ≠ .act k st) :
    dispatcherOk s = true := by
  cases hp : s.disp with
  | act k st => exact absurd hp (hd k st)
  | _ => simp [dispatcherOk, hp, hg]

theorem gie_of_dispatcherOk {s : State} (hs : dispatcherOk s = true) (hd : s.disp ≠ .idle) : s.gie = false := by
  cases hp : s.disp with
  | idle => exact absurd hp hd
  | act k st => exact ((dispatcherOk_act hp).mp hs).1
  | _ => simpa [dispatcherOk, hp] using hs

theorem nextPhase_ne_idle (k : SlotIx) : nextPhase k ≠ .idle := by revert k; decide

theorem nextPhase_ne_act (j k : SlotIx) (st : Byte) : nextPhase j ≠ .act k st := by
  unfold nextPhase
  split <;> exact Phase.noConfusion

/-- The scan of a registered slot leaves its page selected, of another slot no action (44_dispatcher.md R110). -/
theorem dispatcherOk_dispSlot {k : SlotIx} {s : State} (hg : s.gie = false) : dispatcherOk (dispSlot k s) = true := by
  cases hr : s.reg[k] with
  | none =>
    rw [dispSlot_none k s hr]
    exact dispatcherOk_of_masked hg (nextPhase_ne_act k)
  | some h =>
    rw [dispSlot_some k s h hr]
    exact (dispatcherOk_act rfl).mpr ⟨hg, selected_pageByte _ k 0 rfl, Option.isSome_iff_exists.mpr ⟨h, hr⟩⟩

theorem dispatcherOk_dispEnter (s : State) : dispatcherOk s.dispEnter = true := rfl

theorem dispBusOff_disp (s : State) : (dispBusOff s).disp = .slot 0 := rfl

theorem microStep_dispatcherOk {s t : State} (hs : dispatcherOk s = true) (h : microStep s = .next t) :
    dispatcherOk t = true := by
  rcases microStep_next h with ⟨-, rfl | ⟨-, rfl⟩⟩ | ⟨hd, rfl⟩ | ⟨k, hd, rfl⟩ | ⟨k, st, hd, hact⟩ | ⟨-, rfl⟩
  · exact hs
  · exact dispatcherOk_dispEnter s
  · have hg := gie_of_dispatcherOk hs (hd ▸ Phase.noConfusion)
    exact dispatcherOk_of_masked ((serviceKept_dispBusOff s).gie.trans hg) (by simp [dispBusOff_disp])
  · exact dispatcherOk_dispSlot (gie_of_dispatcherOk hs (hd ▸ Phase.noConfusion))
  · have hg := gie_of_dispatcherOk hs (hd ▸ Phase.noConfusion)
    obtain ⟨hkept, hphase⟩ := dispAct_serves hact
    exact dispatcherOk_of_masked (hkept.gie.trans hg) (hphase ▸ nextPhase_ne_act k)
  · exact dispatcherOk_of_idle rfl

/-- An instruction keeps the dispatcher's state consistent where a foreground operation finds the dispatcher idle
(20_memory.md R54 (a)): it stays idle then, and no event touches the phase, `gie`, PAGE or the registry. -/
theorem exec_dispatcherOk {i : Instr} {s t : State} (hi : i.isForeground = true → s.disp = .idle)
    (hs : dispatcherOk s = true) (h : exec i s = .next t) : dispatcherOk t = true := by
  rcases exec_next h with rfl | ⟨op, v, hf, rfl⟩ | ⟨tm, hf, rfl⟩ | ⟨b, hf, rfl⟩
    | ⟨kind, x, d, k, hf, -, -, -, -, rfl⟩ | ⟨x, d, k, buf, len, hf, -, -, -, -, hr⟩ | ⟨k, hf, rfl⟩ | ⟨k, hf, rfl⟩
    | ⟨k, op, v, hf, rfl⟩ | ⟨k, -, -, -, rfl⟩ | ⟨k, -, -, -, rfl⟩ | ⟨k, -, -, -, rfl⟩ | ⟨-, -, rfl⟩
    | ⟨-, -, rfl⟩ | ⟨-, hx⟩
  · exact hs
  · exact dispatcherOk_of_idle (hi hf)
  · rw [initBody_eq]
    exact dispatcherOk_of_idle (hi hf)
  · exact dispatcherOk_of_idle (hi hf)
  · rw [configureBody_eq]
    exact dispatcherOk_of_idle (hi hf)
  · obtain ⟨u, rfl, rfl | rfl⟩ := resumeTransmit_next hr <;> exact dispatcherOk_of_idle (hi hf)
  · rw [resumeReceive_eq]
    exact dispatcherOk_of_idle (hi hf)
  · rw [pauseBody_transmit]
    exact dispatcherOk_of_idle (hi hf)
  · rw [selectPage_result]
    exact dispatcherOk_of_idle (hi hf)
  · rw [rxEffect_eq]
    exact hs
  · rw [txEffect_eq]
    exact hs
  · rw [errEffect_eq]
    exact hs
  · exact hs
  · exact hs
  · exact execDispatch_keep (P := fun u => dispatcherOk u = true) (fun u _ _ => dispatcherOk_dispEnter u)
      (fun _ _ => microStep_dispatcherOk) s t hs hx

/-- What an event word names is no foreground operation (30_encoding.md R64). -/
theorem not_isForeground_of_decodeEvent {w : Word} {i : Instr} (h : decodeEvent w = .ok i) :
    i.isForeground = false := by
  rcases decodeEvent_cases h with ⟨mk, -, -, rfl, ⟨-, rfl⟩ | ⟨-, rfl⟩ | ⟨-, rfl⟩⟩ | ⟨-, ⟨-, rfl⟩ | ⟨-, rfl⟩ | ⟨-, rfl⟩⟩
    <;> rfl

/-- Settles O54: software moves find the dispatcher idle or are its own micro-steps, and an event leaves what
`dispatcherOk` reads. -/
theorem stepKeepsDispatcherConsistent : Obligations.StepKeepsDispatcherConsistent := by
  intro s t hs h
  have hbegin : dispatcherOk s.begin = true := hs
  obtain ⟨-, rfl | ⟨m, rfl⟩ | ⟨-, hd, w, i, u, -, -, hx, rfl⟩ | ⟨x, f, d, -, -, -, -, rfl⟩ | ⟨-, hx⟩
    | ⟨w, i, -, hi, hx⟩⟩ := step_next h
  · exact hs
  · exact hs
  · have hu : dispatcherOk u = true := exec_dispatcherOk (s := s.begin) (fun _ => hd) hbegin hx
    exact hu
  · exact hs
  · exact microStep_dispatcherOk hbegin hx
  · have hevent := not_isForeground_of_decodeEvent hi
    exact exec_dispatcherOk (fun hf => absurd hf (ne_true_of_eq_false hevent)) hbegin hx

/-! ### An invocation runs to its end (44_dispatcher.md R108, R117) -/

/-- The micro-steps that are left from a phase, at most (44_dispatcher.md R117). -/
def phaseRank : Phase → Nat
  | .idle => 0
  | .entry => 14
  | .slot k => 13 - 2 * k.val
  | .act k _ => 12 - 2 * k.val
  | .exit => 1

theorem phaseRank_nextPhase (k : SlotIx) : phaseRank (nextPhase k) = 11 - 2 * k.val := by
  revert k; decide

theorem phaseRank_pos {p : Phase} (hp : p ≠ .idle) : 0 < phaseRank p := by
  cases p with
  | idle => exact absurd rfl hp
  | slot k | act k => rw [phaseRank]; omega
  | _ => decide

/-- Every micro-step of a running dispatcher lowers the number of those left. -/
theorem microStep_phaseRank {s t : State} (hrun : s.disp ≠ .idle) (h : microStep s = .next t) :
    phaseRank t.disp < phaseRank s.disp := by
  rcases microStep_next h with ⟨hd, -⟩ | ⟨hd, rfl⟩ | ⟨k, hd, rfl⟩ | ⟨k, st, hd, hact⟩ | ⟨hd, rfl⟩
  · exact absurd hd hrun
  · rw [hd, dispBusOff_disp]
    decide
  · rw [hd, phaseRank]
    rcases dispSlot_disp k s with hp | ⟨st, hp⟩
    · rw [hp, phaseRank_nextPhase]
      omega
    · rw [hp, phaseRank]
      omega
  · rw [hd, (dispAct_serves hact).2, phaseRank_nextPhase, phaseRank]
    omega
  · rw [hd]
    exact Nat.zero_lt_one

/-- The action of a selected and registered slot answers, unless a callback misbehaves (60_exceptions.md R139, R140). -/
theorem dispAct_answers {k : SlotIx} (st : Byte) {s : State} {h : Handle} {d : Desc} (hs : s.selected = some k)
    (hr : s.reg[k] = some h) (hd : descAt s.d h = some d) :
    (∃ t, dispAct k st s = .next t)
      ∨ (s.env.draws.deliver = .misbehave ∧ dispAct k st s = .refused .callbackReentry) := by
  by_cases he : classify st = 0
  · rw [dispAct_noError he]
    split
    · obtain ⟨bs, p, -, -, -, -, hx⟩ := actReception_eq k k s h d hr hd hs
      rw [hx]
      cases s.env.draws.deliver with
      | accept => exact .inl ⟨_, rfl⟩
      | misbehave => exact .inr ⟨rfl, rfl⟩
    · split
      · exact .inl ⟨_, actTransmission_eq k k s h d hr hd hs⟩
      · exact .inl ⟨_, rfl⟩
  · exact .inl ⟨_, dispAct_error he hs⟩

/-- Where the registry leads to descriptors and callbacks return, a micro-step answers a next state. -/
theorem microStep_answers {s : State} (hreg : ∀ (k : SlotIx) h, s.reg[k] = some h → LeadsTo s.d h k)
    (hok : dispatcherOk s = true) (hv : s.env.draws.deliver = .accept) : ∃ t, microStep s = .next t := by
  cases hd : s.disp with
  | idle => exact ⟨_, microStep_idle hd⟩
  | entry => exact ⟨_, microStep_entry hd⟩
  | slot k => exact ⟨_, microStep_slot hd⟩
  | exit => exact ⟨_, microStep_exit hd⟩
  | act k st =>
    obtain ⟨-, hs, hsome⟩ := (dispatcherOk_act hd).mp hok
    obtain ⟨h, hr⟩ := Option.isSome_iff_exists.mp hsome
    obtain ⟨d, hat, -, -⟩ := hreg k h hr
    rw [microStep_act hd]
    exact (dispAct_answers st hs hr hat).resolve_right fun ⟨hm, _⟩ => by simp [hv] at hm

/-- A state that the invocation started in `s` passes through: consistent, and with interrupts enabled again once it is
over. -/
structure InvocationState (s t : State) : Prop where
  software : SoftwareKept s t
  kept : InvocationKept s t
  ok : dispatcherOk t = true
  unmasked : t.disp = .idle → t.gie = true

theorem invocationState_dispEnter (s : State) : InvocationState s s.dispEnter where
  software := softwareKept_dispEnter s
  kept := {}
  ok := dispatcherOk_dispEnter s
  unmasked := Phase.noConfusion

/-- The only micro-step that ends the invocation is the exit, which enables interrupts (44_dispatcher.md R115). -/
theorem microStep_unmasks {s t : State} (hrun : s.disp ≠ .idle) (h : microStep s = .next t) (hend : t.disp = .idle) :
    t.gie = true := by
  rcases microStep_next h with ⟨hd, -⟩ | ⟨-, rfl⟩ | ⟨k, -, rfl⟩ | ⟨k, st, -, hact⟩ | ⟨-, rfl⟩
  · exact absurd hd hrun
  · cases (dispBusOff_disp s).symm.trans hend
  · rcases dispSlot_disp k s with hp | ⟨st, hp⟩
    · exact absurd (hp.symm.trans hend) (nextPhase_ne_idle k)
    · cases hp.symm.trans hend
  · exact absurd ((dispAct_serves hact).2.symm.trans hend) (nextPhase_ne_idle k)
  · rfl

theorem InvocationState.next {s t u : State} (ht : InvocationState s t) (hrun : t.disp ≠ .idle)
    (h : microStep t = .next u) : InvocationState s u where
  software := ht.software.trans (microStep_softwareKept h)
  kept := ht.kept.trans (microStep_invocationKept h)
  ok := microStep_dispatcherOk ht.ok h
  unmasked := microStep_unmasks hrun h

/-- The registry of the start still leads to descriptors, so the next micro-step answers. -/
theorem InvocationState.answers {s t : State} (ht : InvocationState s t) (hreg : registryOk s = true)
    (hv : s.env.draws.deliver = .accept) : ∃ u, microStep t = .next u := by
  refine microStep_answers (fun k h hr => ?_) ht.ok (ht.kept.env ▸ hv)
  rw [ht.kept.reg] at hr
  exact ((registryOk_iff.mp hreg).1 k h hr).kept ht.software.store

/-- A state of the invocation reaches its end within the micro-steps its phase leaves. -/
theorem InvocationState.runs {s : State} (hreg : registryOk s = true) (hv : s.env.draws.deliver = .accept) :
    ∀ (n : Nat) (t : State), InvocationState s t → phaseRank t.disp ≤ n →
      ∃ u, microSteps n t = .next u ∧ InvocationState s u ∧ u.disp = .idle := by
  intro n
  induction n with
  | zero =>
    intro t ht hn
    by_cases hd : t.disp = .idle
    · exact ⟨t, rfl, ht, hd⟩
    · exact absurd hn (Nat.not_le_of_lt (phaseRank_pos hd))
  | succ n ih =>
    intro t ht hn
    by_cases hd : t.disp = .idle
    · exact ⟨t, microSteps_idle _ t hd, ht, hd⟩
    · obtain ⟨u, hu⟩ := ht.answers hreg hv
      have hrank := microStep_phaseRank hd hu
      obtain ⟨v, hrun, hend⟩ := ih u (ht.next hd hu) (by omega)
      exact ⟨v, by rw [microSteps_succ n t hd, hu, chain_next, hrun], hend⟩

/-- Settles O42: `InvocationState.runs` from interrupt entry, whose phase leaves the 14 micro-steps of an invocation. -/
theorem invocationRunsToItsEnd : Obligations.InvocationRunsToItsEnd := by
  intro s hg hreg hv
  obtain ⟨t, hrun, ht, hend⟩ := InvocationState.runs hreg hv 14 s.dispEnter (invocationState_dispEnter s) le_rfl
  have hexec : exec .dispatch s = .next t := (if_pos hg).trans hrun
  have hkept := ht.kept
  exact ⟨t, hexec, hend, ht.unmasked hend, hkept.data, hkept.reg, hkept.iemob, hkept.init, hkept.fgi, hkept.res,
    hkept.mark, hkept.env, ht.software.store.1, hkept.enables, hkept.bt1, hkept.bt2, hkept.bt3⟩

end Sys2Proof.Machine
end

section
/-! Family 45_error_recovery.md: the error classifier as a foreground operation (R119). -/

namespace Sys2Proof.Machine

/-- Settles O15: form `S8` is read back, and what `classify` keeps of the byte is `ERRMASK`, the literal 0x9F. -/
theorem classifyReturnsErrorBits : Obligations.ClassifyReturnsErrorBits := fun st _ =>
  have hbits : classify st = st &&& 0x9F := rfl
  ⟨decodeForeground_encode_status st, exec_result rfl (congrArg (BitVec.setWidth 32) hbits)⟩

end Sys2Proof.Machine
end

section
/-! Family 46_bus_events.md: the controller and bus events (R125, R127-R131), and the consistency of the registers they
share with the software, which every step keeps (10_state.md R20, R30). -/

namespace Sys2Proof.Machine

open Sys2Proof.Safety

/-! ### The consistency of the controller's registers -/

/-- The node flags of the global registers fit (46_bus_events.md R130, R131). -/
def NodeFits (g : Globals) : Prop := (enfg g.gsta = true → enastb g.gcon = true) ∧ boffit g.git = boff g.gsta

/-- Every engaged slot is armed (10_state.md R30). -/
def EngagedArmed (m : Bank Mob) (e : Bank Bool) : Prop := ∀ k : SlotIx, e[k] = true → conmob m[k].cdmob ≠ 0b00

/-- The page byte selects a slot, with AINC = 0 (10_state.md R20). -/
def PageFits (p : Byte) : Prop := (∃ k, slotOf ((mobnb p).setWidth 8) = some k) ∧ ainc p = false

/-- The three together, over the registers alone, so that an update of another part of the state leaves them. -/
structure RegistersFit (g : Globals) (m : Bank Mob) (e : Bank Bool) : Prop where
  node : NodeFits g
  armed : EngagedArmed m e
  page : PageFits g.page

/-- `RegistersFit` of a state's registers. -/
def ControllerFits (s : State) : Prop := RegistersFit s.g s.m s.enmob

theorem nodeOk_iff {s : State} : nodeOk s = true ↔ NodeFits s.g := by
  simp [nodeOk, NodeFits, imp_iff_not_or]

theorem engagedOk_iff {s : State} : engagedOk s = true ↔ EngagedArmed s.m s.enmob := by
  simp [engagedOk, EngagedArmed, mem_slots, imp_iff_not_or]

theorem pageOk_iff {s : State} : pageOk s = true ↔ PageFits s.g.page := by
  simp [pageOk, PageFits, State.selected, Option.isSome_iff_exists]

theorem controllerFits_iff {s : State} :
    ControllerFits s ↔ nodeOk s = true ∧ engagedOk s = true ∧ pageOk s = true := by
  rw [nodeOk_iff, engagedOk_iff, pageOk_iff]
  exact ⟨fun ⟨hn, ha, hp⟩ => ⟨hn, ha, hp⟩, fun ⟨hn, ha, hp⟩ => ⟨hn, ha, hp⟩⟩

theorem pageFits_pageByte (k : SlotIx) (i : Nat) : PageFits (pageByte k i) :=
  ⟨⟨k, (pageAt_pageByte k i).1⟩, ainc_pageByte k i⟩

/-- The node just reset and enabled again (41_controller_init.md R89, 45_error_recovery.md R121): ENASTB is set, and
BOFFIT and BOFF are clear, whether the wait saw ENFG or not. -/
theorem nodeFits_restarted {g : Globals} {w : WaitOutcome} (hcon : enastb g.gcon = true)
    (hsta : g.gsta = if w = .enabled then 0x04 else 0x00) (hit : g.git = 0) : NodeFits g := by
  refine ⟨fun _ => hcon, ?_⟩
  rw [hsta, hit]
  cases w <;> decide

/-- A write to one slot whose engaged bit is set only if the slot is armed. -/
theorem EngagedArmed.write {m : Bank Mob} {e : Bank Bool} (h : EngagedArmed m e) {k : SlotIx} {x : Mob} {b : Bool}
    (hx : b = true → conmob x.cdmob ≠ 0b00) : EngagedArmed (bankSet m k x) (bankSet e k b) := by
  intro j
  rw [bankSet_get, bankSet_get]
  split
  · exact hx
  · exact h j

/-- A write of a control byte that sets the engaged bit as a software write of CDMOB does (10_state.md R30 (a)). -/
theorem EngagedArmed.writeControl {m : Bank Mob} {e : Bank Bool} (h : EngagedArmed m e) {k : SlotIx} {x : Mob}
    (c : BitVec 2) {r i : Bool} {n : Nat} (hx : x.cdmob = controlByte c.toNat r i n) (hn : n < 16) :
    EngagedArmed (bankSet m k x) (bankSet e k (c != 0)) := by
  refine h.write fun hc => ?_
  rw [hx, conmob_controlByte c r i hn]
  simpa using hc

/-- A write to one slot that leaves its control byte and its engaged bit. -/
theorem EngagedArmed.writeStatus {m : Bank Mob} {e : Bank Bool} (h : EngagedArmed m e) {k : SlotIx} {x : Mob}
    (hx : x.cdmob = m[k].cdmob) : EngagedArmed (bankSet m k x) e := by
  have hk := h.write (k := k) (x := x) (b := e[k]) (hx ▸ h k)
  rwa [bankSet_self] at hk

theorem engagedArmed_none (m : Bank Mob) : EngagedArmed m (Vector.replicate 6 false) := by
  intro k hk
  simp at hk

/-! ### The software's operations keep it -/

theorem controllerFits_selectPage {s : State} (hs : ControllerFits s) (k : SlotIx) :
    ControllerFits (s.selectPage k) := by
  rw [State.selectPage_eq, pageOf_eq]
  exact { hs with page := pageFits_pageByte k 0 }

theorem controllerFits_setConmob {s : State} (hs : ControllerFits s) (k : SlotIx) (c : BitVec 2) :
    ControllerFits (setConmob k c s) := by
  rw [setConmob_eq]
  exact { hs with armed := hs.armed.writeControl c rfl (dlc _).isLt }

theorem controllerFits_resumeReceive {s : State} (hs : ControllerFits s) (k : SlotIx) :
    ControllerFits (resumeReceive k s) :=
  controllerFits_setConmob (controllerFits_selectPage hs k) k 0b10

theorem controllerFits_pauseBody {s : State} (hs : ControllerFits s) (kind : Kind) (k : SlotIx) :
    ControllerFits (pauseBody kind k s) := by
  cases kind with
  | transmit => exact controllerFits_setConmob (controllerFits_selectPage hs k) k 0b00
  | receive => exact hs
  | autoReply => exact hs

theorem controllerFits_afterReception {s : State} (hs : ControllerFits s) (kind : Kind) (k : SlotIx) :
    ControllerFits (afterReception kind k s) := by
  cases kind with
  | transmit => exact controllerFits_pauseBody hs .transmit k
  | receive => exact controllerFits_setConmob hs k 0b10
  | autoReply => exact controllerFits_setConmob hs k 0b10

theorem controllerFits_resumeTransmit {h : Handle} {k : SlotIx} {buf : Bytes8} {len : Byte} {s t : State}
    (hs : ControllerFits s) (hr : resumeTransmit h k buf len s = .next t) : ControllerFits t := by
  obtain ⟨u, rfl, rfl | rfl⟩ := resumeTransmit_next hr
  · exact hs
  · exact { hs with
      armed := hs.armed.writeControl 0b01 rfl (minEight_lt len)
      page := pageFits_pageByte k (minEight len) }

theorem controllerFits_configureBody {s : State} (hs : ControllerFits s) (kind : Kind) (h : Handle) (d : Desc)
    (k : SlotIx) : ControllerFits (configureBody kind h d k s) := by
  rw [configureBody_eq]
  exact { hs with
    armed := hs.armed.writeControl (Kind.initialConmob kind) rfl (minEight_lt d.dataLength)
    page := pageFits_pageByte k 0 }

/-- INIT_CAN leaves consistent registers, whatever it finds (41_controller_init.md R89). -/
theorem controllerFits_initBody (tm : Timing) (s : State) : ControllerFits (initBody tm s) := by
  have hpage : (0x50 : Byte) = pageByte 5 0 := by decide
  have hcon : enastb 0x22 = true := by decide
  rw [initBody_eq, hpage]
  exact {
    node := nodeFits_restarted hcon rfl rfl
    armed := engagedArmed_none _
    page := pageFits_pageByte 5 0 }

/-! ### The dispatcher's micro-steps keep it -/

theorem controllerFits_dispBusOff {s : State} (hs : ControllerFits s) : ControllerFits (dispBusOff s) := by
  cases hb : boffit s.g.git with
  | false =>
    rw [dispBusOff_clear s hb]
    exact hs
  | true =>
    have hcon : enastb 0x02 = true := by decide
    have harmed : EngagedArmed s.m (if s.env.params.swresDisengages then Vector.replicate 6 false else s.enmob) := by
      split
      · exact engagedArmed_none _
      · exact hs.armed
    rw [dispBusOff_set s hb]
    exact { hs with
      node := nodeFits_restarted hcon rfl rfl
      armed := harmed }

theorem controllerFits_dispSlot {s : State} (hs : ControllerFits s) (k : SlotIx) : ControllerFits (dispSlot k s) := by
  cases hr : s.reg[k] with
  | none =>
    rw [dispSlot_none k s hr]
    exact hs
  | some h =>
    rw [dispSlot_some k s h hr]
    exact { hs with page := pageFits_pageByte k 0 }

/-- The reads of a delivery move the data index alone, and the status clear leaves the slot's control byte
(44_dispatcher.md R112). -/
theorem controllerFits_received {s : State} (hs : ControllerFits s) (j : SlotIx) (h : Handle) (n : Byte)
    (bs : List Byte) {p : Byte} (hm : mobnb p = mobnb s.g.page) (ha : ainc p = ainc s.g.page) :
    ControllerFits (received j h n bs p s) := by
  have hpage : PageFits p := by
    unfold PageFits
    rw [hm, ha]
    exact hs.page
  exact { hs with armed := hs.armed.writeStatus rfl, page := hpage }

theorem controllerFits_clearStatus {s : State} (hs : ControllerFits s) (j : SlotIx) (v : Byte) :
    ControllerFits (s.setMob j { s.m[j] with stmob := v }) :=
  { hs with armed := hs.armed.writeStatus rfl }

theorem dispAct_controllerFits {k : SlotIx} {st : Byte} {s t : State} (hs : ControllerFits s)
    (h : dispAct k st s = .next t) : ControllerFits t := by
  rcases dispAct_next h with rfl | ⟨j, -, -, rfl⟩ | ⟨x, d, j, bs, p, -, -, -, -, hm, ha, rfl⟩ | ⟨x, d, j, -, -, -, rfl⟩
  · exact hs
  · exact controllerFits_clearStatus hs j _
  · exact controllerFits_afterReception (controllerFits_received hs j x _ bs hm ha) d.kind k
  · exact controllerFits_pauseBody (controllerFits_clearStatus hs j _) d.kind k

theorem microStep_controllerFits {s t : State} (hs : ControllerFits s) (h : microStep s = .next t) :
    ControllerFits t := by
  rcases microStep_next h with ⟨-, rfl | ⟨-, rfl⟩⟩ | ⟨-, rfl⟩ | ⟨k, -, rfl⟩ | ⟨k, st, -, hact⟩ | ⟨-, rfl⟩
  · exact hs
  · exact hs
  · exact controllerFits_dispBusOff hs
  · exact controllerFits_dispSlot hs k
  · exact dispAct_controllerFits hs hact
  · exact hs

/-! ### The events keep it, and every step does -/

theorem controllerFits_rxEffect {s : State} (hs : ControllerFits s) (k : SlotIx) : ControllerFits (rxEffect k s) := by
  rw [rxEffect_eq]
  exact { hs with armed := hs.armed.write Bool.noConfusion }

theorem controllerFits_txEffect {s : State} (hs : ControllerFits s) (k : SlotIx) : ControllerFits (txEffect k s) := by
  rw [txEffect_eq]
  exact { hs with armed := hs.armed.write Bool.noConfusion }

theorem controllerFits_errEffect {s : State} (hs : ControllerFits s) (k : SlotIx) : ControllerFits (errEffect k s) := by
  rw [errEffect_eq]
  split
  · exact { hs with armed := hs.armed.write Bool.noConfusion }
  · exact { hs with armed := hs.armed.writeStatus rfl }

/-- EV_BUS_OFF sets BOFFIT and BOFF together (46_bus_events.md R130). -/
theorem controllerFits_busOffEffect {s : State} (hs : ControllerFits s) : ControllerFits (busOffEffect s) := by
  have hkeep : ∀ v : Byte, enfg (v ||| 0x02) = enfg v := by decide
  have hboffit : ∀ v : Byte, boffit (v ||| 0x40) = true := by decide
  have hboff : ∀ v : Byte, boff (v ||| 0x02) = true := by decide
  have hnode : NodeFits (busOffEffect s).g := by
    obtain ⟨henabled, -⟩ := hs.node
    rw [busOffEffect_eq]
    exact ⟨fun h => henabled (hkeep _ ▸ h), (hboffit _).trans (hboff _).symm⟩
  exact { hs with node := hnode }

/-- EV_NODE_EN sets ENFG only where ENASTB is set (46_bus_events.md R131). -/
theorem controllerFits_nodeEnEffect {s : State} (hs : ControllerFits s) (hen : enastb s.g.gcon = true) :
    ControllerFits (nodeEnEffect s) := by
  have hkeep : ∀ v : Byte, boff (v ||| 0x04) = boff v := by decide
  have hnode : NodeFits (nodeEnEffect s).g := by
    obtain ⟨-, hflags⟩ := hs.node
    rw [nodeEnEffect_eq]
    exact ⟨fun _ => hen, hflags.trans (hkeep _).symm⟩
  exact { hs with node := hnode }

/-- The guard of EV_NODE_EN, term by term (46_bus_events.md R131). -/
theorem nodeEnEnabled_iff {s : State} : nodeEnEnabled s = true ↔ enastb s.g.gcon = true ∧ enfg s.g.gsta = false := by
  simp [nodeEnEnabled]

theorem exec_controllerFits {i : Instr} {s t : State} (hs : ControllerFits s) (h : exec i s = .next t) :
    ControllerFits t := by
  rcases exec_next h with rfl | ⟨op, v, -, rfl⟩ | ⟨tm, -, rfl⟩ | ⟨b, -, rfl⟩
    | ⟨kind, x, d, k, -, -, -, -, -, rfl⟩ | ⟨x, d, k, buf, len, -, -, -, -, -, hr⟩ | ⟨k, -, rfl⟩ | ⟨k, -, rfl⟩
    | ⟨k, op, v, -, rfl⟩ | ⟨k, -, -, -, rfl⟩ | ⟨k, -, -, -, rfl⟩ | ⟨k, -, -, -, rfl⟩ | ⟨-, -, rfl⟩
    | ⟨-, hg, rfl⟩ | ⟨-, hx⟩
  · exact hs
  · exact hs
  · exact controllerFits_initBody tm s
  · exact hs
  · exact controllerFits_configureBody hs kind x d k
  · exact controllerFits_resumeTransmit hs hr
  · exact controllerFits_resumeReceive hs k
  · exact controllerFits_pauseBody hs .transmit k
  · exact controllerFits_selectPage hs k
  · exact controllerFits_rxEffect hs k
  · exact controllerFits_txEffect hs k
  · exact controllerFits_errEffect hs k
  · exact controllerFits_busOffEffect hs
  · exact controllerFits_nodeEnEffect hs (nodeEnEnabled_iff.mp hg).1
  · exact execDispatch_keep (P := ControllerFits) (fun _ hu _ => hu) (fun _ _ => microStep_controllerFits) s t hs hx

/-- Settles O55: `ControllerFits` is the three predicates together, and every instruction and micro-step keeps it. -/
theorem stepKeepsControllerConsistent : Obligations.StepKeepsControllerConsistent := by
  intro s t hnode hengaged hpage h
  refine controllerFits_iff.mp ?_
  exact step_keep (P := ControllerFits)
    (hb := fun _ hu => hu)
    (hm := fun _ _ hu => hu)
    (hc := fun _ hu => hu)
    (hx := fun _ _ _ => exec_controllerFits)
    (hd := fun _ _ _ _ hu _ _ => hu)
    (hu := fun _ _ => microStep_controllerFits) s t (controllerFits_iff.mpr ⟨hnode, hengaged, hpage⟩) h

/-! ### What each event does where its guard holds -/

/-- A slot event on a named slot whose guard holds there. -/
theorem slotEvent_enabled_at {k : SlotIx} {guard : SlotIx → State → Bool} (effect : SlotIx → State → State) {s : State}
    (h : guard k s = true) : slotEvent (BitVec.ofNat 3 k.val) guard effect s = .next (effect k s) := by
  rw [slotEvent_eq, if_pos h]

/-- Settles O44: the guard is `rxEnabled_iff`, the effect `rxEffect_eq`, and the bytes are those of `memRead_hwFill`. -/
theorem evRxDepositsTheFrame : Obligations.EvRxDepositsTheFrame := by
  intro s k hon hen hfilter hrtr hw p x n
  have hguard : rxEnabled k s = true := rxEnabled_iff.mpr ⟨hon, hen, hfilter, hrtr⟩
  have hexec : exec (.evRx (BitVec.ofNat 3 k.val)) s = .next (rxEffect k s) := slotEvent_enabled_at rxEffect hguard
  refine ⟨hwFill k p.bytes n s.data, ?_, hwFill_wf k _ n _ hw, memRead_hwFill k _ n _ (Nat.min_le_right _ _) hw⟩
  rw [hexec, rxEffect_eq]
  rfl

/-- Settles O45: the guard is `txEnabled_iff` and the effect `txEffect_eq`. -/
theorem evTxDoneSetsTxokAndDisengages : Obligations.EvTxDoneSetsTxokAndDisengages := by
  intro s k hon hen harmed
  have hguard : txEnabled k s = true := txEnabled_iff.mpr ⟨hon, hen, harmed⟩
  have hexec : exec (.evTxDone (BitVec.ofNat 3 k.val)) s = .next (txEffect k s) :=
    slotEvent_enabled_at txEffect hguard
  rw [hexec, txEffect_eq]

/-- Settles O46: the guard is `errEnabled_iff` and the effect `errEffect_eq`; where the slot stays engaged, its bit is
written with the value it has. -/
theorem evMobErrSetsTheErrorBits : Obligations.EvMobErrSetsTheErrorBits := by
  intro s k hon hen hne hsub
  have hguard : errEnabled k s = true := errEnabled_iff.mpr ⟨hon, hen, hne, hsub⟩
  have hexec : exec (.evMobErr (BitVec.ofNat 3 k.val)) s = .next (errEffect k s) :=
    slotEvent_enabled_at errEffect hguard
  have hstay : bankSet s.enmob k true = s.enmob := hen ▸ bankSet_self s.enmob k
  rw [hexec, errEffect_eq]
  cases ttc s.g.gcon && conmob s.m[k].cdmob == 0b01 with
  | true => rfl
  | false => rw [Bool.not_false, hstay, if_neg Bool.false_ne_true]

/-- Settles O47: the effects are `busOffEffect_eq` and `nodeEnEffect_eq`, under their guards. -/
theorem nodeEventsSetTheirFlags : Obligations.NodeEventsSetTheirFlags := by
  intro s
  constructor
  · intro hon
    have hexec : exec .evBusOff s = .next (busOffEffect s) := congrArg Host.Outcome.next (if_pos hon)
    rw [hexec, busOffEffect_eq]
  · intro hen hoff
    have hguard : nodeEnEnabled s = true := nodeEnEnabled_iff.mpr ⟨hen, hoff⟩
    have hexec : exec .evNodeEn s = .next (nodeEnEffect s) := congrArg Host.Outcome.next (if_pos hguard)
    rw [hexec, nodeEnEffect_eq]

/-! ### What no event writes (46_bus_events.md R125) -/

/-- What an event leaves as it was. Each field is filled in by default, so that a proof names only what the event's
update does not leave by definition. -/
structure EventKept (s t : State) : Prop where
  reg : t.reg = s.reg := by rfl
  boc : t.boc = s.boc := by rfl
  init : t.init = s.init := by rfl
  d : t.d = s.d := by rfl
  gie : t.gie = s.gie := by rfl
  disp : t.disp = s.disp := by rfl
  res : t.res = s.res := by rfl
  page : t.g.page = s.g.page := by rfl
  enables : t.g.gie = s.g.gie := by rfl
  bt1 : t.g.bt1 = s.g.bt1 := by rfl
  bt2 : t.g.bt2 = s.g.bt2 := by rfl
  bt3 : t.g.bt3 = s.g.bt3 := by rfl
  iemob : t.iemob = s.iemob := by rfl
  conmob : ∀ k : SlotIx, conmob t.m[k].cdmob = conmob s.m[k].cdmob := by exact fun _ => rfl

/-- A write to one slot that leaves its CONMOB leaves that of every slot. -/
theorem conmob_bankSet_same {b : Bank Mob} {k : SlotIx} {x : Mob} (hx : conmob x.cdmob = conmob b[k].cdmob)
    (j : SlotIx) : conmob (bankSet b k x)[j].cdmob = conmob b[j].cdmob :=
  bankSet_rel (r := fun x y : Mob => conmob y.cdmob = conmob x.cdmob) (fun _ => rfl) hx j

theorem eventKept_rxEffect (k : SlotIx) (s : State) : EventKept s (rxEffect k s) := by
  rw [rxEffect_eq]
  exact { conmob := conmob_bankSet_same (conmob_controlByte _ _ _ (BitVec.isLt _)) }

theorem eventKept_txEffect (k : SlotIx) (s : State) : EventKept s (txEffect k s) := by
  rw [txEffect_eq]
  exact { conmob := conmob_bankSet_same rfl }

theorem eventKept_errEffect (k : SlotIx) (s : State) : EventKept s (errEffect k s) := by
  rw [errEffect_eq]
  exact { conmob := conmob_bankSet_same rfl }

/-- A slot event answers, and keeps what its effect on a slot keeps. -/
theorem slotEvent_eventKept (v : BitVec 3) (guard : SlotIx → State → Bool) {effect : SlotIx → State → State}
    (heff : ∀ k s, EventKept s (effect k s)) (s : State) :
    ∃ t, slotEvent v guard effect s = .next t ∧ EventKept s t := by
  rcases slotEvent_cases v guard effect s with hn | ⟨k, -, -, hx⟩
  · exact ⟨s, hn, {}⟩
  · exact ⟨effect k s, hx, heff k s⟩

theorem execEvBusOff_eventKept (s : State) : ∃ t, execEvBusOff s = .next t ∧ EventKept s t := by
  refine ⟨_, rfl, ?_⟩
  split
  · rw [busOffEffect_eq]; exact {}
  · exact {}

theorem execEvNodeEn_eventKept (s : State) : ∃ t, execEvNodeEn s = .next t ∧ EventKept s t := by
  refine ⟨_, rfl, ?_⟩
  split
  · rw [nodeEnEffect_eq]; exact {}
  · exact {}

/-- Every event answers a next state, whatever its guard says, and keeps what `EventKept` says. -/
theorem exec_eventKept {i : Instr} (hi : i.isForeground = false) (hd : i ≠ .dispatch) (s : State) :
    ∃ t, exec i s = .next t ∧ EventKept s t := by
  cases i with
  | evRx v => exact slotEvent_eventKept v rxEnabled eventKept_rxEffect s
  | evTxDone v => exact slotEvent_eventKept v txEnabled eventKept_txEffect s
  | evMobErr v => exact slotEvent_eventKept v errEnabled eventKept_errEffect s
  | evBusOff => exact execEvBusOff_eventKept s
  | evNodeEn => exact execEvNodeEn_eventKept s
  | dispatch => exact absurd rfl hd
  | _ => cases hi

/-- Settles O49: the fields of `EventKept`. -/
theorem eventsWriteOnlyTheirOwn : Obligations.EventsWriteOnlyTheirOwn := by
  intro s i hi hd
  obtain ⟨t, hx, hk⟩ := exec_eventKept hi hd s
  exact ⟨t, hx, hk.reg, hk.boc, hk.init, hk.d, hk.gie, hk.disp, hk.res, hk.page, hk.enables, hk.bt1, hk.bt2, hk.bt3,
    hk.iemob, hk.conmob⟩

end Sys2Proof.Machine
end

section
/-! Family 60_exceptions.md: the interrupt line (R134), one condition served per slot and invocation (R137), and the stops
of the dispatcher and of the callbacks (R139, R140). `ScanState` says how far the scan of an invocation has come. -/

namespace Sys2Proof.Machine

open Sys2Proof.Safety

/-! ### The interrupt line (60_exceptions.md R134) -/

/-- The term of slot `k`, bit by bit. -/
theorem slotIrq_iff {s : State} {k : SlotIx} : slotIrq s k = true ↔ s.iemob[k] = true
    ∧ ((s.g.gie.getLsbD 4 = true ∧ s.m[k].stmob.getLsbD 6 = true)
      ∨ (s.g.gie.getLsbD 5 = true ∧ s.m[k].stmob.getLsbD 5 = true)
      ∨ (s.g.gie.getLsbD 3 = true ∧ s.m[k].stmob &&& 0x1F ≠ 0)) := by
  simp [slotIrq, entx, enrx, enerr, txok, rxok, irqErr, or_assoc]

theorem canit_iff {s : State} : canit s = true ↔
    (s.g.gie.getLsbD 6 = true ∧ s.g.git.getLsbD 6 = true) ∨ ∃ k, slotIrq s k = true := by
  simp only [canit, enboff, boffit, Bool.or_eq_true, Bool.and_eq_true, slots_any]

theorem irqCond_iff {s : State} : irqCond s = true ↔ s.g.gie.getLsbD 7 = true ∧ canit s = true := by
  simp only [irqCond, enit, Bool.and_eq_true]

/-- Bit 7 of GIT is computed on reading (10_state.md R17). -/
theorem readG_git_canit (s : State) : (s.readG .git).getLsbD 7 = canit s := by
  cases hc : canit s <;> simp [State.readG, hc]

/-- Settles O20: `canit_iff` with the slots' terms of `slotIrq_iff`. -/
theorem interruptLineIsTheFormula : Obligations.InterruptLineIsTheFormula := by
  intro s line
  have hline : canit s = true ↔ line := by simp only [canit_iff, slotIrq_iff, line]
  exact ⟨irqCond_iff.trans (and_congr_right' hline), readG_git_canit s ▸ hline⟩

/-! ### The stops of the dispatcher and of the callbacks (60_exceptions.md R139, R140) -/

/-- The outcome is no fault: a next state, or the refusal of a misbehaving callback. -/
def AnswersOrRefuses (o : Out) : Prop := (∃ t, o = .next t) ∨ o = .refused .callbackReentry

theorem AnswersOrRefuses.ne_fault {o : Out} (ho : AnswersOrRefuses o) (f : Fault) : o ≠ .fault f := by
  rcases ho with ⟨t, rfl⟩ | rfl <;> simp

/-- Where the registry leads to descriptors, a micro-step answers unless a callback misbehaves. -/
theorem microStep_answersOrRefuses {s : State} (hreg : ∀ (k : SlotIx) h, s.reg[k] = some h → LeadsTo s.d h k)
    (hok : dispatcherOk s = true) : AnswersOrRefuses (microStep s) := by
  cases hd : s.disp with
  | idle => exact .inl ⟨_, microStep_idle hd⟩
  | entry => exact .inl ⟨_, microStep_entry hd⟩
  | slot k => exact .inl ⟨_, microStep_slot hd⟩
  | exit => exact .inl ⟨_, microStep_exit hd⟩
  | act k st =>
    obtain ⟨-, hs, hsome⟩ := (dispatcherOk_act hd).mp hok
    obtain ⟨h, hr⟩ := Option.isSome_iff_exists.mp hsome
    obtain ⟨d, hat, -, -⟩ := hreg k h hr
    rw [microStep_act hd]
    exact (dispAct_answers st hs hr hat).imp_right And.right

/-- The registry of the start still leads to descriptors in every state of its invocation. -/
theorem InvocationState.leadsTo {s t : State} (ht : InvocationState s t) (hreg : registryOk s = true) (k : SlotIx)
    (h : Handle) (hr : t.reg[k] = some h) : LeadsTo t.d h k := by
  rw [ht.kept.reg] at hr
  exact ((registryOk_iff.mp hreg).1 k h hr).kept ht.software.store

theorem InvocationState.answersOrRefuses {s : State} (hreg : registryOk s = true) :
    ∀ (n : Nat) (t : State), InvocationState s t → AnswersOrRefuses (microSteps n t) := by
  intro n
  induction n with
  | zero => exact fun t _ => .inl ⟨t, rfl⟩
  | succ n ih =>
    intro t ht
    by_cases hd : t.disp = .idle
    · exact .inl ⟨t, microSteps_idle _ t hd⟩
    · rw [microSteps_succ n t hd]
      rcases microStep_answersOrRefuses (ht.leadsTo hreg) ht.ok with ⟨u, hu⟩ | hu
      · rw [hu, chain_next]
        exact ih u (ht.next hd hu)
      · exact .inr (by rw [hu, chain_refused])

theorem execDispatch_answersOrRefuses {s : State} (hreg : registryOk s = true) :
    AnswersOrRefuses (execDispatch s) := by
  unfold execDispatch
  split
  · exact InvocationState.answersOrRefuses hreg 14 s.dispEnter (invocationState_dispEnter s)
  · exact .inl ⟨s, rfl⟩

/-- Settles O41: a micro-step answers or is refused, and so does each one of an invocation. -/
theorem dispatcherRaisesNoFault : Obligations.DispatcherRaisesNoFault := fun _ hreg hok =>
  ⟨(microStep_answersOrRefuses (registryOk_iff.mp hreg).1 hok).ne_fault, (execDispatch_answersOrRefuses hreg).ne_fault⟩

theorem execResume_misbehaves {h : Handle} {s : State} {d : Desc} {k : SlotIx} (ha : Accepted s h d k)
    (hk : d.kind = .transmit) (hf : s.env.draws.fill = .misbehave) : execResume h s = .refused .callbackReentry := by
  simp only [execResume, checkSlot_accepted ha, hk, hf]

/-- Settles O30: `on_transmit` by `execResume_misbehaves`, `on_receive` by `actReception_eq`. -/
theorem misbehavingCallbackIsRefused : Obligations.MisbehavingCallbackIsRefused := by
  refine ⟨fun s h d k ha hk hf => execResume_misbehaves ha hk hf, ?_⟩
  intro s k st h d hd he hrx hr hat hs hv
  have hrx' : rxok st = true := hrx
  obtain ⟨bs, p, -, -, -, -, hact⟩ := actReception_eq k k s h d hr hat hs
  rw [microStep_act hd, dispAct_noError he, if_pos hrx', hact, hv]

/-! ### One condition per slot (60_exceptions.md R137) -/

/-- A status byte with one condition served: errors before a reception before a transmission. -/
def servedOnce (x : Byte) : Byte :=
  if x &&& 0x9F ≠ 0 then x &&& 0x60 else if x.getLsbD 5 = true then x &&& 0xDF else x &&& 0xBF

/-- The status of slot `k` after an invocation started in `s`. -/
def statusAfter (s : State) (k : SlotIx) : Byte :=
  if s.reg[k] = none then s.m[k].stmob else servedOnce s.m[k].stmob

/-- The outcome leaves every slot's status but that of slot `k`, which it serves once. -/
def ServesSlot (k : SlotIx) (s t : State) : Prop :=
  ∀ j : SlotIx, t.m[j].stmob = if k = j then servedOnce s.m[k].stmob else s.m[j].stmob

theorem servesSlot_of_write {k : SlotIx} {s t : State} {x : Mob} (hm : t.m = bankSet s.m k x)
    (hx : x.stmob = servedOnce s.m[k].stmob) : ServesSlot k s t := by
  intro j
  rw [hm, bankSet_get, ← hx]
  exact apply_ite Mob.stmob ..

theorem servedOnce_error {x : Byte} (he : classify x ≠ 0) : servedOnce x = x &&& 0x60 := if_pos he

theorem servedOnce_reception {x : Byte} (he : classify x = 0) (hrx : rxok x = true) : servedOnce x = x &&& 0xDF :=
  (if_neg (not_not_intro he)).trans (if_pos hrx)

theorem servedOnce_transmission {x : Byte} (he : classify x = 0) (hrx : ¬ rxok x = true) :
    servedOnce x = x &&& 0xBF := (if_neg (not_not_intro he)).trans (if_neg hrx)

/-- The transmission action clears TXOK of its slot, and pausing the slot leaves every status (44_dispatcher.md R113). -/
theorem actTransmission_servesSlot {k : SlotIx} {s t : State} {h : Handle} {d : Desc} (hs : s.selected = some k)
    (hr : s.reg[k] = some h) (hd : descAt s.d h = some d) (hserved : servedOnce s.m[k].stmob = s.m[k].stmob &&& 0xBF)
    (ht : actTransmission k s = .next t) : ServesSlot k s t := by
  rw [actTransmission_eq k k s h d hr hd hs] at ht
  cases ht
  by_cases hk : d.kind = .transmit
  · have hcleared := congrArg Mob.stmob (bankSet_get_same s.m k { s.m[k] with stmob := s.m[k].stmob &&& 0xBF })
    rw [hk, pauseBody_transmit]
    exact servesSlot_of_write (bankSet_bankSet ..) (hcleared.trans hserved.symm)
  · rw [pauseBody_of_ne_transmit hk]
    exact servesSlot_of_write rfl hserved.symm

/-- The action of a registered slot on its own status serves that slot once (44_dispatcher.md R111-R114). -/
theorem dispAct_servesSlot {k : SlotIx} {s t : State} {h : Handle} {d : Desc} (hs : s.selected = some k)
    (hr : s.reg[k] = some h) (hd : descAt s.d h = some d) (hv : s.env.draws.deliver = .accept)
    (ht : dispAct k s.m[k].stmob s = .next t) : ServesSlot k s t := by
  by_cases he : classify s.m[k].stmob = 0
  · rw [dispAct_noError he] at ht
    split at ht
    next hrx =>
      obtain ⟨bs, p, -, hact⟩ := actReception_own k s h d hr hd hs hv
      rw [hact] at ht
      cases ht
      exact servesSlot_of_write rfl (servedOnce_reception he hrx).symm
    next hrx =>
      have hserved := servedOnce_transmission he hrx
      split at ht
      next htx => exact actTransmission_servesSlot hs hr hd hserved ht
      next htx =>
        have hclear : ∀ x : Byte, ¬ txok x = true → x &&& 0xBF = x := by decide
        cases ht
        refine servesSlot_of_write (bankSet_self s.m k).symm ?_
        rw [hserved, hclear _ htx]
  · rw [dispAct_error he hs] at ht
    cases ht
    exact servesSlot_of_write rfl (servedOnce_error he).symm

/-- The number of slots whose scan is over in a phase (44_dispatcher.md R108). -/
def slotsDone : Phase → Nat
  | .idle => 6
  | .entry => 0
  | .slot k => k.val
  | .act k _ => k.val
  | .exit => 6

theorem slotsDone_nextPhase (k : SlotIx) : slotsDone (nextPhase k) = k.val + 1 := by
  revert k; decide

/-- How far the invocation started in `s` has come in `t`: the slots before the scan are served and the others as they
were, and a snapshot is the status of its slot. -/
structure ScanState (s t : State) : Prop where
  status : ∀ j : SlotIx, t.m[j].stmob = if j.val < slotsDone t.disp then statusAfter s j else s.m[j].stmob
  snapshot : ∀ k st, t.disp = .act k st → st = t.m[k].stmob

theorem scanState_dispEnter (s : State) : ScanState s s.dispEnter where
  status _ := rfl
  snapshot _ _ h := Phase.noConfusion h

/-- A micro-step that is done with slot `k` and moves on to the next. -/
theorem ScanState.move_on {s t u : State} {k : SlotIx} (ht : ScanState s t) (hk : slotsDone t.disp = k.val)
    (hd : u.disp = nextPhase k)
    (hu : ∀ j : SlotIx, u.m[j].stmob = if k = j then statusAfter s k else t.m[j].stmob) : ScanState s u where
  status j := by
    rw [hu, hd, slotsDone_nextPhase, ht.status j, hk]
    by_cases hj : k = j
    · subst hj
      simp
    · have hval : k.val ≠ j.val := fun h => hj (Fin.ext h)
      have hiff : j.val < k.val ↔ j.val < k.val + 1 := by omega
      simp only [hj, if_false, hiff]
  snapshot j st h := absurd (hd.symm.trans h) (nextPhase_ne_act k j st)

/-- A slot the scan has come to but not passed has the status of the start. -/
theorem ScanState.pending {s t : State} (ht : ScanState s t) {k : SlotIx} (hk : slotsDone t.disp = k.val) :
    t.m[k].stmob = s.m[k].stmob := by
  rw [ht.status k, hk, if_neg (Nat.lt_irrefl _)]

theorem ScanState.entry {s t : State} (ht : ScanState s t) (hd : t.disp = .entry) : ScanState s (dispBusOff t) where
  status j := by
    have hm : (dispBusOff t).m = t.m := by
      cases hb : boffit t.g.git with
      | false => rw [dispBusOff_clear t hb]
      | true => rw [dispBusOff_set t hb]
    rw [hm, ht.status j, hd, dispBusOff_disp]
    rfl
  snapshot k st h := by
    rw [dispBusOff_disp] at h
    cases h

theorem ScanState.slot {s t : State} {k : SlotIx} (ht : ScanState s t) (hreg : t.reg = s.reg) (hd : t.disp = .slot k) :
    ScanState s (dispSlot k t) := by
  have hk : slotsDone t.disp = k.val := by rw [hd]; rfl
  cases hr : t.reg[k] with
  | none =>
    have hsame : statusAfter s k = t.m[k].stmob := (if_pos (hreg ▸ hr)).trans (ht.pending hk).symm
    rw [dispSlot_none k t hr]
    refine ht.move_on hk rfl fun j => ?_
    split
    · subst_vars
      exact hsame.symm
    · rfl
  | some h =>
    rw [dispSlot_some k t h hr]
    exact {
      status := fun j => (ht.status j).trans (by rw [hk]; rfl)
      snapshot := fun j st hj => by cases hj; rfl }

theorem ScanState.act {s t u : State} {k : SlotIx} {st : Byte} (ht : ScanState s t) (hi : InvocationState s t)
    (hreg : registryOk s = true) (hv : s.env.draws.deliver = .accept) (hd : t.disp = .act k st)
    (h : dispAct k st t = .next u) : ScanState s u := by
  obtain ⟨-, hs, hsome⟩ := (dispatcherOk_act hd).mp hi.ok
  obtain ⟨x, hr⟩ := Option.isSome_iff_exists.mp hsome
  obtain ⟨d, hat, -, -⟩ := hi.leadsTo hreg k x hr
  have hk : slotsDone t.disp = k.val := by rw [hd]; rfl
  have hserved : statusAfter s k = servedOnce t.m[k].stmob := by
    have hne : ¬ s.reg[k] = none := by rw [← hi.kept.reg, hr]; exact Option.some_ne_none x
    rw [ht.pending hk]
    exact if_neg hne
  obtain rfl := ht.snapshot k st hd
  refine ht.move_on hk (dispAct_serves h).2 ?_
  rw [hserved]
  exact dispAct_servesSlot hs hr hat (hi.kept.env ▸ hv) h

theorem ScanState.next {s t u : State} (ht : ScanState s t) (hi : InvocationState s t) (hreg : registryOk s = true)
    (hv : s.env.draws.deliver = .accept) (hrun : t.disp ≠ .idle) (h : microStep t = .next u) : ScanState s u := by
  rcases microStep_next h with ⟨hd, -⟩ | ⟨hd, rfl⟩ | ⟨k, hd, rfl⟩ | ⟨k, st, hd, hact⟩ | ⟨hd, rfl⟩
  · exact absurd hd hrun
  · exact ht.entry hd
  · exact ht.slot hi.kept.reg hd
  · exact ht.act hi hreg hv hd hact
  · exact {
      status := fun j => (ht.status j).trans (by rw [hd]; rfl)
      snapshot := fun _ _ hj => Phase.noConfusion hj }

/-- What each micro-step of a running dispatcher keeps, a run of micro-steps keeps. -/
theorem microSteps_keep_running {P : State → Prop}
    (hP : ∀ t u, P t → t.disp ≠ .idle → microStep t = .next u → P u) :
    ∀ (n : Nat) (t u : State), P t → microSteps n t = .next u → P u := by
  intro n
  induction n with
  | zero =>
    intro t u ht h
    cases h
    exact ht
  | succ n ih =>
    intro t u ht h
    by_cases hd : t.disp = .idle
    · rw [microSteps_idle _ t hd] at h
      cases h
      exact ht
    · rw [microSteps_succ n t hd] at h
      obtain ⟨v, hv, hu⟩ := chain_eq_next.mp h
      exact ih v u (hP t v ht hd hv) hu

/-- Settles O43: the invocation ends (`InvocationState.runs`), and each micro-step keeps `ScanState`, which with every
slot done is the statement. -/
theorem invocationServesOneConditionPerSlot : Obligations.InvocationServesOneConditionPerSlot := by
  intro s hg hreg hv
  have henter := invocationState_dispEnter s
  obtain ⟨t, hrun, -, hend⟩ := InvocationState.runs hreg hv 14 s.dispEnter henter le_rfl
  obtain ⟨-, hscan⟩ := microSteps_keep_running (P := fun u => InvocationState s u ∧ ScanState s u)
    (fun t u ⟨hi, hs⟩ hd h => ⟨hi.next hd h, hs.next hi hreg hv hd h⟩) 14 s.dispEnter t
    ⟨henter, scanState_dispEnter s⟩ hrun
  refine ⟨t, (if_pos hg).trans hrun, fun k => ?_⟩
  have hstatus := hscan.status k
  rw [hend] at hstatus
  exact hstatus.trans (if_pos k.isLt)

end Sys2Proof.Machine
end

section
/-! Family 70_reset_and_hazards.md: the bus-off counter counts the `BusOff` records (R160), and the states at launch and at
power-on are consistent (R150, R155). Of all operations the `Entry` micro-step alone counts, and it records at once. -/

namespace Sys2Proof.Machine

open Sys2Proof.Safety

/-! ### The bus-off counter and the trace (70_reset_and_hazards.md R160) -/

/-- What a counter of the given width shows after `n` recoveries (10_state.md R33). -/
def bocAfter : Option Nat → Nat → Nat
  | none, n => n
  | some w, n => n % 2 ^ w

theorem bocOk_iff {s : State} : bocOk s = true ↔ s.boc = bocAfter s.env.params.bocWidth (busOffCount s.obs) := by
  unfold bocOk bocAfter
  split <;> simp [*]

/-- One more recovery counts one further, also where the counter wraps. -/
theorem bocNext_bocAfter (width : Option Nat) (n : Nat) : bocNext width (bocAfter width n) = bocAfter width (n + 1) := by
  cases width with
  | none => rfl
  | some w => exact Nat.mod_add_mod n (2 ^ w) 1

theorem busOffCount_append (l m : List Obs) : busOffCount (l ++ m) = busOffCount l + busOffCount m :=
  List.countP_append

/-- What an operation without a bus-off recovery keeps: the width, the counter and the number of `BusOff` records. Each
field is filled in by default, so that a proof names only the records an update adds. -/
structure TallyKept (s t : State) : Prop where
  width : t.env.params.bocWidth = s.env.params.bocWidth := by rfl
  boc : t.boc = s.boc := by rfl
  count : busOffCount t.obs = busOffCount s.obs := by rfl

theorem TallyKept.keeps_bocOk {s t : State} (h : TallyKept s t) (hs : bocOk s = true) : bocOk t = true := by
  rw [bocOk_iff] at hs ⊢
  rw [h.boc, hs, h.width, h.count]

/-- A record of another kind leaves the number of `BusOff` records. -/
theorem busOffCount_record {o : Obs} (ho : busOffCount [o] = 0) (l : List Obs) :
    busOffCount (l ++ [o]) = busOffCount l := by
  rw [busOffCount_append, ho, Nat.add_zero]

theorem tallyKept_result (s : State) (op : ResultOp) (v : Word) : TallyKept s (s.result op v) :=
  { count := busOffCount_record rfl s.obs }

theorem tallyKept_resumeTransmit {h : Handle} {k : SlotIx} {buf : Bytes8} {len : Byte} {s t : State}
    (hs : resumeTransmit h k buf len s = .next t) : TallyKept s t := by
  obtain ⟨u, rfl, rfl | rfl⟩ := resumeTransmit_next hs
  · exact { count := busOffCount_record rfl s.obs }
  · exact { count := busOffCount_record rfl s.obs }

theorem tallyKept_pauseBody (kind : Kind) (k : SlotIx) (s : State) : TallyKept s (pauseBody kind k s) := by
  by_cases hk : kind = .transmit
  · rw [hk, pauseBody_transmit]
    exact {}
  · rw [pauseBody_of_ne_transmit hk]
    exact {}

theorem exec_tallyKept {i : Instr} {s t : State} (hi : i ≠ .dispatch) (h : exec i s = .next t) : TallyKept s t := by
  rcases exec_next h with rfl | ⟨op, v, -, rfl⟩ | ⟨tm, -, rfl⟩ | ⟨b, -, rfl⟩
    | ⟨kind, x, d, k, -, -, -, -, -, rfl⟩ | ⟨x, d, k, buf, len, -, -, -, -, -, hr⟩ | ⟨k, -, rfl⟩ | ⟨k, -, rfl⟩
    | ⟨k, op, v, -, rfl⟩ | ⟨k, -, -, -, rfl⟩ | ⟨k, -, -, -, rfl⟩ | ⟨k, -, -, -, rfl⟩ | ⟨-, -, rfl⟩
    | ⟨-, -, rfl⟩ | ⟨hd, -⟩
  · exact {}
  · exact tallyKept_result s op v
  · rw [initBody_eq]; exact {}
  · exact {}
  · rw [configureBody_eq]; exact {}
  · exact tallyKept_resumeTransmit hr
  · rw [resumeReceive_eq]; exact {}
  · exact tallyKept_pauseBody .transmit k s
  · rw [selectPage_result]; exact { count := busOffCount_record rfl s.obs }
  · rw [rxEffect_eq]; exact {}
  · rw [txEffect_eq]; exact {}
  · rw [errEffect_eq]; exact {}
  · rw [busOffEffect_eq]; exact {}
  · rw [nodeEnEffect_eq]; exact {}
  · exact absurd hd hi

theorem dispSlot_tallyKept (k : SlotIx) (s : State) : TallyKept s (dispSlot k s) := by
  cases hr : s.reg[k] with
  | none => rw [dispSlot_none k s hr]; exact {}
  | some h => rw [dispSlot_some k s h hr]; exact {}

theorem dispAct_tallyKept {k : SlotIx} {st : Byte} {s t : State} (h : dispAct k st s = .next t) : TallyKept s t := by
  rcases dispAct_next h with rfl | ⟨j, -, -, rfl⟩ | ⟨x, d, j, bs, p, -, -, -, -, -, -, rfl⟩ | ⟨x, d, j, -, -, -, rfl⟩
  · exact {}
  · exact { count := busOffCount_record rfl s.obs }
  · rw [afterReception_eq]
    exact { count := busOffCount_record rfl s.obs }
  · have hpause := tallyKept_pauseBody d.kind k (s.setMob j { s.m[j] with stmob := s.m[j].stmob &&& 0xBF })
    exact { width := hpause.width, boc := hpause.boc, count := hpause.count }

/-- The `Entry` micro-step counts a recovery and records it, or does neither (44_dispatcher.md R109). -/
theorem dispBusOff_bocOk {s : State} (hs : bocOk s = true) : bocOk (dispBusOff s) = true := by
  cases hb : boffit s.g.git with
  | false =>
    rw [dispBusOff_clear s hb]
    exact hs
  | true =>
    rw [dispBusOff_set s hb, bocOk_iff]
    rw [bocOk_iff] at hs
    rw [busOffCount_append, hs]
    exact bocNext_bocAfter s.env.params.bocWidth (busOffCount s.obs)

theorem microStep_bocOk {s t : State} (hs : bocOk s = true) (h : microStep s = .next t) : bocOk t = true := by
  rcases microStep_next h with ⟨-, rfl | ⟨-, rfl⟩⟩ | ⟨-, rfl⟩ | ⟨k, -, rfl⟩ | ⟨k, st, -, hact⟩ | ⟨-, rfl⟩
  · exact hs
  · exact hs
  · exact dispBusOff_bocOk hs
  · exact (dispSlot_tallyKept k s).keeps_bocOk hs
  · exact (dispAct_tallyKept hact).keeps_bocOk hs
  · exact hs

theorem exec_bocOk {i : Instr} {s t : State} (hs : bocOk s = true) (h : exec i s = .next t) : bocOk t = true := by
  by_cases hi : i = .dispatch
  · subst hi
    exact execDispatch_keep (P := fun u => bocOk u = true) (fun _ hu _ => hu) (fun _ _ => microStep_bocOk) s t hs h
  · exact (exec_tallyKept hi h).keeps_bocOk hs

/-- Settles O56: of the instructions only DISPATCH counts, and of the micro-steps only `Entry` (`dispBusOff_bocOk`). -/
theorem stepKeepsTheBusOffCount : Obligations.StepKeepsTheBusOffCount := by
  intro s t hs h
  exact step_keep (P := fun u => bocOk u = true)
    (hb := fun _ hu => hu)
    (hm := fun _ _ hu => hu)
    (hc := fun _ hu => hu)
    (hx := fun _ _ _ => exec_bocOk)
    (hd := fun _ _ _ _ hu _ _ => hu)
    (hu := fun _ _ => microStep_bocOk) s t hs h

/-! ### The state at launch and at power-on (70_reset_and_hazards.md R150, R155) -/

theorem descHandles_launch (l : Launch) : descHandles (State.launch l).d = descHandles l.d := by
  simp [descHandles, State.launch]

theorem memoryOk_launch {l : Launch} (hl : launchOk l = true) : memoryOk (State.launch l) = true := by
  rw [memoryOk, descWf_eq_of_handles _ _ (descHandles_launch l)]
  exact hl

theorem reg_launch (l : Launch) (k : SlotIx) : (State.launch l).reg[k] = none := by
  simp [State.launch, State.reset]

theorem registryOk_launch (l : Launch) : registryOk (State.launch l) = true := by
  refine registryOk_iff.mpr ⟨fun k h hr => ?_, .inr (reg_launch l)⟩
  rw [reg_launch] at hr
  cases hr

theorem bocOk_launch (l : Launch) : bocOk (State.launch l) = true := by
  have hzero : ∀ width, bocAfter width 0 = 0 := by
    rintro (_ | w)
    · rfl
    · exact Nat.zero_mod _
  exact bocOk_iff.mpr (hzero l.params.bocWidth).symm

/-- The node is off and no bus-off is due: all three registers are 0. -/
theorem nodeOk_launch (l : Launch) : nodeOk (State.launch l) = true :=
  nodeOk_iff.mpr ⟨show enfg 0 = true → enastb 0 = true by decide, show boffit 0 = boff 0 by decide⟩

/-- The page selects slot 0 at index 0. -/
theorem pageOk_launch (l : Launch) : pageOk (State.launch l) = true :=
  pageOk_iff.mpr (show PageFits (0 : Byte) from pageFits_pageByte 0 0)

/-- Settles O51: no entry, no engaged slot, no `BusOff` record, the dispatcher idle and the globals 0, whatever the host
gives; the host's store keeps its handles. -/
theorem launchIsConsistent : Obligations.LaunchIsConsistent := by
  rintro s ⟨l, hl, rfl⟩
  exact ⟨memoryOk_launch hl, registryOk_launch l, dispatcherOk_of_idle rfl, pageOk_launch l, nodeOk_launch l,
    engagedOk_iff.mpr (engagedArmed_none l.m), bocOk_launch l⟩

/-- Power-on is a launch with nothing loaded (70_reset_and_hazards.md R150). -/
theorem cleanLaunch_reset : CleanLaunch State.reset :=
  ⟨{ params := resetParams, ops := [], d := [], m := Vector.replicate 6 resetMob, data := [], agenda := [] }, rfl, rfl⟩

/-- Settles O50: the registers are given by `State.reset`, and the consistency is that of a launch. -/
theorem resetIsQuietAndConsistent : Obligations.ResetIsQuietAndConsistent :=
  ⟨rfl, rfl, rfl, rfl, rfl, rfl, rfl, rfl, rfl, rfl, launchIsConsistent State.reset cleanLaunch_reset⟩

end Sys2Proof.Machine
end

section
/-! Family 43_transfer_engine.md, RESUME's two branches that load nothing: an empty answer of `on_transmit`, and the arming
of a slot that receives (R100). -/

namespace Sys2Proof.Machine

open Sys2Proof.Safety

theorem execResume_receives {h : Handle} {s : State} {d : Desc} {k : SlotIx} (ha : Accepted s h d k)
    (hk : d.kind ≠ .transmit) : execResume h s = .next (resumeReceive k s) := by
  simp only [execResume, checkSlot_accepted ha]
  cases hkind : d.kind with
  | transmit => exact absurd hkind hk
  | receive => rfl
  | autoReply => rfl

/-- Settles O29: the effect is that of `resumeReceive_eq`. -/
theorem resumeArmsReception : Obligations.ResumeArmsReception := fun s _ _ k ha hk =>
  (execResume_receives ha hk).trans (congrArg Host.Outcome.next (resumeReceive_eq k s))

/-- An empty answer updates the descriptor and is recorded; nothing is loaded (43_transfer_engine.md R100). -/
theorem resumeTransmit_empty (h : Handle) (k : SlotIx) (buf : Bytes8) (s : State) :
    resumeTransmit h k buf 0 s = .next { s with
      d := descUpdate s.d h fun d => { d with buffer := buf, dataLength := 0 }
      obs := s.obs ++ [.txFill h 0] } := rfl

/-- Settles O28: the answer of `execResume_filled` with length 0. -/
theorem resumeWithNothingToSendWritesNoRegister : Obligations.ResumeWithNothingToSendWritesNoRegister :=
  fun s h _ k buf ha hk hf => (execResume_filled ha hk hf).trans (resumeTransmit_empty h k buf s)

end Sys2Proof.Machine
end
